-- ==== Sys2Proof/Word.lean ====
section
/-! DEFINITION. Words and bytes (00_scope.md R6, R7): bit 0 is the least significant bit of every value. -/

namespace Sys2Proof

/-- One 32-bit word: a command word, a response word, a word of `MEM` (`WORD_BITS` = 32, R6). -/
abbrev Word := BitVec 32

/-- One byte of the byte view of `MEM` (20_memory.md R60). -/
abbrev Byte := BitVec 8

end Sys2Proof
end

