-- ==== Sys2Proof/Syntax.lean ====
section
/-! DEFINITION. The thirteen commands of 30_encoding.md R96 with their operands (R91 to R94). -/

namespace Sys2Proof

/-- One command. `len` is the 6-bit header field of R92, `n` the 24-bit one; the other operands are whole
words (R93); `data` is the byte string of R94, whose length is the header's `n`. -/
inductive Instr where
  | cPopcnt (x : Word)
  | cBitsreq (min max : Word)
  | wNew (base capacityBytes : Word)
  | wBits (value : Word) (len : BitVec 6)
  | wFlush
  | wAlign
  | wBytes (data : List Byte)
  | wInt (value min max : Word)
  | rNew (base capacityBytes : Word)
  | rBits (len : BitVec 6)
  | rAlign
  | rBytes (n : BitVec 24)
  | rInt (min max : Word)
  deriving DecidableEq, Repr

end Sys2Proof
end

