-- ==== Sys2Proof/WellFormed.lean ====
section
/-! DEFINITION. Which terms of `Instr` have an encoding. -/

namespace Sys2Proof

/-- A command is well formed when its fields fit its encoding. The types see to every field but one: the byte
count of `W_BYTES` is 24 bits wide, so a command carries at most `2^24 - 1` bytes (30_encoding.md R91, R92). A
`len` of 33 to 63 is a legal encoding (R97). -/
def Instr.wellFormed : Instr → Bool
  | .wBytes data => decide (data.length < 2 ^ 24)
  | .cPopcnt _ | .cBitsreq _ _ | .wNew _ _ | .wBits _ _ | .wFlush | .wAlign | .wInt _ _ _ => true
  | .rNew _ _ | .rBits _ | .rAlign | .rBytes _ | .rInt _ _ => true

end Sys2Proof
end

