-- ==== Sys2Proof/Decode.lean ====
section
/-! DEFINITION. The command decoder and encoder (30_encoding.md sections 1 to 5). Command words are abstract 32-bit
values in the order the host gives them (R90); bytes inside words are little-endian (R94, 20_memory.md R61). -/

namespace Sys2Proof

/-! ## Bytes and words -/

/-- The word `{b3, b2, b1, b0}`: `b0` in bits `[7:0]` (20_memory.md R61, 30_encoding.md R94). -/
def wordOfBytes (b0 b1 b2 b3 : Byte) : Word := b3 ++ b2 ++ b1 ++ b0

/-- Byte `k` of a word: bits `[8k+7 : 8k]` (20_memory.md R61). -/
def byteOfWord (w : Word) (k : Nat) : Byte := (w >>> (8 * k)).setWidth 8

/-- The four bytes of a word, the lowest first (20_memory.md R61). -/
def bytesOfWord (w : Word) : List Byte := [byteOfWord w 0, byteOfWord w 1, byteOfWord w 2, byteOfWord w 3]

/-- Bytes packed four to a word, little-endian, the unused high bytes of the last word 0 (30_encoding.md R94, R100). -/
def packBytes : List Byte → List Word
  | [] => []
  | [a] => [wordOfBytes a 0 0 0]
  | [a, b] => [wordOfBytes a b 0 0]
  | [a, b, c] => [wordOfBytes a b c 0]
  | a :: b :: c :: d :: rest => wordOfBytes a b c d :: packBytes rest

/-- The first `n` bytes of words packed as `packBytes` packs them; the bytes after them are ignored (30_encoding.md R94). -/
def unpackBytes (n : Nat) (ws : List Word) : List Byte := (ws.flatMap bytesOfWord).take n

/-! ## The opcode map -/

/-- The formats of 30_encoding.md R91. -/
inductive Format where
  | z | l | lv | v1 | v2 | v3 | n | np
  deriving DecidableEq, Repr

/-- The operations of 30_encoding.md R96. -/
inductive Op where
  | cPopcnt | cBitsreq | wNew | wBits | wFlush | wAlign | wBytes | wInt | rNew | rBits | rAlign | rBytes | rInt
  deriving DecidableEq, Repr

/-- One row of the opcode map: a header selects the row when `header & mask = pattern` (30_encoding.md R96). -/
structure OpRow where
  op : Op
  format : Format
  mask : Word
  pattern : Word
  deriving DecidableEq, Repr

/-- The thirteen rows of 30_encoding.md R96, in its order. -/
def opRows : List OpRow := [
  ⟨.cPopcnt,  .v1, 0xFFFFFFFF, 0x00000001⟩,
  ⟨.cBitsreq, .v2, 0xFFFFFFFF, 0x00000002⟩,
  ⟨.wNew,     .v2, 0xFFFFFFFF, 0x00000010⟩,
  ⟨.wBits,    .lv, 0xFFFFC0FF, 0x00000011⟩,
  ⟨.wFlush,   .z,  0xFFFFFFFF, 0x00000012⟩,
  ⟨.wAlign,   .z,  0xFFFFFFFF, 0x00000013⟩,
  ⟨.wBytes,   .np, 0x000000FF, 0x00000014⟩,
  ⟨.wInt,     .v3, 0xFFFFFFFF, 0x00000015⟩,
  ⟨.rNew,     .v2, 0xFFFFFFFF, 0x00000020⟩,
  ⟨.rBits,    .l,  0xFFFFC0FF, 0x00000021⟩,
  ⟨.rAlign,   .z,  0xFFFFFFFF, 0x00000023⟩,
  ⟨.rBytes,   .n,  0x000000FF, 0x00000024⟩,
  ⟨.rInt,     .v2, 0xFFFFFFFF, 0x00000025⟩]

/-- The row selects the header (30_encoding.md R96). -/
def OpRow.selects (r : OpRow) (h : Word) : Bool := h &&& r.mask == r.pattern

/-- The row of a header; none for an illegal one (30_encoding.md R97). -/
def rowOf (h : Word) : Option OpRow := opRows.find? (·.selects h)

/-- The header field `len`, bits `[13:8]` (30_encoding.md R91, R92). -/
def headerLen (h : Word) : BitVec 6 := h.extractLsb' 8 6

/-- The header field `n`, bits `[31:8]` (30_encoding.md R91, R92). -/
def headerCount (h : Word) : BitVec 24 := h.extractLsb' 8 24

/-- How many words follow the header, from the format and the header alone (30_encoding.md R91, R95). -/
def Format.operandWords (f : Format) (h : Word) : Nat :=
  match f with
  | .z | .l | .n => 0
  | .lv | .v1 => 1
  | .v2 => 2
  | .v3 => 3
  | .np => ((headerCount h).toNat + 3) / 4

/-- The length of a command in words, told from its header alone; an illegal header is one word long
(30_encoding.md R95, R97). -/
def commandWords (h : Word) : Nat :=
  match rowOf h with
  | none => 1
  | some r => 1 + r.format.operandWords h

/-! ## The decoder -/

/-- Why a word sequence yields no command. -/
inductive DecodeError where
  /-- The header matches no row (30_encoding.md R97): status `IllegalCommand`, one word taken. -/
  | illegalCommand
  /-- The words end inside a command: a host error outside the spec's model (30_encoding.md R98). -/
  | incompleteCommand
  /-- There is no word at all; the decoder is applied to non-empty sequences (30_encoding.md R98). -/
  | noWords
  deriving DecidableEq, Repr

/-- The command of an operation, its header and its operand words (30_encoding.md R91 to R94). -/
def assemble (op : Op) (h : Word) (args : List Word) : Option Instr :=
  match op, args with
  | .cPopcnt, [x] => some (.cPopcnt x)
  | .cBitsreq, [lo, hi] => some (.cBitsreq lo hi)
  | .wNew, [base, cap] => some (.wNew base cap)
  | .wBits, [value] => some (.wBits value (headerLen h))
  | .wFlush, [] => some .wFlush
  | .wAlign, [] => some .wAlign
  | .wBytes, payload => some (.wBytes (unpackBytes (headerCount h).toNat payload))
  | .wInt, [value, lo, hi] => some (.wInt value lo hi)
  | .rNew, [base, cap] => some (.rNew base cap)
  | .rBits, [] => some (.rBits (headerLen h))
  | .rAlign, [] => some .rAlign
  | .rBytes, [] => some (.rBytes (headerCount h))
  | .rInt, [lo, hi] => some (.rInt lo hi)
  | _, _ => none

/-- The decoder: the first command of a word sequence and the words after it (30_encoding.md R95, R98). -/
def decode : List Word → Except DecodeError (Instr × List Word)
  | [] => .error .noWords
  | h :: rest =>
    match rowOf h with
    | none => .error .illegalCommand
    | some r =>
      let k := r.format.operandWords h
      if rest.length < k then .error .incompleteCommand
      else
        match assemble r.op h (rest.take k) with
        | some i => .ok (i, rest.drop k)
        | none => .error .incompleteCommand

/-! ## The encoder -/

/-- A header with a 6-bit `len` in bits `[13:8]` and zeros above (30_encoding.md R91). -/
def lenHeader (op : Byte) (len : BitVec 6) : Word := (0 : BitVec 18) ++ len ++ op

/-- A header with a 24-bit count in bits `[31:8]` (30_encoding.md R91). -/
def countHeader (op : Byte) (n : BitVec 24) : Word := n ++ op

/-- The words of a command (30_encoding.md R91 to R96); payload pad bytes are written as 0 (R94). -/
def encode : Instr → List Word
  | .cPopcnt x => [0x00000001, x]
  | .cBitsreq lo hi => [0x00000002, lo, hi]
  | .wNew base cap => [0x00000010, base, cap]
  | .wBits value len => [lenHeader 0x11 len, value]
  | .wFlush => [0x00000012]
  | .wAlign => [0x00000013]
  | .wBytes data => countHeader 0x14 (BitVec.ofNat 24 data.length) :: packBytes data
  | .wInt value lo hi => [0x00000015, value, lo, hi]
  | .rNew base cap => [0x00000020, base, cap]
  | .rBits len => [lenHeader 0x21 len]
  | .rAlign => [0x00000023]
  | .rBytes n => [countHeader 0x24 n]
  | .rInt lo hi => [0x00000025, lo, hi]

/-! ## The host's view of the decoder -/

/-- The words of the command whose bits are `w` (bit 0 the least significant bit of the header, each later word's
bits counted on), every bit from `nbits` up being 0; as many words as the header asks for (30_encoding.md R95). -/
def tableWords (nbits w : Nat) : List Word :=
  let bits := w % 2 ^ nbits
  (List.range (commandWords (BitVec.ofNat 32 bits))).map fun k => BitVec.ofNat 32 (bits >>> (32 * k))

/-- The command the decoder reads from the bits `w` of a command, if they are the bits of one. -/
def decodeTableWord (nbits w : Nat) : Option Instr :=
  match decode (tableWords nbits w) with
  | .ok (i, _) => some i
  | .error _ => none

end Sys2Proof
end

