-- ==== Sys2Proof/Config.lean ====
section
/-! DEFINITION. The two open parameters of the spec (92_eei_decisions.md, "Open parameters, collected"), as
constants without a body: no proof can see their value. -/

namespace Sys2Proof.Config

/-- The largest `MEM_WORDS`, `2^27 - 1` (00_scope.md R6). -/
def maxMemWords : Nat := 134217727

/-- Free value (log 1): one less than the `MEM_WORDS` of the machine at reset. -/
opaque memWordsPred : Fin 134217727

/-- `MEM_WORDS` of the machine at reset: some number in `1 .. 2^27 - 1` (00_scope.md R6). -/
def memWords : Nat := memWordsPred.val + 1

/-- Free value (log 2): what the byte of `MEM` at a byte address holds when neither the writer nor the host has
written it since power-up (20_memory.md R76: "holds an unspecified value"). -/
opaque initialByte : Nat → Byte

end Sys2Proof.Config
end

