-- ==== Sys2Proof/Machine/State.lean ====
section
/-! DEFINITION. The state of the block (10_state.md R20), the model's own fields for the host's side of the command
port, the reasons a step can stop, and the state after reset (10_state.md R45). -/

namespace Sys2Proof.Machine

/-- The completion statuses of 60_exceptions.md R181, in the order of their codes. -/
inductive Status where
  | ok | invalidCapacity | capacityExceeded | overflow | paddingNonZero | misaligned | bitsRange | rangeContract
  | bufferBounds | notBound | faulted | illegalCommand | desync
  deriving DecidableEq, Repr

/-- The response of one command: its status and the data words after the status word (30_encoding.md R100). -/
structure Response where
  status : Status
  data : List Word
  deriving DecidableEq, Repr

/-- `MEM` in its byte view (20_memory.md R60): the bytes that the writer or the host has written since power-up, by
byte address, addresses strictly rising. An unlisted byte has not been written (R76). -/
abbrev Memory := List Host.Cell

/-- The one canonical form of a memory: addresses strictly rising. An unlisted address holds no written value, so no
entry can equal what it reads as. -/
abbrev Memory.wf (m : Memory) : Prop := m.Pairwise fun p q => p.1 < q.1

/-- The registers of unit W, the BitWriter (10_state.md R21 to R27). -/
@[ext]
structure Writer where
  /-- The scratch accumulator; the oldest staged bit is bit 0 (R21). -/
  scratch : BitVec 64
  /-- Count of valid bits staged in `scratch` (R22). -/
  scratchBits : BitVec 7
  /-- The next word slot to flush, counted from the start of the buffer (R23). -/
  wordIndex : BitVec 32
  /-- Total bits accepted since the last `W_NEW` (R24). -/
  bitsWritten : BitVec 32
  /-- `MEM` word index of the buffer's first word (R25). -/
  base : BitVec 32
  /-- The buffer's capacity in words (R25). -/
  numWords : BitVec 32
  /-- The buffer's capacity in bits (R25). -/
  numBits : BitVec 32
  /-- Whether the writer has a buffer (R26). -/
  bound : Bool
  /-- The fault latch: 0, or the status code of the first fatal condition (R27). -/
  fault : BitVec 4
  deriving DecidableEq, Repr

/-- The registers of unit R, the BitReader (10_state.md R30 to R35). -/
@[ext]
structure Reader where
  /-- The scratch accumulator; the next bit to be delivered is bit 0 (R30). -/
  scratch : BitVec 64
  /-- Count of valid bits in `scratch` (R31). -/
  scratchBits : BitVec 7
  /-- The next word slot to fetch, counted from the start of the buffer (R32). -/
  wordIndex : BitVec 32
  /-- Total bits delivered since the last `R_NEW` (R33). -/
  bitsRead : BitVec 32
  /-- `MEM` word index of the buffer's first word (R34). -/
  base : BitVec 32
  /-- The buffer's capacity in words (R34). -/
  numWords : BitVec 32
  /-- The buffer's capacity in bits (R34). -/
  numBits : BitVec 32
  /-- Whether the reader has a buffer (R35). -/
  bound : Bool
  deriving DecidableEq, Repr

/-- One move of the host, the block's only partner (00_scope.md R11). Moves fall between commands. -/
inductive HostMove where
  /-- The next command word `cw[i]` at the command port (30_encoding.md R90). -/
  | word (w : Word)
  /-- A store of one byte of `MEM` at a byte address (20_memory.md R75). -/
  | storeByte (addr : Nat) (b : Byte)
  /-- A store of one word of `MEM` at a word index (20_memory.md R75). -/
  | storeWord (index : Nat) (w : Word)
  /-- The reset event (70_reset_and_hazards.md R210). -/
  | reset
  deriving DecidableEq, Repr

/-- The state of the machine. The first three fields are the spec's (10_state.md R20); the last three are the
model's own: they are not state of the block (R46). -/
@[ext]
structure State where
  /-- Unit W. -/
  w : Writer
  /-- Unit R. -/
  r : Reader
  /-- `MEM`. -/
  mem : Memory
  /-- The parameter `MEM_WORDS`, which the model takes as an argument (00_scope.md R6); nothing changes it. Log 1. -/
  memWords : Nat
  /-- The host's moves still to come, the first one next. DESIGN CHOICE, log 3. -/
  inbox : List HostMove
  /-- The response of the last command; none before the first. DESIGN CHOICE, log 4. -/
  response : Option Response
  deriving DecidableEq, Repr

/-- Reasons for which the machine stops with a fault. -/
inductive Fault where
  /-- Raised by the word store of a writer command whose word does not lie in `MEM`. No reachable state makes such a
  store (20_memory.md R67). Safe: the model stops. Log 6. -/
  | storeOutsideMem
  /-- Raised by the word load of a reader command whose word does not lie in `MEM`. No reachable state makes such a
  load (20_memory.md R67). Safe: the model stops. Log 6. -/
  | loadOutsideMem
  deriving DecidableEq, Repr

/-- Reasons for which a step has no meaning. -/
inductive Refusal where
  /-- Raised by `exec` for an instruction without a meaning. No arm raises it in this model. Safe. -/
  | notModelled (mnemonic : String)
  /-- Raised by `step` when the host's command words end, or the host makes another move, inside a command: "a host
  error outside the model" (30_encoding.md R98). Safe. Log 5. -/
  | incompleteCommand
  /-- Raised by `step` when the host stores to an address outside `MEM`, which does not exist (20_memory.md R60).
  Safe. Log 7. -/
  | hostStoreOutsideMem
  deriving DecidableEq, Repr

/-- Unit W after reset: every register 0 (10_state.md R45). -/
def Writer.reset : Writer := ⟨0, 0, 0, 0, 0, 0, 0, false, 0⟩

/-- Unit R after reset: every register 0 (10_state.md R45). -/
def Reader.reset : Reader := ⟨0, 0, 0, 0, 0, 0, 0, false⟩

/-- The machine after power-up and reset: both units zero (10_state.md R45), nothing written to `MEM` (20_memory.md
R76), some `MEM_WORDS` (00_scope.md R6), no move of the host pending, no response yet. -/
def State.reset : State := ⟨Writer.reset, Reader.reset, [], Config.memWords, [], none⟩

end Sys2Proof.Machine
end

