-- ==== Sys2Proof/Machine/Operands.lean ====
section
/-! DEFINITION. How commands read their operands: signed readings, masks, padding, the calculator's pure functions
(40_bitmath.md section 1), the range encoding (43_stream_integer.md R170), and the splitting of a byte string
(41_bitwriter.md R136). -/

namespace Sys2Proof.Machine

/-- `s32(v)`: a 32-bit pattern read as a two's complement signed integer (00_scope.md R8). -/
def s32 (v : Word) : Int := if v.toNat < 2 ^ 31 then (v.toNat : Int) else (v.toNat : Int) - 2 ^ 32

/-- `mask(n) = 2^n - 1` as a 64-bit value, for `n` up to 32 (00_scope.md R9). -/
def mask (n : Nat) : BitVec 64 := BitVec.ofNat 64 (2 ^ n - 1)

/-- `popcount(x)`: the sum of the 32 bits of `x` (40_bitmath.md R120). -/
def popcount (x : Word) : Nat := ((List.range 32).map fun i => (x.getLsbD i).toNat).sum

/-- The SWAR recipe of 40_bitmath.md R126, which that rule gives as an aid; the machine computes `popcount`. -/
def popcountSwar (x : Word) : Word :=
  let a := x - ((x >>> 1) &&& 0x55555555)
  let b := (a &&& 0x33333333) + ((a >>> 2) &&& 0x33333333)
  let c := (b + (b >>> 4)) &&& 0x0F0F0F0F
  (c * 0x01010101) >>> 24

/-- `smear(x)`: every bit below the highest set bit set (40_bitmath.md R121). -/
def smear (x : Word) : Word :=
  let x1 := x ||| (x >>> 1)
  let x2 := x1 ||| (x1 >>> 2)
  let x3 := x2 ||| (x2 >>> 4)
  let x4 := x3 ||| (x3 >>> 8)
  x4 ||| (x4 >>> 16)

/-- `bitlen(d)`: the number of bits needed to write `d` in binary (40_bitmath.md R122). -/
def bitlen (d : Word) : Nat := if d = 0 then 0 else popcount (smear d >>> 1) + 1

/-- `bits_required(m, M)` on the operand words (40_bitmath.md R125, with the wrapping subtraction of R124). -/
def bitsRequired (min max : Word) : Nat := if min = max then 0 else bitlen (max - min)

/-- The contract of a range, `min < max` on the signed readings (43_stream_integer.md R170). -/
def rangeOk (min max : Word) : Bool := decide (s32 min < s32 max)

/-- The contract of `W_INT`: `min < max` and `min <= value <= max` on the signed readings (43_stream_integer.md R171). -/
def rangeHolds (value min max : Word) : Bool :=
  rangeOk min max && decide (s32 min ≤ s32 value) && decide (s32 value ≤ s32 max)

/-- The field value of a range-encoded integer, `u32(value - min)` (43_stream_integer.md R170). -/
def rangeEncode (value min : Word) : Word := value - min

/-- The integer of a field value, `u32(u + min)` (43_stream_integer.md R170). -/
def rangeDecode (u min : Word) : Word := u + min

/-- The padding to the next byte boundary, 0 to 7 bits (41_bitwriter.md R135, 42_bitreader.md R154). -/
def padding (bits : BitVec 32) : Nat := (8 - bits.toNat % 8) % 8

/-- How many of `n` bytes the head phase of `W_BYTES` takes: those up to the next word boundary (41_bitwriter.md R136). -/
def headCount (bitsWritten : BitVec 32) (n : Nat) : Nat := min n ((4 - bitsWritten.toNat % 32 / 8) % 4)

/-- How many words the bulk phase of `W_BYTES` stores (41_bitwriter.md R136). -/
def bulkWords (bitsWritten : BitVec 32) (n : Nat) : Nat := (n - headCount bitsWritten n) / 4

/-- The bytes of the head phase (41_bitwriter.md R136). -/
def headBytes (bitsWritten : BitVec 32) (data : List Byte) : List Byte :=
  data.take (headCount bitsWritten data.length)

/-- The bytes of the bulk phase, whole words (41_bitwriter.md R136). -/
def bulkBytes (bitsWritten : BitVec 32) (data : List Byte) : List Byte :=
  (data.drop (headCount bitsWritten data.length)).take (4 * bulkWords bitsWritten data.length)

/-- The bytes of the tail phase (41_bitwriter.md R136). -/
def tailBytes (bitsWritten : BitVec 32) (data : List Byte) : List Byte :=
  data.drop (headCount bitsWritten data.length + 4 * bulkWords bitsWritten data.length)

/-- How many words `R_BYTES n` fetches when `scratchBits` bits are staged (42_bitreader.md R155). -/
def bytesLoads (scratchBits : BitVec 7) (n : Nat) : Nat :=
  if 8 * n ≤ scratchBits.toNat then 0 else (8 * n - scratchBits.toNat + 31) / 32

end Sys2Proof.Machine
end

