-- ==== Sys2Proof/Machine/Flags.lean ====
section
/-! DEFINITION. The block's status bits: status codes (60_exceptions.md R181), which of them are fatal (R184), and the
tests every command makes before it changes anything, each list in the order of the command's `raise` lines (R188). -/

namespace Sys2Proof.Machine

/-- The 4-bit code of a status (60_exceptions.md R181). -/
def Status.code : Status → BitVec 4
  | .ok => 0
  | .invalidCapacity => 1
  | .capacityExceeded => 2
  | .overflow => 3
  | .paddingNonZero => 4
  | .misaligned => 5
  | .bitsRange => 6
  | .rangeContract => 7
  | .bufferBounds => 8
  | .notBound => 9
  | .faulted => 10
  | .illegalCommand => 11
  | .desync => 12

/-- The statuses that a writer command other than `W_NEW` latches in `W.fault` (60_exceptions.md R184). -/
def Status.fatal : Status → Bool
  | .capacityExceeded | .misaligned | .bitsRange | .rangeContract | .bufferBounds | .desync => true
  | .ok | .invalidCapacity | .overflow | .paddingNonZero | .notBound | .faulted | .illegalCommand => false

/-- The status word `rw[0]`: the code in bits `[3:0]`, zeros above (30_encoding.md R100). -/
def Status.word (st : Status) : Word := st.code.setWidth 32

/-- The response words `rw[0], rw[1], ...` (30_encoding.md R100). -/
def Response.words (p : Response) : List Word := p.status.word :: p.data

/-- The first condition that holds, if one does: "the tests after it are not made" (60_exceptions.md R188). -/
def firstRaise : List (Bool × Status) → Option Status
  | [] => none
  | (holds, st) :: rest => if holds then some st else firstRaise rest

/-- `wsync`: `32 * W.word_index + W.scratch_bits = W.bits_written`, without wrap (10_state.md R29). -/
def Writer.sync (w : Writer) : Bool := decide (32 * w.wordIndex.toNat + w.scratchBits.toNat = w.bitsWritten.toNat)

/-- `wadmit` (41_bitwriter.md R130). -/
def Writer.wadmit (w : Writer) : List (Bool × Status) := [(!w.bound, .notBound), (w.fault != 0, .faulted)]

/-- `waccept` (41_bitwriter.md R130). -/
def Writer.waccept (w : Writer) : List (Bool × Status) := w.wadmit ++ [(!w.sync, .desync)]

/-- `radmit` (42_bitreader.md R150). -/
def Reader.radmit (r : Reader) : List (Bool × Status) := [(!r.bound, .notBound)]

/-- The writer has no room for `len` more bits (41_bitwriter.md R132; sum without wrap). -/
def Writer.tooLong (w : Writer) (len : Nat) : Bool := decide (w.numBits.toNat < w.bitsWritten.toNat + len)

/-- A write of `len` bits would complete a word with no word slot left (41_bitwriter.md R132). -/
def Writer.noSlot (w : Writer) (len : Nat) : Bool :=
  decide (32 ≤ w.scratchBits.toNat + len) && decide (w.numWords.toNat ≤ w.wordIndex.toNat)

/-- `would_overflow`: the reader has fewer than `len` bits left (42_bitreader.md R152; sum without wrap). -/
def Reader.tooLong (r : Reader) (len : Nat) : Bool := decide (r.numBits.toNat < r.bitsRead.toNat + len)

/-- A read of `len` bits would refill with no word slot left (42_bitreader.md R152). -/
def Reader.noSlot (r : Reader) (len : Nat) : Bool :=
  decide (r.scratchBits.toNat < len) && decide (r.numWords.toNat ≤ r.wordIndex.toNat)

/-- The tests of `W_NEW` and `R_NEW` on their operands (41_bitwriter.md R131, 42_bitreader.md R151; sum without wrap). -/
def newTests (base capacityBytes : Word) (memWords : Nat) : List (Bool × Status) :=
  [(capacityBytes.toNat % 4 != 0, .invalidCapacity),
   (decide (memWords < base.toNat + capacityBytes.toNat / 4), .bufferBounds)]

/-- The tests of `C_BITSREQ` (40_bitmath.md R124). -/
def bitsreqTests (min max : Word) : List (Bool × Status) := [(decide (s32 max < s32 min), .rangeContract)]

/-- The tests of `W_BITS` (41_bitwriter.md R132). -/
def Writer.bitsTests (w : Writer) (len : Nat) : List (Bool × Status) :=
  w.waccept ++ [(decide (32 < len), .bitsRange), (w.tooLong len, .capacityExceeded), (w.noSlot len, .bufferBounds)]

/-- The tests of `W_FLUSH` (41_bitwriter.md R133): nothing is tested after admission when nothing is staged. -/
def Writer.flushTests (w : Writer) : List (Bool × Status) :=
  w.wadmit ++ [(w.scratchBits != 0 && decide (w.numWords.toNat ≤ w.wordIndex.toNat), .bufferBounds)]

/-- The tests of `W_ALIGN` (41_bitwriter.md R135): nothing is tested after admission when the padding is empty. -/
def Writer.alignTests (w : Writer) : List (Bool × Status) :=
  let pad := padding w.bitsWritten
  w.waccept ++ [(pad != 0 && w.tooLong pad, .capacityExceeded), (pad != 0 && w.noSlot pad, .bufferBounds)]

/-- The tests of `W_BYTES` for `n` bytes (41_bitwriter.md R136). -/
def Writer.bytesTests (w : Writer) (n : Nat) : List (Bool × Status) :=
  w.waccept ++
    [(w.bitsWritten.toNat % 8 != 0, .misaligned), (w.tooLong (8 * n), .capacityExceeded),
     (decide (w.numWords.toNat < w.wordIndex.toNat + (w.scratchBits.toNat + 8 * n) / 32), .bufferBounds)]

/-- The tests of `W_INT` (43_stream_integer.md R171). -/
def Writer.intTests (w : Writer) (value min max : Word) : List (Bool × Status) :=
  let len := bitsRequired min max
  w.waccept ++
    [(!rangeHolds value min max, .rangeContract), (w.tooLong len, .capacityExceeded), (w.noSlot len, .bufferBounds)]

/-- The tests of `R_BITS` (42_bitreader.md R152). -/
def Reader.bitsTests (r : Reader) (len : Nat) : List (Bool × Status) :=
  r.radmit ++ [(decide (32 < len), .bitsRange), (r.tooLong len, .overflow), (r.noSlot len, .bufferBounds)]

/-- The tests of `R_ALIGN` (42_bitreader.md R154): nothing is tested after admission when the padding is empty. -/
def Reader.alignTests (r : Reader) : List (Bool × Status) :=
  let pad := padding r.bitsRead
  r.radmit ++ [(pad != 0 && r.tooLong pad, .overflow), (pad != 0 && r.noSlot pad, .bufferBounds)]

/-- The tests of `R_BYTES` (42_bitreader.md R155). -/
def Reader.bytesTests (r : Reader) (n : Nat) : List (Bool × Status) :=
  r.radmit ++
    [(r.bitsRead.toNat % 8 != 0, .misaligned), (r.tooLong (8 * n), .overflow),
     (decide (r.numWords.toNat < r.wordIndex.toNat + bytesLoads r.scratchBits n), .bufferBounds)]

/-- The tests of `R_INT` (43_stream_integer.md R172). -/
def Reader.intTests (r : Reader) (min max : Word) : List (Bool × Status) :=
  let len := bitsRequired min max
  r.radmit ++ [(!rangeOk min max, .rangeContract), (r.tooLong len, .overflow), (r.noSlot len, .bufferBounds)]

end Sys2Proof.Machine
end

