-- ==== Sys2Proof/Machine/Ops.lean ====
section
/-! DEFINITION. The named operations: memory, responses, raising a status (the block's exception entry,
60_exceptions.md section 2) and the way back from one, and the internal steps of the two datapaths
(41_bitwriter.md R134, 42_bitreader.md R153). -/

namespace Sys2Proof.Machine

/-- The three outcomes of a step of this machine. -/
abbrev Result := Host.Outcome State Fault Refusal

/-! ## Memory -/

/-- The byte written at a byte address, if one has been (20_memory.md R76). -/
def Memory.readByte : Memory → Nat → Option Byte
  | [], _ => none
  | (k, b) :: rest, a => if a = k then some b else Memory.readByte rest a

/-- The memory with one byte written, addresses kept rising (20_memory.md R61). -/
def Memory.writeByte : Memory → Nat → Byte → Memory
  | [], a, v => [(a, v)]
  | (k, b) :: rest, a, v =>
    if a < k then (a, v) :: (k, b) :: rest
    else if a = k then (a, v) :: rest
    else (k, b) :: Memory.writeByte rest a v

/-- `MemWrite(4i, 4, v)`: byte `4i + k` takes bits `[8k+7 : 8k]` (20_memory.md R61). -/
def Memory.writeWord (m : Memory) (i : Nat) (v : Word) : Memory :=
  (((m.writeByte (4 * i) (byteOfWord v 0)).writeByte (4 * i + 1) (byteOfWord v 1)).writeByte (4 * i + 2)
    (byteOfWord v 2)).writeByte (4 * i + 3) (byteOfWord v 3)

/-- The byte of `MEM` at a byte address: what was last written there, else its initial content, a free value
(20_memory.md R70, R76; log 2). This is the one definition of what an unlisted address reads as. -/
def Memory.byteAt (m : Memory) (a : Nat) : Byte := (m.readByte a).getD (Config.initialByte a)

/-- `MemRead(4i, 4)`: `{byte[4i+3], byte[4i+2], byte[4i+1], byte[4i]}` (20_memory.md R61). -/
def Memory.wordAt (m : Memory) (i : Nat) : Word :=
  wordOfBytes (m.byteAt (4 * i)) (m.byteAt (4 * i + 1)) (m.byteAt (4 * i + 2)) (m.byteAt (4 * i + 3))

/-- The byte of `MEM` at a byte address, as the host reads it between commands (20_memory.md R75). DESIGN CHOICE,
log 19: R60 has no byte at or above `4 * MEM_WORDS` and no rule says what a read there gives; the definition is total
and answers as for any address, a free value where nothing is listed. -/
def State.byteAt (s : State) (a : Nat) : Byte := s.mem.byteAt a

/-- A word store of the block; none when the word does not exist (20_memory.md R60, R64; log 6). -/
def State.storeWord (i : Nat) (v : Word) (s : State) : Option State :=
  if i < s.memWords then some { s with mem := s.mem.writeWord i v } else none

/-- A word load of the block; none when the word does not exist (20_memory.md R60, R64; log 6). -/
def State.loadWord (i : Nat) (s : State) : Option Word :=
  if i < s.memWords then some (s.mem.wordAt i) else none

/-! ## Responses, exception entry and exit -/

/-- The state with a response delivered (30_encoding.md R100). -/
def State.respond (st : Status) (data : List Word) (s : State) : State := { s with response := some ⟨st, data⟩ }

/-- `raise` outside the latched cases: the response carries the status and nothing else changes (60_exceptions.md
R183, R185, R186, R187; failures of `W_NEW`, R184). -/
def State.raise (st : Status) (s : State) : State := s.respond st []

/-- The fault latch taking a status: a fatal status is stored, any other leaves it (60_exceptions.md R184). -/
def Writer.latch (st : Status) (w : Writer) : Writer := { w with fault := if st.fatal then st.code else w.fault }

/-- `raise` in a writer command other than `W_NEW`: a fatal status is also stored in `W.fault`, and nothing else
changes (60_exceptions.md R184, R189). Such a command raises a fatal status only while `W.fault` is 0, so the latch
keeps the first cause. -/
def State.raiseLatched (st : Status) (s : State) : State := State.raise st { s with w := s.w.latch st }

/-- Unit W after a `W_NEW` that completes: the only exit from the faulted condition but reset (41_bitwriter.md R131,
60_exceptions.md R191). -/
def Writer.fresh (base capacityBytes : Word) : Writer where
  scratch := 0
  scratchBits := 0
  wordIndex := 0
  bitsWritten := 0
  base := base
  numWords := BitVec.ofNat 32 (capacityBytes.toNat / 4)
  numBits := BitVec.ofNat 32 (32 * (capacityBytes.toNat / 4))
  bound := true
  fault := 0

/-- Unit R after an `R_NEW` that completes (42_bitreader.md R151). -/
def Reader.fresh (base capacityBytes : Word) : Reader where
  scratch := 0
  scratchBits := 0
  wordIndex := 0
  bitsRead := 0
  base := base
  numWords := BitVec.ofNat 32 (capacityBytes.toNat / 4)
  numBits := BitVec.ofNat 32 (32 * (capacityBytes.toNat / 4))
  bound := true

/-- The reset event: every register of both units as 10_state.md R45 says, `MEM` not touched
(70_reset_and_hazards.md R210). -/
def State.hardReset (s : State) : State := { s with w := Writer.reset, r := Reader.reset }

/-- A command's outcome from its tests: the first status raised, else the command's own effect. -/
def guarded (tests : List (Bool × Status)) (raised : Status → State) (effect : Result) : Result :=
  match firstRaise tests with
  | some st => .next (raised st)
  | none => effect

/-- A writer command that has done its work: `respond OK`. -/
def finishWrite : Option State → Result
  | some s => .next (s.respond .ok [])
  | none => .fault .storeOutsideMem

/-! ## The writer's datapath -/

/-- The `MEM` word index the writer stores to next (20_memory.md R66). -/
def Writer.slot (w : Writer) : Nat := w.base.toNat + w.wordIndex.toNat

/-- The first three lines of `wbits`: the masked value OR-ed in above the staged bits, the counts raised
(41_bitwriter.md R134). -/
def Writer.stage (v : Word) (len : Nat) (w : Writer) : Writer :=
  { w with
    scratch := w.scratch ||| ((v.setWidth 64 &&& mask len) <<< w.scratchBits.toNat)
    scratchBits := w.scratchBits + BitVec.ofNat 7 len
    bitsWritten := w.bitsWritten + BitVec.ofNat 32 len }

/-- The register part of `flushword` (41_bitwriter.md R134). -/
def Writer.shiftOut (w : Writer) : Writer :=
  { w with scratch := w.scratch >>> 32, scratchBits := w.scratchBits - 32, wordIndex := w.wordIndex + 1 }

/-- The register part of a `W_FLUSH` that stores a word (41_bitwriter.md R133). -/
def Writer.close (w : Writer) : Writer :=
  { w with scratch := w.scratch >>> 32, scratchBits := 0, wordIndex := w.wordIndex + 1 }

/-- The register part of one bulk store (41_bitwriter.md R136). -/
def Writer.skipWord (w : Writer) : Writer :=
  { w with wordIndex := w.wordIndex + 1, bitsWritten := w.bitsWritten + 32 }

/-- A store of `v` to the writer's next word slot, the writer then taking the value `w'`. -/
def State.storeSlot (v : Word) (w' : Writer) (s : State) : Option State :=
  (s.storeWord s.w.slot v).map fun t => { t with w := w' }

/-- `flushword` (41_bitwriter.md R134). -/
def State.flushWord (s : State) : Option State := s.storeSlot (s.w.scratch.setWidth 32) s.w.shiftOut

/-- `wbits(v, len)` (41_bitwriter.md R134). -/
def State.wbits (v : Word) (len : Nat) (s : State) : Option State :=
  let t : State := { s with w := s.w.stage v len }
  if 32 ≤ t.w.scratchBits.toNat then t.flushWord else some t

/-- The store of a `W_FLUSH` with staged bits (41_bitwriter.md R133). -/
def State.flushPartial (s : State) : Option State := s.storeSlot (s.w.scratch.setWidth 32) s.w.close

/-- The head and tail phases of `W_BYTES`: one `wbits` of 8 bits for each byte (41_bitwriter.md R136). -/
def State.wbytes : List Byte → State → Option State
  | [], s => some s
  | b :: rest, s => (s.wbits (b.setWidth 32) 8).bind (State.wbytes rest)

/-- The bulk phase of `W_BYTES`: whole words straight to `MEM` (41_bitwriter.md R136). -/
def State.wbulk : List Byte → State → Option State
  | b0 :: b1 :: b2 :: b3 :: rest, s =>
    (s.storeSlot (wordOfBytes b0 b1 b2 b3) s.w.skipWord).bind (State.wbulk rest)
  | [], s => some s
  | [_], s => some s
  | [_, _], s => some s
  | [_, _, _], s => some s

/-! ## The reader's datapath -/

/-- The `MEM` word index the reader loads from next (20_memory.md R66). -/
def Reader.slot (r : Reader) : Nat := r.base.toNat + r.wordIndex.toNat

/-- The register part of a refill with the word `v` (42_bitreader.md R153). -/
def Reader.refillWith (v : Word) (r : Reader) : Reader :=
  { r with
    scratch := r.scratch ||| (v.setWidth 64 <<< r.scratchBits.toNat)
    scratchBits := r.scratchBits + 32
    wordIndex := r.wordIndex + 1 }

/-- The register part of the extraction (42_bitreader.md R153). -/
def Reader.consume (len : Nat) (r : Reader) : Reader :=
  { r with
    scratch := r.scratch >>> len
    scratchBits := r.scratchBits - BitVec.ofNat 7 len
    bitsRead := r.bitsRead + BitVec.ofNat 32 len }

/-- The bits an extraction delivers: the low `len` bits of the scratch (42_bitreader.md R153). -/
def Reader.front (len : Nat) (r : Reader) : Word := (r.scratch &&& mask len).setWidth 32

/-- The refill of `rbits`, made only when fewer than `len` bits are staged (42_bitreader.md R153). -/
def State.refill (len : Nat) (s : State) : Option State :=
  if s.r.scratchBits.toNat < len then
    (s.loadWord s.r.slot).map fun v => { s with r := s.r.refillWith v }
  else some s

/-- `rbits(len)`: the delivered bits and the state after (42_bitreader.md R153). -/
def State.rbits (len : Nat) (s : State) : Option (Word × State) :=
  (s.refill len).map fun t => (t.r.front len, { t with r := t.r.consume len })

/-- The loop of `R_BYTES`: `n` extractions of 8 bits (42_bitreader.md R155). -/
def State.rbytes : Nat → State → Option (List Byte × State)
  | 0, s => some ([], s)
  | n + 1, s =>
    (s.rbits 8).bind fun p => (State.rbytes n p.2).map fun q => (p.1.setWidth 8 :: q.1, q.2)

end Sys2Proof.Machine
end

