-- ==== Sys2Proof/Machine/CalcUnit.lean ====
section
/-! DEFINITION. The commands of unit C, the calculator (40_bitmath.md). Unit C has no state (10_state.md R38). -/

namespace Sys2Proof.Machine

/-- `C_POPCNT x` (40_bitmath.md R123). -/
def execCPopcnt (x : Word) (s : State) : Result := .next (s.respond .ok [BitVec.ofNat 32 (popcount x)])

/-- `C_BITSREQ min, max` (40_bitmath.md R124). -/
def execCBitsreq (min max : Word) (s : State) : Result :=
  guarded (bitsreqTests min max) (fun st => s.raise st)
    (.next (s.respond .ok [BitVec.ofNat 32 (bitsRequired min max)]))

end Sys2Proof.Machine
end

