-- ==== Sys2Proof/Machine/ReaderUnit.lean ====
section
/-! DEFINITION. The commands of unit R, the BitReader (42_bitreader.md). -/

namespace Sys2Proof.Machine

/-- `R_NEW base, capacity_bytes` (42_bitreader.md R151). -/
def execRNew (base capacityBytes : Word) (s : State) : Result :=
  guarded (newTests base capacityBytes s.memWords) (fun st => s.raise st)
    (.next (State.respond .ok [] { s with r := Reader.fresh base capacityBytes }))

/-- `R_BITS len` (42_bitreader.md R152). -/
def execRBits (len : BitVec 6) (s : State) : Result :=
  guarded (s.r.bitsTests len.toNat) (fun st => s.raise st)
    (match s.rbits len.toNat with
      | some (out, t) => .next (t.respond .ok [out])
      | none => .fault .loadOutsideMem)

/-- `R_ALIGN` (42_bitreader.md R154): the status is judged after the cursor has advanced. -/
def execRAlign (s : State) : Result :=
  guarded s.r.alignTests (fun st => s.raise st)
    (if padding s.r.bitsRead = 0 then .next (s.respond .ok [])
    else
      match s.rbits (padding s.r.bitsRead) with
      | some (v, t) => .next (t.respond (if v = 0 then .ok else .paddingNonZero) [])
      | none => .fault .loadOutsideMem)

/-- `R_BYTES n` (42_bitreader.md R155), the bytes packed four to a word (30_encoding.md R100). -/
def execRBytes (n : BitVec 24) (s : State) : Result :=
  guarded (s.r.bytesTests n.toNat) (fun st => s.raise st)
    (match s.rbytes n.toNat with
      | some (data, t) => .next (t.respond .ok (packBytes data))
      | none => .fault .loadOutsideMem)

end Sys2Proof.Machine
end

