-- ==== Sys2Proof/Machine/StreamInteger.lean ====
section
/-! DEFINITION. The range-encoded integer commands, the calculator coupled to the two datapaths
(43_stream_integer.md). -/

namespace Sys2Proof.Machine

/-- `W_INT value, min, max` (43_stream_integer.md R171). -/
def execWInt (value min max : Word) (s : State) : Result :=
  guarded (s.w.intTests value min max) (fun st => s.raiseLatched st)
    (finishWrite (s.wbits (rangeEncode value min) (bitsRequired min max)))

/-- `R_INT min, max` (43_stream_integer.md R172): the decoded value is not tested against `max`. -/
def execRInt (min max : Word) (s : State) : Result :=
  guarded (s.r.intTests min max) (fun st => s.raise st)
    (match s.rbits (bitsRequired min max) with
      | some (u, t) => .next (t.respond .ok [rangeDecode u min])
      | none => .fault .loadOutsideMem)

end Sys2Proof.Machine
end

