-- ==== Sys2Proof/Machine/WriterUnit.lean ====
section
/-! DEFINITION. The commands of unit W, the BitWriter (41_bitwriter.md). -/

namespace Sys2Proof.Machine

/-- `W_NEW base, capacity_bytes` (41_bitwriter.md R131). Its failures are not latched. -/
def execWNew (base capacityBytes : Word) (s : State) : Result :=
  guarded (newTests base capacityBytes s.memWords) (fun st => s.raise st)
    (.next (State.respond .ok [] { s with w := Writer.fresh base capacityBytes }))

/-- `W_BITS value, len` (41_bitwriter.md R132). -/
def execWBits (value : Word) (len : BitVec 6) (s : State) : Result :=
  guarded (s.w.bitsTests len.toNat) (fun st => s.raiseLatched st) (finishWrite (s.wbits value len.toNat))

/-- `W_FLUSH` (41_bitwriter.md R133). -/
def execWFlush (s : State) : Result :=
  guarded s.w.flushTests (fun st => s.raiseLatched st)
    (finishWrite (if s.w.scratchBits = 0 then some s else s.flushPartial))

/-- `W_ALIGN` (41_bitwriter.md R135). -/
def execWAlign (s : State) : Result :=
  guarded s.w.alignTests (fun st => s.raiseLatched st)
    (finishWrite (if padding s.w.bitsWritten = 0 then some s else s.wbits 0 (padding s.w.bitsWritten)))

/-- `W_BYTES data` in its three phases (41_bitwriter.md R136). When the head takes all the bytes the other two
phases have none. -/
def execWBytes (data : List Byte) (s : State) : Result :=
  guarded (s.w.bytesTests data.length) (fun st => s.raiseLatched st)
    (finishWrite
      (((s.wbytes (headBytes s.w.bitsWritten data)).bind (State.wbulk (bulkBytes s.w.bitsWritten data))).bind
        (State.wbytes (tailBytes s.w.bitsWritten data))))

end Sys2Proof.Machine
end

