-- ==== Sys2Proof/Machine/Dispatch.lean ====
section
/-! DEFINITION. One arm for each command of 30_encoding.md R96. -/

namespace Sys2Proof.Machine

def exec (i : Instr) (s : State) : Host.Outcome State Fault Refusal :=
  match i with
  | .cPopcnt x => Sys2Proof.Machine.execCPopcnt x s
  | .cBitsreq min max => Sys2Proof.Machine.execCBitsreq min max s
  | .wNew base capacityBytes => Sys2Proof.Machine.execWNew base capacityBytes s
  | .wBits value len => Sys2Proof.Machine.execWBits value len s
  | .wFlush => Sys2Proof.Machine.execWFlush s
  | .wAlign => Sys2Proof.Machine.execWAlign s
  | .wBytes data => Sys2Proof.Machine.execWBytes data s
  | .wInt value min max => Sys2Proof.Machine.execWInt value min max s
  | .rNew base capacityBytes => Sys2Proof.Machine.execRNew base capacityBytes s
  | .rBits len => Sys2Proof.Machine.execRBits len s
  | .rAlign => Sys2Proof.Machine.execRAlign s
  | .rBytes n => Sys2Proof.Machine.execRBytes n s
  | .rInt min max => Sys2Proof.Machine.execRInt min max s

end Sys2Proof.Machine
end

