-- ==== Sys2Proof/Machine/Port.lean ====
section
/-! DEFINITION. The host's side of the block: taking a command off the command port (30_encoding.md R90, R95, R98),
the response to an illegal header (R97), and the host's own moves between commands (20_memory.md R75,
70_reset_and_hazards.md R210). -/

namespace Sys2Proof.Machine

/-- The command words at the head of the host's moves, up to its first other move (30_encoding.md R98). -/
def pendingWords : List HostMove → List Word
  | .word w :: rest => w :: pendingWords rest
  | _ => []

/-- What the command port offers next. -/
inductive Offer where
  /-- No move of the host is pending: the block is idle (60_exceptions.md R194). -/
  | idle
  /-- A whole command and the number of words it takes. -/
  | command (i : Instr) (taken : Nat)
  /-- A header that is no command; it takes one word (30_encoding.md R97). -/
  | illegal
  /-- The words end inside a command (30_encoding.md R98). -/
  | incomplete
  /-- The host stores a byte of `MEM`. -/
  | storeByte (addr : Nat) (b : Byte)
  /-- The host stores a word of `MEM`. -/
  | storeWord (index : Nat) (v : Word)
  /-- The host resets the block. -/
  | reset
  deriving DecidableEq, Repr

/-- Reads the head of the host's moves. -/
def offer (inbox : List HostMove) : Offer :=
  match inbox with
  | [] => .idle
  | .storeByte a b :: _ => .storeByte a b
  | .storeWord i v :: _ => .storeWord i v
  | .reset :: _ => .reset
  | .word _ :: _ =>
    let ws := pendingWords inbox
    match decode ws with
    | .ok (i, rest) => .command i (ws.length - rest.length)
    | .error .illegalCommand => .illegal
    | .error .incompleteCommand => .incomplete
    | .error .noWords => .incomplete

/-- The state with the host's first `k` moves taken. -/
def State.take (k : Nat) (s : State) : State := { s with inbox := s.inbox.drop k }

/-- An illegal header: status `IllegalCommand`, one word taken, no state of any unit changed, nothing latched
(30_encoding.md R97, 60_exceptions.md R187). -/
def illegalHeader (s : State) : Result := .next (s.raise .illegalCommand)

/-- The host stores one byte (20_memory.md R75); a byte outside `MEM` does not exist (R60, log 7). -/
def hostStoreByte (a : Nat) (b : Byte) (s : State) : Result :=
  if a < 4 * s.memWords then .next { s with mem := s.mem.writeByte a b } else .refused .hostStoreOutsideMem

/-- The host stores one word (20_memory.md R75); a word outside `MEM` does not exist (R60, log 7). -/
def hostStoreWord (i : Nat) (v : Word) (s : State) : Result :=
  match s.storeWord i v with
  | some t => .next t
  | none => .refused .hostStoreOutsideMem

/-- The host's moves that offer the words of a command to the block. -/
def wordMoves (ws : List Word) : List HostMove := ws.map .word

end Sys2Proof.Machine
end

