-- ==== Sys2Proof/Machine/Step.lean ====
section
/-! DEFINITION. One step: the block completes the host's next command, or the host makes one move of its own between
commands, or, when nothing is pending, the block stays idle (00_scope.md R11, R12; 60_exceptions.md R194). -/

namespace Sys2Proof.Machine

/-- One step of the machine. -/
def step (s : State) : Host.Outcome State Fault Refusal :=
  match offer s.inbox with
  | .idle => .next s
  | .command i taken => exec i (s.take taken)
  | .illegal => illegalHeader (s.take 1)
  | .incomplete => .refused .incompleteCommand
  | .storeByte a b => hostStoreByte a b (s.take 1)
  | .storeWord i v => hostStoreWord i v (s.take 1)
  | .reset => .next (s.take 1).hardReset

/-- The state in which the command with the bits `w` is the next thing at the command port (log 3). -/
def State.withFetchWord (s : State) (nbits w : Nat) : State :=
  { s with inbox := wordMoves (tableWords nbits w) ++ s.inbox }

end Sys2Proof.Machine
end

