-- ==== Sys2Proof/Machine/Assembler.lean ====
section
/-! DEFINITION. The assembler: the lines of 30_encoding.md R103 and the pseudo-instructions of R107, as commands. It
is notation, no part of the block: no step of the machine uses it. -/

namespace Sys2Proof

/-- Why an assembly line is refused (30_encoding.md R103; log 18). -/
inductive AsmError where
  /-- The line names no command and no pseudo-instruction. -/
  | unknownMnemonic
  /-- An operand is no decimal and no hexadecimal number. -/
  | badNumber
  /-- An operand does not fit its field. -/
  | outOfRange
  /-- The line has too few or too many operands. -/
  | wrongOperands
  deriving DecidableEq, Repr

/-- What an assembly line stands for: its commands in order, and whether the assembler warns. -/
structure Assembled where
  commands : List Instr
  warning : Bool
  deriving DecidableEq, Repr

/-! ## Pseudo-instructions -/

/-- The pseudo-instructions of 30_encoding.md R107. -/
inductive Pseudo where
  | wsInt (value min max : Word)
  | wsBits (value : Word) (len : BitVec 6)
  | wsAlign
  | wsBytes (data : List Byte)
  | rsInt (min max : Word)
  | rsBits (len : BitVec 6)
  | rsAlign
  | rsBytes (n : BitVec 24)
  deriving DecidableEq, Repr

/-- The expansion of a pseudo-instruction (30_encoding.md R107). -/
def Pseudo.expand : Pseudo → List Instr
  | .wsInt value min max => [.wInt value min max]
  | .wsBits value len => [.wBits value len]
  | .wsAlign => [.wAlign]
  | .wsBytes data => [.wAlign, .wBytes data]
  | .rsInt min max => [.rInt min max]
  | .rsBits len => [.rBits len]
  | .rsAlign => [.rAlign]
  | .rsBytes n => [.rAlign, .rBytes n]

/-! ## Reading a line -/

/-- The characters before the first `;` (30_encoding.md R103). -/
def dropComment (line : List Char) : List Char := line.takeWhile (· ≠ ';')

/-- The characters without the blanks at either end. -/
def trimBlanks (cs : List Char) : List Char :=
  ((cs.dropWhile Char.isWhitespace).reverse.dropWhile Char.isWhitespace).reverse

/-- The pieces between commas. -/
def splitCommas : List Char → List (List Char)
  | [] => [[]]
  | c :: rest =>
    if c = ',' then [] :: splitCommas rest
    else
      match splitCommas rest with
      | [] => [[c]]
      | piece :: more => (c :: piece) :: more

/-- The value of a digit, decimal or hexadecimal. -/
def digitOf (base : Nat) (c : Char) : Option Nat :=
  let d :=
    if '0' ≤ c ∧ c ≤ '9' then c.toNat - '0'.toNat
    else if 'a' ≤ c ∧ c ≤ 'f' then c.toNat - 'a'.toNat + 10
    else if 'A' ≤ c ∧ c ≤ 'F' then c.toNat - 'A'.toNat + 10
    else base
  if d < base then some d else none

/-- The number of a non-empty digit string. -/
def digitsOf (base : Nat) (cs : List Char) : Option Nat :=
  if cs = [] then none else cs.foldlM (fun n c => (digitOf base c).map (base * n + ·)) 0

/-- A number of an assembly line: decimal, hexadecimal with `0x`, or a negative decimal (30_encoding.md R103). -/
def numberOf (cs : List Char) : Option Int :=
  match cs with
  | '0' :: 'x' :: ds => (digitsOf 16 ds).map Int.ofNat
  | '-' :: ds => (digitsOf 10 ds).map fun n => -Int.ofNat n
  | ds => (digitsOf 10 ds).map Int.ofNat

/-- A number as a field of `width` bits, unsigned. -/
def fieldOf (width : Nat) (n : Int) : Option (BitVec width) :=
  if 0 ≤ n ∧ n < 2 ^ width then some (BitVec.ofInt width n) else none

/-- A number as a signed operand word, a negative one in two's complement (30_encoding.md R103). -/
def signedOf (n : Int) : Option Word :=
  if -2 ^ 31 ≤ n ∧ n < 2 ^ 32 then some (BitVec.ofInt 32 n) else none

/-- The assembler accepts a `len` of 33 to 63 with a warning (30_encoding.md R103). -/
def lenWarning (len : BitVec 6) : Bool := decide (32 < len.toNat)

/-- The commands of a line that names `m` and has the operands `ns`: the order of the operands is that of
30_encoding.md R103, the expansions are those of R107. An unsigned operand takes no negative number. -/
def assembleLine (m : List Char) (ns : List Int) : Except AsmError Assembled :=
  let fits (r : Option Assembled) : Except AsmError Assembled :=
    match r with
    | some a => .ok a
    | none => .error .outOfRange
  let quiet (is : List Instr) : Option Assembled := some ⟨is, false⟩
  let name (s : String) : Bool := m == s.toList
  let noOperand (is : List Instr) : Except AsmError Assembled :=
    if ns = [] then .ok ⟨is, false⟩ else .error .wrongOperands
  let one (k : Int → Option Assembled) : Except AsmError Assembled :=
    match ns with
    | [a] => fits (k a)
    | _ => .error .wrongOperands
  let two (k : Int → Int → Option Assembled) : Except AsmError Assembled :=
    match ns with
    | [a, b] => fits (k a b)
    | _ => .error .wrongOperands
  let three (k : Int → Int → Int → Option Assembled) : Except AsmError Assembled :=
    match ns with
    | [a, b, c] => fits (k a b c)
    | _ => .error .wrongOperands
  let wBits := two fun v n => do
    let value ← fieldOf 32 v
    let len ← fieldOf 6 n
    some ⟨(Pseudo.wsBits value len).expand, lenWarning len⟩
  let rBits := one fun n => do
    let len ← fieldOf 6 n
    some ⟨(Pseudo.rsBits len).expand, lenWarning len⟩
  let wInt := three fun v a b => do quiet (Pseudo.wsInt (← signedOf v) (← signedOf a) (← signedOf b)).expand
  let rInt := two fun a b => do quiet (Pseudo.rsInt (← signedOf a) (← signedOf b)).expand
  let bytes (k : List Byte → List Instr) : Except AsmError Assembled :=
    if ns.length < 2 ^ 24 then fits (do quiet (k (← ns.mapM (fieldOf 8)))) else .error .outOfRange
  let count (k : BitVec 24 → List Instr) : Except AsmError Assembled := one fun n => do quiet (k (← fieldOf 24 n))
  if name "c.popcnt" then one fun x => do quiet [.cPopcnt (← fieldOf 32 x)]
  else if name "c.bitsreq" then two fun a b => do quiet [.cBitsreq (← signedOf a) (← signedOf b)]
  else if name "w.new" then two fun a b => do quiet [.wNew (← fieldOf 32 a) (← fieldOf 32 b)]
  else if name "r.new" then two fun a b => do quiet [.rNew (← fieldOf 32 a) (← fieldOf 32 b)]
  else if name "w.flush" then noOperand [.wFlush]
  else if name "w.bits" || name "ws.bits" then wBits
  else if name "r.bits" || name "rs.bits" then rBits
  else if name "w.int" || name "ws.int" then wInt
  else if name "r.int" || name "rs.int" then rInt
  else if name "w.align" || name "ws.align" then noOperand Pseudo.wsAlign.expand
  else if name "r.align" || name "rs.align" then noOperand Pseudo.rsAlign.expand
  else if name "w.bytes" then bytes fun data => [.wBytes data]
  else if name "ws.bytes" then bytes fun data => (Pseudo.wsBytes data).expand
  else if name "r.bytes" then count fun n => [.rBytes n]
  else if name "rs.bytes" then count fun n => (Pseudo.rsBytes n).expand
  else .error .unknownMnemonic

/-- The commands of one line of assembly text; a line with nothing but blanks and a comment has none (30_encoding.md
R103). -/
def assembleText (line : String) : Except AsmError Assembled :=
  let text := trimBlanks (dropComment line.toList)
  let rest := trimBlanks (text.dropWhile fun c => !c.isWhitespace)
  let pieces := if rest = [] then [] else (splitCommas rest).map trimBlanks
  if text = [] then .ok ⟨[], false⟩
  else
    match pieces.mapM numberOf with
    | none => .error .badNumber
    | some ns => assembleLine (text.takeWhile fun c => !c.isWhitespace) ns

end Sys2Proof
end

