-- ==== Sys2Proof/Safety.lean ====
section
/-! DEFINITION. The terms claims use: the invariant of every reachable state (10_state.md R28, R29, R36, R37), the
stream of bits (20_memory.md R62), what appending and delivering bits does, the status of every command
(60_exceptions.md R182, R188), and sessions of commands. -/

namespace Sys2Proof.Machine

/-! ## The invariant -/

/-- The writer is closed: a `W_FLUSH` has stored a partial word (10_state.md R29 (d)). -/
abbrev Writer.Closed (w : Writer) : Prop :=
  w.scratchBits = 0 ∧ w.scratch = 0 ∧ 32 * w.wordIndex.toNat < w.bitsWritten.toNat + 32 ∧
    w.bitsWritten.toNat < 32 * w.wordIndex.toNat

/-- A unit's buffer lies in `MEM` and its capacity in bits is 32 for each word (10_state.md R25, R34, R42). -/
abbrev bufferInv (base numWords numBits : BitVec 32) (memWords : Nat) : Prop :=
  base.toNat + numWords.toNat ≤ memWords ∧ numBits.toNat = 32 * numWords.toNat

/-- The invariants of a bound writer (10_state.md R28, R29 (a) to (d)) and the legal values of its latch (R42). -/
abbrev Writer.BoundInv (w : Writer) (memWords : Nat) : Prop :=
  bufferInv w.base w.numWords w.numBits memWords ∧
    w.bitsWritten.toNat ≤ w.numBits.toNat ∧
    w.scratchBits.toNat ≤ 31 ∧
    w.scratch.toNat < 2 ^ w.scratchBits.toNat ∧
    w.wordIndex.toNat ≤ w.numWords.toNat ∧
    (w.sync = true ∨ w.Closed) ∧
    (w.fault = 0 ∨ w.fault = 2 ∨ w.fault = 5 ∨ w.fault = 6 ∨ w.fault = 7 ∨ w.fault = 8 ∨ w.fault = 12)

/-- The invariants of a bound reader (10_state.md R36, R37 (a) to (d)). -/
abbrev Reader.BoundInv (r : Reader) (memWords : Nat) : Prop :=
  bufferInv r.base r.numWords r.numBits memWords ∧
    r.bitsRead.toNat ≤ r.numBits.toNat ∧
    r.scratchBits.toNat ≤ 31 ∧
    r.scratch.toNat < 2 ^ r.scratchBits.toNat ∧
    r.wordIndex.toNat ≤ r.numWords.toNat ∧
    32 * r.wordIndex.toNat = r.bitsRead.toNat + r.scratchBits.toNat

/-- The writer's invariant: bound and as above, or still as reset left it (10_state.md R26, R45). -/
abbrev Writer.Inv (w : Writer) (memWords : Nat) : Prop :=
  (w.bound = true ∧ w.BoundInv memWords) ∨ w = Writer.reset

/-- The reader's invariant: bound and as above, or still as reset left it (10_state.md R35, R45). -/
abbrev Reader.Inv (r : Reader) (memWords : Nat) : Prop :=
  (r.bound = true ∧ r.BoundInv memWords) ∨ r = Reader.reset

/-- `MEM` is in its canonical form and holds bytes of the byte view only (20_memory.md R60). -/
abbrev Memory.Inv (m : Memory) (memWords : Nat) : Prop := m.wf ∧ ∀ p ∈ m, p.1 < 4 * memWords

/-- The invariant of every reachable state, with the range of `MEM_WORDS` (00_scope.md R6). -/
abbrev State.Inv (s : State) : Prop :=
  (1 ≤ s.memWords ∧ s.memWords ≤ Config.maxMemWords) ∧
    s.w.Inv s.memWords ∧ s.r.Inv s.memWords ∧ s.mem.Inv s.memWords

/-- The writer takes more bits: bound, not faulted, in sync (41_bitwriter.md R130). -/
abbrev Writer.Open (w : Writer) : Prop := w.bound = true ∧ w.fault = 0 ∧ w.sync = true

/-- The command completed with status `OK` and the data words `data` (30_encoding.md R100). -/
abbrev State.Answered (t : State) (st : Status) (data : List Word) : Prop := t.response = some ⟨st, data⟩

/-- The status of the last response. -/
def State.status (t : State) : Option Status := t.response.map (·.status)

/-! ## Bytes and bits as numbers -/

/-- The number a byte string holds, the first byte lowest (20_memory.md R61). -/
def leNat : List Byte → Nat
  | [] => 0
  | b :: rest => b.toNat + 256 * leNat rest

/-- The `n` bytes of `MEM` from byte address `a` on. -/
def State.bytesFrom (s : State) (a n : Nat) : List Byte := (List.range n).map fun j => s.byteAt (a + j)

/-- Stream bit `n` of the buffer at word index `base`: bit `n mod 32` of word `base + n div 32` (20_memory.md R62). -/
def Memory.streamBit (m : Memory) (base n : Nat) : Bool := (m.wordAt (base + n / 32)).getLsbD (n % 32)

/-- Stream bit `n` of the writer: in `MEM` if its word has been stored, else staged (10_state.md R29 (e)). -/
def State.writtenBit (s : State) (n : Nat) : Bool :=
  if n < 32 * s.w.wordIndex.toNat then s.mem.streamBit s.w.base.toNat n
  else s.w.scratch.getLsbD (n - 32 * s.w.wordIndex.toNat)

/-- The reader's staged bits are those that `MEM` holds now: no word has changed since it was fetched (10_state.md
R37 (e), 20_memory.md R72). -/
def State.readerFresh (s : State) : Prop :=
  ∀ i < s.r.scratchBits.toNat, s.r.scratch.getLsbD i = s.mem.streamBit s.r.base.toNat (s.r.bitsRead.toNat + i)

/-! ## What appending and delivering do -/

/-- The writer with its cursor at the given numbers. -/
def Writer.withCursor (scratch scratchBits wordIndex bitsWritten : Nat) (w : Writer) : Writer :=
  { w with
    scratch := BitVec.ofNat 64 scratch
    scratchBits := BitVec.ofNat 7 scratchBits
    wordIndex := BitVec.ofNat 32 wordIndex
    bitsWritten := BitVec.ofNat 32 bitsWritten }

/-- The writer with its latch at the given code. -/
def Writer.withFault (code : BitVec 4) (w : Writer) : Writer := { w with fault := code }

/-- The reader with its cursor at the given numbers. -/
def Reader.withCursor (scratch scratchBits wordIndex bitsRead : Nat) (r : Reader) : Reader :=
  { r with
    scratch := BitVec.ofNat 64 scratch
    scratchBits := BitVec.ofNat 7 scratchBits
    wordIndex := BitVec.ofNat 32 wordIndex
    bitsRead := BitVec.ofNat 32 bitsRead }

/-- The number formed by the writer's staged bits and the low `len` bits of `v` above them. -/
def State.gathered (s : State) (v len : Nat) : Nat := s.w.scratch.toNat + v % 2 ^ len * 2 ^ s.w.scratchBits.toNat

/-- How many words `len` more bits complete (10_state.md R40). -/
def Writer.completes (w : Writer) (len : Nat) : Nat := (w.scratchBits.toNat + len) / 32

/-- `t` is `s` after the writer has accepted the low `len` bits of the number `v` (41_bitwriter.md R134, R136): the
staged bits and the new ones form one number, its whole words go to the next word slots, the rest stays staged.
Everything else but the response is as in `s`. -/
structure Appended (s t : State) (v len : Nat) : Prop where
  reader : t.r = s.r
  memWords : t.memWords = s.memWords
  inbox : t.inbox = s.inbox
  writer : t.w =
    s.w.withCursor (s.gathered v len / 2 ^ (32 * s.w.completes len))
      (s.w.scratchBits.toNat + len - 32 * s.w.completes len) (s.w.wordIndex.toNat + s.w.completes len)
      (s.w.bitsWritten.toNat + len)
  /-- Every byte of `MEM` outside the stored words reads as before. -/
  bytes : ∀ a, t.byteAt a =
    if 4 * s.w.slot ≤ a ∧ a < 4 * (s.w.slot + s.w.completes len) then
      BitVec.ofNat 8 (s.gathered v len / 2 ^ (8 * (a - 4 * s.w.slot)))
    else s.byteAt a

/-- How many words a delivery of `len` bits fetches (10_state.md R40). -/
def Reader.fetches (r : Reader) (len : Nat) : Nat :=
  if len ≤ r.scratchBits.toNat then 0 else (len - r.scratchBits.toNat + 31) / 32

/-- The number formed by the reader's staged bits and the words a delivery of `len` bits fetches. -/
def State.readable (s : State) (len : Nat) : Nat :=
  s.r.scratch.toNat + leNat (s.bytesFrom (4 * s.r.slot) (4 * s.r.fetches len)) * 2 ^ s.r.scratchBits.toNat

/-- `t` is `s` after the reader has delivered `len` bits (42_bitreader.md R153, R155): everything but the reader's
cursor and the response is as in `s`. The bits delivered are the low `len` bits of `s.readable len`. -/
structure Delivered (s t : State) (len : Nat) : Prop where
  writer : t.w = s.w
  mem : t.mem = s.mem
  memWords : t.memWords = s.memWords
  inbox : t.inbox = s.inbox
  reader : t.r =
    s.r.withCursor (s.readable len / 2 ^ len) (s.r.scratchBits.toNat + 32 * s.r.fetches len - len)
      (s.r.wordIndex.toNat + s.r.fetches len) (s.r.bitsRead.toNat + len)

end Sys2Proof.Machine

namespace Sys2Proof

/-! ## Units and statuses of commands -/

/-- A command of unit W that `wadmit` guards: every writer command but `W_NEW` (41_bitwriter.md R130). -/
def Instr.isWriterCommand : Instr → Bool
  | .wBits _ _ | .wFlush | .wAlign | .wBytes _ | .wInt _ _ _ => true
  | .cPopcnt _ | .cBitsreq _ _ | .wNew _ _ => false
  | .rNew _ _ | .rBits _ | .rAlign | .rBytes _ | .rInt _ _ => false

/-- A writer command that accepts bits (41_bitwriter.md R130). -/
def Instr.acceptsBits : Instr → Bool
  | .wBits _ _ | .wAlign | .wBytes _ | .wInt _ _ _ => true
  | .cPopcnt _ | .cBitsreq _ _ | .wNew _ _ | .wFlush => false
  | .rNew _ _ | .rBits _ | .rAlign | .rBytes _ | .rInt _ _ => false

/-- A command of unit R that `radmit` guards: every reader command but `R_NEW` (42_bitreader.md R150). -/
def Instr.isReaderCommand : Instr → Bool
  | .rBits _ | .rAlign | .rBytes _ | .rInt _ _ => true
  | .cPopcnt _ | .cBitsreq _ _ | .rNew _ _ => false
  | .wNew _ _ | .wBits _ _ | .wFlush | .wAlign | .wBytes _ | .wInt _ _ _ => false

/-- The matrix of 60_exceptions.md R182 with `OK` added: the statuses marked "yes" for a command. -/
def Instr.mayAnswer : Instr → List Machine.Status
  | .cPopcnt _ => [.ok]
  | .cBitsreq _ _ => [.ok, .rangeContract]
  | .wNew _ _ => [.ok, .invalidCapacity, .bufferBounds]
  | .wBits _ _ => [.ok, .capacityExceeded, .bitsRange, .notBound, .faulted, .desync]
  | .wFlush => [.ok, .notBound, .faulted]
  | .wAlign => [.ok, .notBound, .faulted, .desync]
  | .wBytes _ => [.ok, .capacityExceeded, .misaligned, .notBound, .faulted, .desync]
  | .wInt _ _ _ => [.ok, .capacityExceeded, .rangeContract, .notBound, .faulted, .desync]
  | .rNew _ _ => [.ok, .invalidCapacity, .bufferBounds]
  | .rBits _ => [.ok, .overflow, .bitsRange, .notBound]
  | .rAlign => [.ok, .paddingNonZero, .notBound]
  | .rBytes _ => [.ok, .overflow, .misaligned, .notBound]
  | .rInt _ _ => [.ok, .overflow, .rangeContract, .notBound]

/-- How many data words an `OK` response carries (30_encoding.md R100). -/
def Instr.dataWords : Instr → Nat
  | .cPopcnt _ | .cBitsreq _ _ | .rBits _ | .rInt _ _ => 1
  | .rBytes n => (n.toNat + 3) / 4
  | .wNew _ _ | .wBits _ _ | .wFlush | .wAlign | .wBytes _ | .wInt _ _ _ | .rNew _ _ | .rAlign => 0

end Sys2Proof

namespace Sys2Proof.Machine

/-- The status that 60_exceptions.md R188 gives a command when the tests that no reachable state can fail (R182, "u")
are left out: the first condition that holds, in the order of that rule. -/
def commandStatus (i : Instr) (s : State) : Status :=
  match i with
  | .cPopcnt _ => .ok
  | .cBitsreq min max => if s32 max < s32 min then .rangeContract else .ok
  | .wNew base cap | .rNew base cap =>
    if cap.toNat % 4 ≠ 0 then .invalidCapacity
    else if s.memWords < base.toNat + cap.toNat / 4 then .bufferBounds
    else .ok
  | .wBits _ len =>
    if s.w.bound = false then .notBound
    else if s.w.fault ≠ 0 then .faulted
    else if 32 * s.w.wordIndex.toNat + s.w.scratchBits.toNat ≠ s.w.bitsWritten.toNat then .desync
    else if 32 < len.toNat then .bitsRange
    else if s.w.numBits.toNat < s.w.bitsWritten.toNat + len.toNat then .capacityExceeded
    else .ok
  | .wFlush =>
    if s.w.bound = false then .notBound
    else if s.w.fault ≠ 0 then .faulted
    else .ok
  | .wAlign =>
    if s.w.bound = false then .notBound
    else if s.w.fault ≠ 0 then .faulted
    else if 32 * s.w.wordIndex.toNat + s.w.scratchBits.toNat ≠ s.w.bitsWritten.toNat then .desync
    else .ok
  | .wBytes data =>
    if s.w.bound = false then .notBound
    else if s.w.fault ≠ 0 then .faulted
    else if 32 * s.w.wordIndex.toNat + s.w.scratchBits.toNat ≠ s.w.bitsWritten.toNat then .desync
    else if s.w.bitsWritten.toNat % 8 ≠ 0 then .misaligned
    else if s.w.numBits.toNat < s.w.bitsWritten.toNat + 8 * data.length then .capacityExceeded
    else .ok
  | .wInt value min max =>
    if s.w.bound = false then .notBound
    else if s.w.fault ≠ 0 then .faulted
    else if 32 * s.w.wordIndex.toNat + s.w.scratchBits.toNat ≠ s.w.bitsWritten.toNat then .desync
    else if ¬(s32 min < s32 max ∧ s32 min ≤ s32 value ∧ s32 value ≤ s32 max) then .rangeContract
    else if s.w.numBits.toNat < s.w.bitsWritten.toNat + bitsRequired min max then .capacityExceeded
    else .ok
  | .rBits len =>
    if s.r.bound = false then .notBound
    else if 32 < len.toNat then .bitsRange
    else if s.r.numBits.toNat < s.r.bitsRead.toNat + len.toNat then .overflow
    else .ok
  | .rAlign =>
    if s.r.bound = false then .notBound
    else if s.r.scratch.toNat % 2 ^ ((8 - s.r.bitsRead.toNat % 8) % 8) ≠ 0 then .paddingNonZero
    else .ok
  | .rBytes n =>
    if s.r.bound = false then .notBound
    else if s.r.bitsRead.toNat % 8 ≠ 0 then .misaligned
    else if s.r.numBits.toNat < s.r.bitsRead.toNat + 8 * n.toNat then .overflow
    else .ok
  | .rInt min max =>
    if s.r.bound = false then .notBound
    else if ¬s32 min < s32 max then .rangeContract
    else if s.r.numBits.toNat < s.r.bitsRead.toNat + bitsRequired min max then .overflow
    else .ok

/-! ## Sessions -/

/-- The states after each command of a list, executed in order; none if one does not complete. -/
def trace : List Instr → State → Option (List State)
  | [], _ => some []
  | i :: rest, s =>
    match exec i s with
    | .next t => (trace rest t).map (t :: ·)
    | .fault _ => none
    | .refused _ => none

/-- One field of a session, written by one command and read by its mirror (42_bitreader.md R158). -/
inductive Field where
  | bits (value : Word) (len : BitVec 6)
  | align
  | bytes (data : List Byte)
  | int (value min max : Word)
  deriving DecidableEq, Repr

/-- The writer command of a field. -/
def Field.write : Field → Instr
  | .bits value len => .wBits value len
  | .align => .wAlign
  | .bytes data => .wBytes data
  | .int value min max => .wInt value min max

/-- The mirror reader command of a field. -/
def Field.read : Field → Instr
  | .bits _ len => .rBits len
  | .align => .rAlign
  | .bytes data => .rBytes (BitVec.ofNat 24 data.length)
  | .int _ min max => .rInt min max

/-- The data words the mirror command delivers for a field (42_bitreader.md R158). -/
def Field.readBack : Field → List Word
  | .bits value len => [(value.setWidth 64 &&& mask len.toNat).setWidth 32]
  | .align => []
  | .bytes data => packBytes data
  | .int value _ _ => [value]

end Sys2Proof.Machine
end

