-- ==== Sys2Proof/Certificates/Slice0/Obligations.lean ====
section
/-! DEFINITION. The statements for the provers, each a proposition about the model; OBLIGATIONS.json lists them with the
rules of spec/ they come from. -/

open Sys2Proof Sys2Proof.Machine

/-! ## Encoding -/

/-- Every well-formed command decodes from its own words, whatever words follow (30_encoding.md R95, R98). -/
def Obligations.DecodeEncodeRoundTrip : Prop :=
  ∀ (i : Instr) (rest : List Word), i.wellFormed = true → decode (encode i ++ rest) = .ok (i, rest)

/-- The worked encodings of 30_encoding.md R105, read and written. -/
def Obligations.WorkedEncodingsDecode : Prop :=
  ∀ p ∈ ([(.wBits 0x2B 6, [0x00000611, 0x0000002B]),
          (.rBits 32, [0x00002021]),
          (.wBytes [0x68, 0x65, 0x6C, 0x6C, 0x6F], [0x00000514, 0x6C6C6568, 0x0000006F]),
          (.wInt (-3) (-5) 10, [0x00000015, 0xFFFFFFFD, 0xFFFFFFFB, 0x0000000A]),
          (.wNew 0 16, [0x00000010, 0x00000000, 0x00000010]),
          (.wFlush, [0x00000012])] : List (Instr × List Word)),
    decode p.2 = .ok (p.1, []) ∧ encode p.1 = p.2

/-- The worked encodings of 30_encoding.md R105, from the assembly line to the words. -/
def Obligations.AssemblerWritesTheWorkedEncodings : Prop :=
  ∀ p ∈ ([("w.bits 0x2B, 6", [0x00000611, 0x0000002B]),
          ("r.bits 32", [0x00002021]),
          ("w.bytes 0x68, 0x65, 0x6C, 0x6C, 0x6F", [0x00000514, 0x6C6C6568, 0x0000006F]),
          ("w.int -3, -5, 10", [0x00000015, 0xFFFFFFFD, 0xFFFFFFFB, 0x0000000A]),
          ("w.new 0, 16", [0x00000010, 0x00000000, 0x00000010]),
          ("w.flush", [0x00000012])] : List (String × List Word)),
    ∃ i, assembleText p.1 = .ok ⟨[i], false⟩ ∧ encode i = p.2

/-- No header matches two rows of the opcode map (30_encoding.md R96). -/
def Obligations.OpcodeRowsDisjoint : Prop :=
  ∀ (h : Word) (p q : OpRow), p ∈ opRows → q ∈ opRows → p.selects h = true → q.selects h = true → p = q

/-- The illegal headers are those of 30_encoding.md R97: an unlisted `op`, or a listed one of a format other than `N`
and `NP` with a must-be-zero bit set; each is refused by the decoder, as one word. -/
def Obligations.IllegalHeadersAreThoseOfTheSpec : Prop :=
  ∀ (h : Word) (rest : List Word),
    let op := h.toNat % 256
    let illegal :=
      op ∉ [0x01, 0x02, 0x10, 0x11, 0x12, 0x13, 0x14, 0x15, 0x20, 0x21, 0x23, 0x24, 0x25] ∨
        (op ∈ [0x01, 0x02, 0x10, 0x12, 0x13, 0x15, 0x20, 0x23, 0x25] ∧ h.toNat / 2 ^ 8 ≠ 0) ∨
        (op ∈ [0x11, 0x21] ∧ h.toNat / 2 ^ 14 ≠ 0)
    (rowOf h = none ↔ illegal) ∧
      (illegal → decode (h :: rest) = .error .illegalCommand ∧ commandWords h = 1)

/-- The decoder is total: it answers a command and takes exactly the words the header tells (30_encoding.md R95, R98),
or the header is illegal (R97, R98). The third outcome, for words that end inside a command, is the model's choice
(log 5): R98 puts such words outside its model and gives the decoder no answer to them. -/
def Obligations.DecoderTakesTheHeadersLength : Prop :=
  ∀ (h : Word) (rest : List Word),
    (∃ i, decode (h :: rest) = .ok (i, rest.drop (commandWords h - 1)) ∧ i.wellFormed = true ∧
        commandWords h ≤ rest.length + 1 ∧ (encode i).length = commandWords h) ∨
      (decode (h :: rest) = .error .illegalCommand ∧ rowOf h = none) ∨
      (decode (h :: rest) = .error .incompleteCommand ∧ rest.length + 1 < commandWords h)

/-- The payload of `W_BYTES` is read little-endian, four bytes to a word, and the unused high bytes of its last word
are ignored (30_encoding.md R94): data byte `4j + k` is bits `[8k+7 : 8k]` of payload word `j`. -/
def Obligations.PayloadBytesAreLittleEndian : Prop :=
  ∀ (n : BitVec 24) (payload rest : List Word), payload.length = (n.toNat + 3) / 4 →
    ∃ data : List Byte, decode (countHeader 0x14 n :: payload ++ rest) = .ok (.wBytes data, rest) ∧
      data.length = n.toNat ∧
      ∀ i < n.toNat, data.getD i 0 = BitVec.ofNat 8 ((payload.getD (i / 4) 0).toNat / 2 ^ (8 * (i % 4)))

/-! ## The command port and the host -/

/-- When the words at the command port decode to a command, one step is `exec` of it with the words it takes dropped
(30_encoding.md R95), whatever a `W_BYTES` payload holds in its unused high bytes (R94). For a well-formed command
offered in the encoder's own words, exactly those words are dropped. That the host's moves are a list in State is the
model's choice (log 3). -/
def Obligations.StepRunsTheDecodedCommand : Prop :=
  (∀ (s : State) (i : Instr) (rest : List Word), decode (pendingWords s.inbox) = .ok (i, rest) →
      step s = exec i { s with inbox := s.inbox.drop ((pendingWords s.inbox).length - rest.length) }) ∧
    ∀ (s : State) (i : Instr) (more : List HostMove), i.wellFormed = true →
      s.inbox = wordMoves (encode i) ++ more → step s = exec i { s with inbox := more }

/-- A header that matches no row takes one word, is answered `IllegalCommand`, and changes nothing else, the fault
latch included (30_encoding.md R97, 60_exceptions.md R187). -/
def Obligations.IllegalHeaderChangesNothing : Prop :=
  ∀ (s : State) (h : Word) (more : List HostMove), rowOf h = none → s.inbox = .word h :: more →
    step s = .next { s with inbox := more, response := some ⟨.illegalCommand, []⟩ }

/-- The host's stores fall between commands and reach exactly their bytes (20_memory.md R75, R61). -/
def Obligations.HostStoresReachTheirBytes : Prop :=
  ∀ (s : State) (more : List HostMove),
    (∀ (a : Nat) (b : Byte), s.inbox = .storeByte a b :: more → a < 4 * s.memWords →
        ∃ t, step s = .next t ∧ t = { s with inbox := more, mem := t.mem } ∧
          ∀ c, t.byteAt c = if c = a then b else s.byteAt c) ∧
      (∀ (i : Nat) (v : Word), s.inbox = .storeWord i v :: more → i < s.memWords →
        ∃ t, step s = .next t ∧ t = { s with inbox := more, mem := t.mem } ∧
          ∀ c, t.byteAt c =
            if 4 * i ≤ c ∧ c < 4 * i + 4 then BitVec.ofNat 8 (v.toNat / 2 ^ (8 * (c - 4 * i))) else s.byteAt c)

/-- The model's choices about the host's errors (log 5, log 7): a command stream that ends inside a command, and a
store outside `MEM`, are refused by name. An idle block keeps all state (60_exceptions.md R194). -/
def Obligations.HostErrorsAreRefusedByName : Prop :=
  ∀ (s : State),
    (s.inbox = [] → step s = .next s) ∧
      (∀ (i : Instr) (k : Nat), i.wellFormed = true → 0 < k → k < (encode i).length →
        s.inbox = wordMoves ((encode i).take k) → step s = .refused .incompleteCommand) ∧
      (∀ (a : Nat) (b : Byte) (more : List HostMove), s.inbox = .storeByte a b :: more → 4 * s.memWords ≤ a →
        step s = .refused .hostStoreOutsideMem) ∧
      ∀ (i : Nat) (v : Word) (more : List HostMove), s.inbox = .storeWord i v :: more → s.memWords ≤ i →
        step s = .refused .hostStoreOutsideMem

/-- The reset event clears every register of both units, leaves `MEM` alone, and leaves a block that refuses every
command but `W_NEW`, `R_NEW`, `C_POPCNT` and `C_BITSREQ` with `NotBound` (70_reset_and_hazards.md R210, 10_state.md R45).
That the response of the last command stays readable is the model's choice (log 4). -/
def Obligations.ResetUnbindsBothUnits : Prop :=
  ∀ (s : State) (more : List HostMove), s.inbox = .reset :: more →
    ∃ t, step s = .next t ∧ t = { s with w := t.w, r := t.r, inbox := more } ∧
      (t.w.scratch = 0 ∧ t.w.scratchBits = 0 ∧ t.w.wordIndex = 0 ∧ t.w.bitsWritten = 0 ∧ t.w.base = 0 ∧
        t.w.numWords = 0 ∧ t.w.numBits = 0 ∧ t.w.bound = false ∧ t.w.fault = 0) ∧
      (t.r.scratch = 0 ∧ t.r.scratchBits = 0 ∧ t.r.wordIndex = 0 ∧ t.r.bitsRead = 0 ∧ t.r.base = 0 ∧
        t.r.numWords = 0 ∧ t.r.numBits = 0 ∧ t.r.bound = false) ∧
      ∀ i : Instr, i.isWriterCommand = true ∨ i.isReaderCommand = true →
        exec i t = .next { t with response := some ⟨.notBound, []⟩ }

/-- The state after power-up and reset: every register 0, both units unbound (10_state.md R45). That `MEM` then lists
nothing is the model's form of "holds an unspecified value" (20_memory.md R76, log 2). -/
def Obligations.ResetStateIsAllZero : Prop :=
  State.reset.w = ⟨0, 0, 0, 0, 0, 0, 0, false, 0⟩ ∧ State.reset.r = ⟨0, 0, 0, 0, 0, 0, 0, false⟩ ∧
    State.reset.mem = []

/-- The status codes of 60_exceptions.md R181 in the status word of 30_encoding.md R100: bits `[3:0]` hold the code,
the bits above are 0, no two statuses share a code, and the codes 13 to 15 are never produced. -/
def Obligations.StatusWordsCarryTheCodes : Prop :=
  [Status.ok, .invalidCapacity, .capacityExceeded, .overflow, .paddingNonZero, .misaligned, .bitsRange, .rangeContract,
      .bufferBounds, .notBound, .faulted, .illegalCommand, .desync].map (fun st => st.word.toNat) = List.range 13 ∧
    ∀ (st : Status) (data : List Word), (Response.mk st data).words = st.word :: data ∧ st.word.toNat ≤ 12

/-! ## Unit C -/

/-- `popcount` is the number of one bits, 0 to 32 (40_bitmath.md R120). -/
def Obligations.PopcountCountsTheOnes : Prop :=
  ∀ x : Word, popcount x = (Finset.univ.filter fun i : Fin 32 => x.getLsbD i = true).card ∧ popcount x ≤ 32

/-- The SWAR recipe computes `popcount` (40_bitmath.md R126). -/
def Obligations.SwarRecipeComputesPopcount : Prop := ∀ x : Word, (popcountSwar x).toNat = popcount x

/-- `smear` of a non-zero word with highest set bit `k` is `2^(k+1) - 1`; `smear(0) = 0` (40_bitmath.md R121). -/
def Obligations.SmearFillsBelowTheHighestBit : Prop :=
  smear 0 = 0 ∧
    ∀ (x : Word) (k : Nat), x.getLsbD k = true → (∀ j, k < j → x.getLsbD j = false) →
      (smear x).toNat = 2 ^ (k + 1) - 1

/-- `bitlen(0) = 0`, `bitlen(d) = floor(log2(d)) + 1` for `d >= 1`, and the recipe computes `floor(log2(d))`
(40_bitmath.md R122). -/
def Obligations.BitlenIsTheBinaryLength : Prop :=
  bitlen 0 = 0 ∧ popcount (smear 0 >>> 1) + 1 = 1 ∧
    ∀ d : Word, d ≠ 0 → bitlen d = Nat.log 2 d.toNat + 1 ∧ popcount (smear d >>> 1) = Nat.log 2 d.toNat

/-- `bits_required` is `⌈log2(M - m + 1)⌉`, at most 32, and 32 exactly when `M - m >= 2^31` (40_bitmath.md R125). -/
def Obligations.BitsRequiredIsTheCeilingLog : Prop :=
  ∀ min max : Word, s32 min ≤ s32 max →
    let d := (s32 max - s32 min).toNat
    bitsRequired min max = Nat.clog 2 (d + 1) ∧
      bitsRequired min max = (if d = 0 then 0 else Nat.log 2 d + 1) ∧
      bitsRequired min max ≤ 32 ∧ (bitsRequired min max = 32 ↔ 2 ^ 31 ≤ d)

/-- `C_POPCNT` answers the number of one bits and changes nothing else (40_bitmath.md R123). -/
def Obligations.PopcntCommandAnswersTheCount : Prop :=
  ∀ (x : Word) (s : State),
    exec (.cPopcnt x) s =
      .next { s with
        response := some ⟨.ok, [BitVec.ofNat 32 (Finset.univ.filter fun i : Fin 32 => x.getLsbD i = true).card]⟩ }

/-- `C_BITSREQ` answers `⌈log2(M - m + 1)⌉` when `m <= M`, else `RangeContract`; nothing else changes (40_bitmath.md
R124, R125; 60_exceptions.md R186). -/
def Obligations.BitsreqCommandAnswersTheCeilingLog : Prop :=
  ∀ (min max : Word) (s : State),
    (s32 min ≤ s32 max →
        exec (.cBitsreq min max) s =
          .next { s with
            response := some ⟨.ok, [BitVec.ofNat 32 (Nat.clog 2 ((s32 max - s32 min).toNat + 1))]⟩ }) ∧
      (s32 max < s32 min →
        exec (.cBitsreq min max) s = .next { s with response := some ⟨.rangeContract, []⟩ })

/-- Unit C has no state: its response depends on the operands alone, and no register and no byte of `MEM` changes
(10_state.md R38). -/
def Obligations.CalculatorHasNoState : Prop :=
  ∀ (s s' : State) (x min max : Word),
    ∀ i ∈ [Instr.cPopcnt x, Instr.cBitsreq min max],
      ∃ p : Response, exec i s = .next { s with response := some p } ∧ exec i s' = .next { s' with response := some p }

/-! ## Unit W -/

/-- `W_NEW` with a whole number of words inside `MEM` binds the writer: capacity as given, cursor 0, latch clear,
`MEM` and the reader untouched (41_bitwriter.md R131). -/
def Obligations.WNewBindsAFreshWriter : Prop :=
  ∀ (base cap : Word) (s : State), s.memWords ≤ Config.maxMemWords → cap.toNat % 4 = 0 →
    base.toNat + cap.toNat / 4 ≤ s.memWords →
    ∃ t, exec (.wNew base cap) s = .next t ∧
      t = { s with w := t.w, response := some ⟨.ok, []⟩ } ∧
      t.w.base = base ∧ t.w.numWords.toNat = cap.toNat / 4 ∧ t.w.numBits.toNat = 32 * (cap.toNat / 4) ∧
      t.w.scratch = 0 ∧ t.w.scratchBits = 0 ∧ t.w.wordIndex = 0 ∧ t.w.bitsWritten = 0 ∧
      t.w.fault = 0 ∧ t.w.bound = true

/-- `W_NEW` and `R_NEW` fail with `InvalidCapacity` on a capacity that is no whole number of words, else with
`BufferBounds` on a buffer not inside `MEM`; a failing one changes nothing and latches nothing (41_bitwriter.md R131,
42_bitreader.md R151, 60_exceptions.md R184, R188). -/
def Obligations.NewFailuresChangeNothing : Prop :=
  ∀ (base cap : Word) (s : State), ∀ i ∈ [Instr.wNew base cap, Instr.rNew base cap],
    (cap.toNat % 4 ≠ 0 → exec i s = .next { s with response := some ⟨.invalidCapacity, []⟩ }) ∧
      (cap.toNat % 4 = 0 → s.memWords < base.toNat + cap.toNat / 4 →
        exec i s = .next { s with response := some ⟨.bufferBounds, []⟩ })

/-- `W_BITS` on an open writer appends the low `len` bits of `value` when they fit, `len` from 0 to 32 (41_bitwriter.md
R132, R134); with the frame `Appended` states. -/
def Obligations.WBitsAppendsItsField : Prop :=
  ∀ (value : Word) (len : BitVec 6) (s : State), s.Inv → s.w.Open → len.toNat ≤ 32 →
    s.w.bitsWritten.toNat + len.toNat ≤ s.w.numBits.toNat →
    ∃ t, exec (.wBits value len) s = .next t ∧ t.Answered .ok [] ∧ Appended s t value.toNat len.toNat

/-- `W_FLUSH` with staged bits stores them as one word with zeros above, and clears the scratch; with none it does
nothing, so a second flush does nothing (41_bitwriter.md R133, 20_memory.md R77). -/
def Obligations.WFlushStoresThePartialWord : Prop :=
  ∀ s : State, s.Inv → s.w.bound = true → s.w.fault = 0 →
    (s.w.scratchBits = 0 → exec .wFlush s = .next { s with response := some ⟨.ok, []⟩ }) ∧
      (s.w.scratchBits ≠ 0 →
        ∃ t, exec .wFlush s = .next t ∧
          t = { s with
            w := s.w.withCursor 0 0 (s.w.wordIndex.toNat + 1) s.w.bitsWritten.toNat
            mem := t.mem
            response := some ⟨.ok, []⟩ } ∧
          (∀ a, t.byteAt a =
            if 4 * s.w.slot ≤ a ∧ a < 4 * s.w.slot + 4 then
              BitVec.ofNat 8 (s.w.scratch.toNat / 2 ^ (8 * (a - 4 * s.w.slot)))
            else s.byteAt a) ∧
          exec .wFlush t = .next t)

/-- `W_ALIGN` on an open writer appends the 0 to 7 zero bits to the next byte boundary (41_bitwriter.md R135). -/
def Obligations.WAlignAppendsZeroPadding : Prop :=
  ∀ s : State, s.Inv → s.w.Open →
    ∃ t, exec .wAlign s = .next t ∧ t.Answered .ok [] ∧
      Appended s t 0 ((8 - s.w.bitsWritten.toNat % 8) % 8) ∧ t.w.bitsWritten.toNat % 8 = 0

/-- `W_BYTES` on an open, byte-aligned writer appends the whole byte string, the first byte lowest, when it fits: all
three phases together (41_bitwriter.md R136). -/
def Obligations.WBytesAppendsTheByteString : Prop :=
  ∀ (data : List Byte) (s : State), s.Inv → s.w.Open → s.w.bitsWritten.toNat % 8 = 0 →
    s.w.bitsWritten.toNat + 8 * data.length ≤ s.w.numBits.toNat →
    ∃ t, exec (.wBytes data) s = .next t ∧ t.Answered .ok [] ∧ Appended s t (leNat data) (8 * data.length)

/-- `W_INT` on an open writer appends `value - min` in `bits_required(min, max)` bits when the contract holds and they
fit (43_stream_integer.md R171). -/
def Obligations.WIntAppendsTheOffset : Prop :=
  ∀ (value min max : Word) (s : State), s.Inv → s.w.Open → s32 min < s32 max → s32 min ≤ s32 value →
    s32 value ≤ s32 max →
    s.w.bitsWritten.toNat + Nat.clog 2 ((s32 max - s32 min).toNat + 1) ≤ s.w.numBits.toNat →
    ∃ t, exec (.wInt value min max) s = .next t ∧ t.Answered .ok [] ∧
      Appended s t (s32 value - s32 min).toNat (Nat.clog 2 ((s32 max - s32 min).toNat + 1))

/-- A writer command other than `W_NEW` that answers a fatal status stores its code in `W.fault` and changes nothing
else; one that answers `NotBound` or `Faulted` changes nothing at all; and while the latch is set every such command
answers `Faulted`, so the latch keeps the first cause (60_exceptions.md R184). -/
def Obligations.WriterFailuresAreLatched : Prop :=
  ∀ (i : Instr) (s : State), i.isWriterCommand = true →
    (∀ (t : State) (st : Status) (data : List Word), exec i s = .next t → t.Answered st data → st ≠ .ok →
        data = [] ∧
          (st ∈ [Status.capacityExceeded, .misaligned, .bitsRange, .rangeContract, .bufferBounds, .desync] ∧
              t = { s with w := s.w.withFault st.code, response := some ⟨st, []⟩ } ∨
            st ∈ [Status.notBound, .faulted] ∧ t = { s with response := some ⟨st, []⟩ })) ∧
      (s.w.bound = true → s.w.fault ≠ 0 → exec i s = .next { s with response := some ⟨.faulted, []⟩ })

/-- While a unit is unbound, every command of it but its `NEW` answers `NotBound` and changes nothing (10_state.md R26,
R35; 60_exceptions.md R187). -/
def Obligations.UnboundUnitsRefuse : Prop :=
  ∀ (i : Instr) (s : State),
    (i.isWriterCommand = true ∧ s.w.bound = false ∨ i.isReaderCommand = true ∧ s.r.bound = false) →
      exec i s = .next { s with response := some ⟨.notBound, []⟩ }

/-- A `W_FLUSH` that stores a partial word ends the session: the padding is not counted, the next word slot no longer
corresponds to the bit count, and every command that accepts bits is then refused with the fatal status `Desync`. A `W_FLUSH` at a word boundary stores nothing and ends nothing (70_reset_and_hazards.md R215). -/
def Obligations.PartialFlushEndsTheSession : Prop :=
  ∀ (s t : State), s.Inv → s.w.bound = true → s.w.fault = 0 → exec .wFlush s = .next t →
    (s.w.scratchBits ≠ 0 →
        t.w.bitsWritten = s.w.bitsWritten ∧
          32 * t.w.wordIndex.toNat + t.w.scratchBits.toNat ≠ t.w.bitsWritten.toNat ∧
          ∀ i : Instr, i.acceptsBits = true →
            exec i t = .next { t with w := t.w.withFault 12, response := some ⟨.desync, []⟩ }) ∧
      (s.w.bitsWritten.toNat % 32 = 0 → t.w = s.w ∧ t.mem = s.mem)

/-- The pseudo-instruction `ws.bytes` is `W_ALIGN` then `W_BYTES`, and it fails as a whole: after a `W_ALIGN` that does
not complete `OK`, the `W_BYTES` writes nothing and changes nothing; after one that does, it is byte-aligned
(30_encoding.md R107). -/
def Obligations.AlignedByteWriteFailsAsAWhole : Prop :=
  ∀ (data : List Byte) (s t : State) (st : Status), exec .wAlign s = .next t → t.Answered st [] →
    (Pseudo.wsBytes data).expand = [.wAlign, .wBytes data] ∧
      (st ≠ .ok →
        t.mem = s.mem ∧
          ∃ st' ∈ [Status.notBound, .faulted], exec (.wBytes data) t = .next { t with response := some ⟨st', []⟩ }) ∧
      (st = .ok → s.Inv → t.w.bitsWritten.toNat % 8 = 0)

/-- The write side leaves the faulted condition only by a `W_NEW` that completes `OK` or by reset (60_exceptions.md
R191), and the same two events are all that binds or unbinds the writer (10_state.md R26). -/
def Obligations.OnlyNewAndResetClearTheLatch : Prop :=
  ∀ s t : State, step s = .next t →
    (s.w.fault ≠ 0 → t.w.fault ≠ s.w.fault →
        (∃ base cap n, offer s.inbox = .command (.wNew base cap) n ∧ t.status = some .ok) ∨
          offer s.inbox = .reset) ∧
      (t.w.bound ≠ s.w.bound →
        (∃ base cap n, offer s.inbox = .command (.wNew base cap) n ∧ t.status = some .ok) ∨
          offer s.inbox = .reset)

/-- `W_BYTES` equals byte-wise `W_BITS`: if it completes `OK`, so does the sequence of eight-bit writes, and both end
with the same registers and the same `MEM`. The two differ only in failure: when the string does not fit, the byte-wise
sequence fails at the first byte that does not, the earlier ones written; `W_BYTES` writes nothing (41_bitwriter.md
R137). -/
def Obligations.WBytesEqualsBytewiseWBits : Prop :=
  ∀ (data : List Byte) (s : State), s.Inv →
    let bytewise := trace (data.map fun b => .wBits (b.setWidth 32) 8) s
    (∀ t, exec (.wBytes data) s = .next t → t.Answered .ok [] →
        ∃ ts, bytewise = some ts ∧ (∀ u ∈ ts, u.Answered .ok []) ∧
          (ts.getLastD s).w = t.w ∧ (ts.getLastD s).r = t.r ∧ (ts.getLastD s).mem = t.mem) ∧
      (s.w.Open → s.w.bitsWritten.toNat % 8 = 0 →
        s.w.numBits.toNat < s.w.bitsWritten.toNat + 8 * data.length →
        exec (.wBytes data) s =
            .next { s with w := s.w.withFault 2, response := some ⟨.capacityExceeded, []⟩ } ∧
          ∃ ts, bytewise = some ts ∧
            let fitting := (s.w.numBits.toNat - s.w.bitsWritten.toNat) / 8
            ts.map State.status =
              List.replicate fitting (some .ok) ++ some .capacityExceeded ::
                List.replicate (data.length - fitting - 1) (some .faulted))

/-- A sequence of writes fails at the field that would overflow, not before, with `CapacityExceeded`, and every writer
command after it answers `Faulted` (41_bitwriter.md R139 (2)). -/
def Obligations.OverflowFailsAtItsOwnField : Prop :=
  ∀ (s : State) (base cap : Word) (fields : List (Word × BitVec 6)) (value : Word) (len : BitVec 6)
    (after : List Instr),
    s.Inv → s.w = Writer.fresh base cap → (∀ f ∈ fields, f.2.toNat ≤ 32) → len.toNat ≤ 32 →
    (fields.map fun f => f.2.toNat).sum ≤ s.w.numBits.toNat →
    s.w.numBits.toNat < (fields.map fun f => f.2.toNat).sum + len.toNat →
    (∀ i ∈ after, i.isWriterCommand = true) →
    ∃ ts, trace ((fields.map fun f => .wBits f.1 f.2) ++ .wBits value len :: after) s = some ts ∧
      ts.map State.status =
        List.replicate fields.length (some .ok) ++ some .capacityExceeded ::
          List.replicate after.length (some .faulted)

/-- A `W_BITS` that completes `OK` supplies the next `len` stream bits, bit `j` of the value being stream bit `p + j`,
and leaves every earlier stream bit (20_memory.md R62, R63). -/
def Obligations.WBitsExtendsTheStream : Prop :=
  ∀ (value : Word) (len : BitVec 6) (s t : State), s.Inv → exec (.wBits value len) s = .next t → t.Answered .ok [] →
    (∀ n < s.w.bitsWritten.toNat, t.writtenBit n = s.writtenBit n) ∧
      ∀ j < len.toNat, t.writtenBit (s.w.bitsWritten.toNat + j) = value.getLsbD j

/-- No writer command but `W_NEW` changes a stream bit once it has been accepted: the writer stores each word once and
never touches it again (20_memory.md R77). -/
def Obligations.AcceptedBitsNeverChange : Prop :=
  ∀ (i : Instr) (s t : State), s.Inv → i.isWriterCommand = true → exec i s = .next t →
    s.w.bitsWritten.toNat ≤ t.w.bitsWritten.toNat ∧
      ∀ n < s.w.bitsWritten.toNat, t.writtenBit n = s.writtenBit n

/-- After a `W_FLUSH` of a writer in sync, `MEM` holds every accepted bit, and the bits above them in the last word are
0 (20_memory.md R71, R79). -/
def Obligations.FlushPutsEveryAcceptedBitInMem : Prop :=
  ∀ s t : State, s.Inv → s.w.Open → exec .wFlush s = .next t → t.Answered .ok [] →
    (∀ n < s.w.bitsWritten.toNat, t.mem.streamBit s.w.base.toNat n = s.writtenBit n) ∧
      (∀ n, s.w.bitsWritten.toNat ≤ n → n < 32 * ((s.w.bitsWritten.toNat + 31) / 32) →
        t.mem.streamBit s.w.base.toNat n = false) ∧
      t.w.wordIndex.toNat = (s.w.bitsWritten.toNat + 31) / 32

/-! ## Unit R -/

/-- `R_NEW` with a whole number of words inside `MEM` binds the reader: capacity as given, cursor 0, `MEM` and the
writer untouched (42_bitreader.md R151). -/
def Obligations.RNewBindsAFreshReader : Prop :=
  ∀ (base cap : Word) (s : State), s.memWords ≤ Config.maxMemWords → cap.toNat % 4 = 0 →
    base.toNat + cap.toNat / 4 ≤ s.memWords →
    ∃ t, exec (.rNew base cap) s = .next t ∧
      t = { s with r := t.r, response := some ⟨.ok, []⟩ } ∧
      t.r.base = base ∧ t.r.numWords.toNat = cap.toNat / 4 ∧ t.r.numBits.toNat = 32 * (cap.toNat / 4) ∧
      t.r.scratch = 0 ∧ t.r.scratchBits = 0 ∧ t.r.wordIndex = 0 ∧ t.r.bitsRead = 0 ∧ t.r.bound = true

/-- `R_BITS` on a bound reader delivers the next `len` bits when the buffer has them, `len` from 0 to 32
(42_bitreader.md R152, R153); with the frame `Delivered` states. -/
def Obligations.RBitsDeliversItsField : Prop :=
  ∀ (len : BitVec 6) (s : State), s.Inv → s.r.bound = true → len.toNat ≤ 32 →
    s.r.bitsRead.toNat + len.toNat ≤ s.r.numBits.toNat →
    ∃ t, exec (.rBits len) s = .next t ∧ Delivered s t len.toNat ∧
      t.Answered .ok [BitVec.ofNat 32 (s.readable len.toNat % 2 ^ len.toNat)]

/-- `R_ALIGN` on a bound reader consumes the padding to the next byte boundary, fetching nothing, and answers `OK` when
the padding is all zero, else `PaddingNonZero`, the cursor advanced either way (42_bitreader.md R154, 60_exceptions.md
R190). -/
def Obligations.RAlignConsumesThePadding : Prop :=
  ∀ s : State, s.Inv → s.r.bound = true →
    let pad := (8 - s.r.bitsRead.toNat % 8) % 8
    ∃ t, exec .rAlign s = .next t ∧ Delivered s t pad ∧ t.r.wordIndex = s.r.wordIndex ∧
      t.r.bitsRead.toNat % 8 = 0 ∧
      t.Answered (if s.r.scratch.toNat % 2 ^ pad = 0 then .ok else .paddingNonZero) []

/-- `R_BYTES` on a bound, byte-aligned reader delivers the next `n` bytes when the buffer has them, packed four to a
word (42_bitreader.md R155, 30_encoding.md R100). -/
def Obligations.RBytesDeliversTheByteString : Prop :=
  ∀ (n : BitVec 24) (s : State), s.Inv → s.r.bound = true → s.r.bitsRead.toNat % 8 = 0 →
    s.r.bitsRead.toNat + 8 * n.toNat ≤ s.r.numBits.toNat →
    ∃ t data, exec (.rBytes n) s = .next t ∧ Delivered s t (8 * n.toNat) ∧ t.Answered .ok (packBytes data) ∧
      data.length = n.toNat ∧ leNat data = s.readable (8 * n.toNat) % 2 ^ (8 * n.toNat)

/-- `R_INT` on a bound reader delivers the next `bits_required(min, max)` bits plus `min`, modulo `2^32`, without a
test against `max` (43_stream_integer.md R172). -/
def Obligations.RIntDeliversTheOffsetPlusMin : Prop :=
  ∀ (min max : Word) (s : State), s.Inv → s.r.bound = true → s32 min < s32 max →
    let len := Nat.clog 2 ((s32 max - s32 min).toNat + 1)
    s.r.bitsRead.toNat + len ≤ s.r.numBits.toNat →
    ∃ t, exec (.rInt min max) s = .next t ∧ Delivered s t len ∧
      t.Answered .ok [BitVec.ofNat 32 (s.readable len % 2 ^ len + min.toNat)]

/-- A reader command that answers neither `OK` nor `PaddingNonZero` changes nothing anywhere and returns no data word;
nothing is latched (60_exceptions.md R185). -/
def Obligations.ReaderFailuresChangeNothing : Prop :=
  ∀ (i : Instr) (s t : State) (st : Status) (data : List Word),
    i.isReaderCommand = true ∨ (∃ base cap, i = .rNew base cap) → exec i s = .next t → t.Answered st data →
    st ≠ .ok → st ≠ .paddingNonZero →
    st ∈ [Status.overflow, .misaligned, .bitsRange, .rangeContract, .bufferBounds, .notBound, .invalidCapacity] ∧
      t = { s with response := some ⟨st, []⟩ }

/-- A reader whose fetched words are still those of `MEM` delivers the next stream bits of its buffer in order, and
stays so (20_memory.md R62, 42_bitreader.md R152). -/
def Obligations.RBitsDeliversTheStream : Prop :=
  ∀ (len : BitVec 6) (s t : State) (out : Word), s.Inv → s.readerFresh → exec (.rBits len) s = .next t →
    t.Answered .ok [out] →
    t.readerFresh ∧
      ∀ j, out.getLsbD j = (decide (j < len.toNat) && s.mem.streamBit s.r.base.toNat (s.r.bitsRead.toNat + j))

/-- A store to `MEM` after a refill does not change what the reader delivers from its staged bits (20_memory.md R72,
10_state.md R44). -/
def Obligations.StagedBitsIgnoreLaterStores : Prop :=
  ∀ (len : BitVec 6) (m : Memory) (s t : State), len.toNat ≤ s.r.scratchBits.toNat →
    exec (.rBits len) s = .next t → exec (.rBits len) { s with mem := m } = .next { t with mem := m }

/-- A bulk load of one word is unobservable: four byte extractions with nothing staged fetch exactly the next word and
deliver its four bytes in order (42_bitreader.md R156). -/
def Obligations.FourByteReadsEqualOneWordLoad : Prop :=
  ∀ s : State, s.r.scratch = 0 → s.r.scratchBits = 0 → s.r.slot < s.memWords →
    s.rbytes 4 =
      some (s.bytesFrom (4 * s.r.slot) 4,
        { s with r := s.r.withCursor 0 0 (s.r.wordIndex.toNat + 1) (s.r.bitsRead.toNat + 32) })

/-! ## Range-encoded integers and round trips -/

/-- The range encoding: the length is 1 to 32, the field value is `x - m`, it fits the length, and adding `min` gives
the value back (43_stream_integer.md R170). -/
def Obligations.RangeEncodingRoundTrips : Prop :=
  ∀ value min max : Word, s32 min < s32 max → s32 min ≤ s32 value → s32 value ≤ s32 max →
    1 ≤ bitsRequired min max ∧ bitsRequired min max ≤ 32 ∧
      ((rangeEncode value min).toNat : Int) = s32 value - s32 min ∧
      (rangeEncode value min).toNat < 2 ^ bitsRequired min max ∧
      rangeDecode (rangeEncode value min) min = value

/-- What `W_INT` writes at stream position `p`, `R_INT` with the same range reads back at `p` after the flush, using
exactly `bits_required(min, max)` bits (43_stream_integer.md R173). -/
def Obligations.RangeIntegerRoundTrips : Prop :=
  ∀ (value min max : Word) (s t u : State) (q : Reader), s.Inv →
    exec (.wInt value min max) s = .next t → t.Answered .ok [] → exec .wFlush t = .next u → u.Answered .ok [] →
    q.bound = true → q.Inv u.memWords → q.base = s.w.base → q.numWords = s.w.numWords →
    q.bitsRead = s.w.bitsWritten → State.readerFresh { u with r := q } →
    t.w.bitsWritten.toNat = s.w.bitsWritten.toNat + bitsRequired min max ∧
      ∃ z, exec (.rInt min max) { u with r := q } = .next z ∧ z.Answered .ok [value] ∧
        z.r.bitsRead = t.w.bitsWritten

/-- The round trip of a session: a write session that completes `OK` throughout, then the mirror reads over the same
buffer, complete `OK` and deliver the fields, the reader standing after each command where the writer stood
(42_bitreader.md R158). -/
def Obligations.SessionRoundTrips : Prop :=
  ∀ (base cap : Word) (fields : List Field) (s : State) (ws : List State),
    s.memWords ≤ Config.maxMemWords → (∀ f ∈ fields, f.write.wellFormed = true) →
    trace (.wNew base cap :: (fields.map Field.write ++ [.wFlush])) s = some ws → (∀ t ∈ ws, t.Answered .ok []) →
    ∃ rs, trace (.rNew base cap :: fields.map Field.read) (ws.getLastD s) = some rs ∧
      rs.map State.response = some ⟨.ok, []⟩ :: fields.map (fun f => some ⟨.ok, f.readBack⟩) ∧
      rs.map (fun t => t.r.bitsRead) = (ws.take (fields.length + 1)).map (fun t => t.w.bitsWritten)

/-! ## The whole machine -/

/-- Units W and R share nothing but `MEM`: no writer command reads or writes a reader register; no reader command reads
or writes a writer register (10_state.md R47), and none writes `MEM` (20_memory.md R64: its only accesses are loads). -/
def Obligations.UnitsShareOnlyMem : Prop :=
  ∀ (i : Instr) (s : State),
    (i.isWriterCommand = true ∨ (∃ base cap, i = .wNew base cap) →
        (∀ t, exec i s = .next t → t.r = s.r) ∧
          ∀ q t, exec i s = .next t → exec i { s with r := q } = .next { t with r := q }) ∧
      (i.isReaderCommand = true ∨ (∃ base cap, i = .rNew base cap) →
        (∀ t, exec i s = .next t → t.w = s.w ∧ t.mem = s.mem) ∧
          ∀ q t, exec i s = .next t → exec i { s with w := q } = .next { t with w := q })

/-- The machine right after reset meets the invariant. -/
def Obligations.ResetMeetsTheInvariant : Prop := State.reset.Inv

/-- Every step keeps the invariant: the writer's and the reader's cursor invariants, the legal values of the latch,
the canonical form of `MEM` (10_state.md R28, R29, R36, R37, R42; 41_bitwriter.md R138, 42_bitreader.md R157). -/
def Obligations.EveryStepKeepsTheInvariant : Prop := ∀ s t : State, s.Inv → step s = .next t → t.Inv

/-- Every command on a state that meets the invariant completes, with the status that the priority list gives when the
tests no reachable state can fail are left out: no fault, no refusal, no `BufferBounds` but from `W_NEW` and `R_NEW`
(00_scope.md R12; 60_exceptions.md R182, R188; 41_bitwriter.md R138; 42_bitreader.md R157). -/
def Obligations.EveryCommandCompletesWithItsStatus : Prop :=
  ∀ (i : Instr) (s : State), s.Inv → ∃ t, exec i s = .next t ∧ t.status = some (commandStatus i s)

/-- On a state that meets the invariant a command answers only the statuses its row of the matrix allows
(60_exceptions.md R182). -/
def Obligations.StatusMatrixHolds : Prop :=
  ∀ (i : Instr) (s t : State), s.Inv → exec i s = .next t → ∃ st ∈ i.mayAnswer, t.status = some st

/-- Every command produces exactly one response; data words follow only an `OK`, as many as the command's row says
(30_encoding.md R100). -/
def Obligations.ResponsesHaveTheirShape : Prop :=
  ∀ (i : Instr) (s t : State), exec i s = .next t →
    ∃ st data, t.Answered st data ∧ data.length = if st = .ok then i.dataWords else 0
end

