-- ==== Sys2Proof/Laws/Memory.lean ====
section
/-! SUPPORT. Memory: every operation keeps the canonical form; a byte reads as what was last written to it
(20_memory.md R61, R70). -/

namespace Sys2Proof.Machine

/-! ## The canonical form is kept -/

theorem Memory.writeByte_mem {m : Memory} {a : Nat} {v : Byte} {p : Host.Cell} (h : p ∈ m.writeByte a v) :
    p = (a, v) ∨ p ∈ m := by
  induction m with
  | nil => simp_all [Memory.writeByte]
  | cons q rest ih =>
    obtain ⟨k, b⟩ := q
    simp only [Memory.writeByte] at h
    split at h
    · simpa using h
    · split at h
      · simp only [List.mem_cons] at h ⊢
        tauto
      · simp only [List.mem_cons] at h ⊢
        rcases h with h | h
        · exact .inr (.inl h)
        · rcases ih h with h | h
          · exact .inl h
          · exact .inr (.inr h)

theorem Memory.wf_writeByte {m : Memory} (h : m.wf) (a : Nat) (v : Byte) : (m.writeByte a v).wf := by
  induction m with
  | nil => simp [Memory.writeByte, Memory.wf]
  | cons q rest ih =>
    obtain ⟨k, b⟩ := q
    obtain ⟨hk, hrest⟩ := List.pairwise_cons.mp h
    simp only [Memory.writeByte]
    split
    · rename_i hlt
      refine List.pairwise_cons.mpr ⟨fun p hp => ?_, h⟩
      rcases List.mem_cons.mp hp with rfl | hp
      · exact hlt
      · exact lt_trans hlt (hk p hp)
    · split
      · rename_i heq
        exact List.pairwise_cons.mpr ⟨fun p hp => heq ▸ hk p hp, hrest⟩
      · rename_i hge hne
        refine List.pairwise_cons.mpr ⟨fun p hp => ?_, ih hrest⟩
        rcases Memory.writeByte_mem hp with rfl | hp
        · show k < a
          omega
        · exact hk p hp

theorem Memory.wf_writeWord {m : Memory} (h : m.wf) (i : Nat) (v : Word) : (m.writeWord i v).wf :=
  Memory.wf_writeByte (Memory.wf_writeByte (Memory.wf_writeByte (Memory.wf_writeByte h _ _) _ _) _ _) _ _

/-- The addresses of a memory after a word store. -/
theorem Memory.writeWord_addr {m : Memory} {i : Nat} {v : Word} {p : Host.Cell} (h : p ∈ m.writeWord i v) :
    (4 * i ≤ p.1 ∧ p.1 < 4 * i + 4) ∨ p ∈ m := by
  rcases Memory.writeByte_mem h with rfl | h
  · left; constructor <;> simp
  rcases Memory.writeByte_mem h with rfl | h
  · left; constructor <;> simp
  rcases Memory.writeByte_mem h with rfl | h
  · left; constructor <;> simp
  rcases Memory.writeByte_mem h with rfl | h
  · left; constructor <;> simp
  exact .inr h

/-! ## Reads after writes -/

theorem Memory.readByte_writeByte (m : Memory) (a : Nat) (v : Byte) (c : Nat) :
    (m.writeByte a v).readByte c = if c = a then some v else m.readByte c := by
  induction m with
  | nil => simp [Memory.writeByte, Memory.readByte]
  | cons q rest ih =>
    obtain ⟨k, b⟩ := q
    simp only [Memory.writeByte]
    split
    · simp [Memory.readByte]
    · split
      · rename_i h
        subst h
        simp only [Memory.readByte]
        split <;> rfl
      · simp only [Memory.readByte, ih]
        split
        · rename_i h1 h2 h3
          rw [if_neg (by omega)]
        · rfl

@[simp] theorem Memory.byteAt_writeByte (m : Memory) (a : Nat) (v : Byte) (c : Nat) :
    (m.writeByte a v).byteAt c = if c = a then v else m.byteAt c := by
  simp only [Memory.byteAt, Memory.readByte_writeByte]
  split <;> rfl

/-- A word store: its four bytes take the word's bytes, every other byte is as before (20_memory.md R61). -/
theorem Memory.byteAt_writeWord (m : Memory) (i : Nat) (v : Word) (c : Nat) :
    (m.writeWord i v).byteAt c =
      if 4 * i ≤ c ∧ c < 4 * i + 4 then byteOfWord v (c - 4 * i) else m.byteAt c := by
  simp only [Memory.writeWord, Memory.byteAt_writeByte]
  split_ifs <;> first | omega | rfl | (subst_vars; simp)

end Sys2Proof.Machine
end

