-- ==== Sys2Proof/Laws/State.lean ====
section
/-! SUPPORT. One lemma for each field of each named update of the state records, so that no proof unfolds an update. -/

namespace Sys2Proof.Machine

variable (s : State) (w : Writer) (r : Reader) (st : Status) (data : List Word) (v base cap : Word) (k len : Nat)

/-! `State.respond` -/

@[simp] theorem State.respond_w : (s.respond st data).w = s.w := rfl
@[simp] theorem State.respond_r : (s.respond st data).r = s.r := rfl
@[simp] theorem State.respond_mem : (s.respond st data).mem = s.mem := rfl
@[simp] theorem State.respond_memWords : (s.respond st data).memWords = s.memWords := rfl
@[simp] theorem State.respond_inbox : (s.respond st data).inbox = s.inbox := rfl
@[simp] theorem State.respond_response : (s.respond st data).response = some ⟨st, data⟩ := rfl

/-! `State.raise` -/

@[simp] theorem State.raise_w : (s.raise st).w = s.w := rfl
@[simp] theorem State.raise_r : (s.raise st).r = s.r := rfl
@[simp] theorem State.raise_mem : (s.raise st).mem = s.mem := rfl
@[simp] theorem State.raise_memWords : (s.raise st).memWords = s.memWords := rfl
@[simp] theorem State.raise_inbox : (s.raise st).inbox = s.inbox := rfl
@[simp] theorem State.raise_response : (s.raise st).response = some ⟨st, []⟩ := rfl

/-! `State.raiseLatched` -/

@[simp] theorem State.raiseLatched_w : (s.raiseLatched st).w = s.w.latch st := rfl
@[simp] theorem State.raiseLatched_r : (s.raiseLatched st).r = s.r := rfl
@[simp] theorem State.raiseLatched_mem : (s.raiseLatched st).mem = s.mem := rfl
@[simp] theorem State.raiseLatched_memWords : (s.raiseLatched st).memWords = s.memWords := rfl
@[simp] theorem State.raiseLatched_inbox : (s.raiseLatched st).inbox = s.inbox := rfl
@[simp] theorem State.raiseLatched_response : (s.raiseLatched st).response = some ⟨st, []⟩ := rfl

/-! `State.hardReset` -/

@[simp] theorem State.hardReset_w : s.hardReset.w = Writer.reset := rfl
@[simp] theorem State.hardReset_r : s.hardReset.r = Reader.reset := rfl
@[simp] theorem State.hardReset_mem : s.hardReset.mem = s.mem := rfl
@[simp] theorem State.hardReset_memWords : s.hardReset.memWords = s.memWords := rfl
@[simp] theorem State.hardReset_inbox : s.hardReset.inbox = s.inbox := rfl
@[simp] theorem State.hardReset_response : s.hardReset.response = s.response := rfl

/-! `State.take` -/

@[simp] theorem State.take_w : (s.take k).w = s.w := rfl
@[simp] theorem State.take_r : (s.take k).r = s.r := rfl
@[simp] theorem State.take_mem : (s.take k).mem = s.mem := rfl
@[simp] theorem State.take_memWords : (s.take k).memWords = s.memWords := rfl
@[simp] theorem State.take_inbox : (s.take k).inbox = s.inbox.drop k := rfl
@[simp] theorem State.take_response : (s.take k).response = s.response := rfl

/-! `State.withFetchWord` -/

@[simp] theorem State.withFetchWord_w : (s.withFetchWord k len).w = s.w := rfl
@[simp] theorem State.withFetchWord_r : (s.withFetchWord k len).r = s.r := rfl
@[simp] theorem State.withFetchWord_mem : (s.withFetchWord k len).mem = s.mem := rfl
@[simp] theorem State.withFetchWord_memWords : (s.withFetchWord k len).memWords = s.memWords := rfl
@[simp] theorem State.withFetchWord_inbox :
    (s.withFetchWord k len).inbox = wordMoves (tableWords k len) ++ s.inbox := rfl
@[simp] theorem State.withFetchWord_response : (s.withFetchWord k len).response = s.response := rfl

/-! `Writer.latch` -/

@[simp] theorem Writer.latch_scratch : (w.latch st).scratch = w.scratch := rfl
@[simp] theorem Writer.latch_scratchBits : (w.latch st).scratchBits = w.scratchBits := rfl
@[simp] theorem Writer.latch_wordIndex : (w.latch st).wordIndex = w.wordIndex := rfl
@[simp] theorem Writer.latch_bitsWritten : (w.latch st).bitsWritten = w.bitsWritten := rfl
@[simp] theorem Writer.latch_base : (w.latch st).base = w.base := rfl
@[simp] theorem Writer.latch_numWords : (w.latch st).numWords = w.numWords := rfl
@[simp] theorem Writer.latch_numBits : (w.latch st).numBits = w.numBits := rfl
@[simp] theorem Writer.latch_bound : (w.latch st).bound = w.bound := rfl
@[simp] theorem Writer.latch_fault : (w.latch st).fault = if st.fatal then st.code else w.fault := rfl

/-! `Writer.stage` -/

@[simp] theorem Writer.stage_scratch :
    (w.stage v len).scratch = w.scratch ||| ((v.setWidth 64 &&& mask len) <<< w.scratchBits.toNat) := rfl
@[simp] theorem Writer.stage_scratchBits : (w.stage v len).scratchBits = w.scratchBits + BitVec.ofNat 7 len := rfl
@[simp] theorem Writer.stage_wordIndex : (w.stage v len).wordIndex = w.wordIndex := rfl
@[simp] theorem Writer.stage_bitsWritten : (w.stage v len).bitsWritten = w.bitsWritten + BitVec.ofNat 32 len := rfl
@[simp] theorem Writer.stage_base : (w.stage v len).base = w.base := rfl
@[simp] theorem Writer.stage_numWords : (w.stage v len).numWords = w.numWords := rfl
@[simp] theorem Writer.stage_numBits : (w.stage v len).numBits = w.numBits := rfl
@[simp] theorem Writer.stage_bound : (w.stage v len).bound = w.bound := rfl
@[simp] theorem Writer.stage_fault : (w.stage v len).fault = w.fault := rfl

/-! `Writer.shiftOut` -/

@[simp] theorem Writer.shiftOut_scratch : w.shiftOut.scratch = w.scratch >>> 32 := rfl
@[simp] theorem Writer.shiftOut_scratchBits : w.shiftOut.scratchBits = w.scratchBits - 32 := rfl
@[simp] theorem Writer.shiftOut_wordIndex : w.shiftOut.wordIndex = w.wordIndex + 1 := rfl
@[simp] theorem Writer.shiftOut_bitsWritten : w.shiftOut.bitsWritten = w.bitsWritten := rfl
@[simp] theorem Writer.shiftOut_base : w.shiftOut.base = w.base := rfl
@[simp] theorem Writer.shiftOut_numWords : w.shiftOut.numWords = w.numWords := rfl
@[simp] theorem Writer.shiftOut_numBits : w.shiftOut.numBits = w.numBits := rfl
@[simp] theorem Writer.shiftOut_bound : w.shiftOut.bound = w.bound := rfl
@[simp] theorem Writer.shiftOut_fault : w.shiftOut.fault = w.fault := rfl

/-! `Writer.close` -/

@[simp] theorem Writer.close_scratch : w.close.scratch = w.scratch >>> 32 := rfl
@[simp] theorem Writer.close_scratchBits : w.close.scratchBits = 0 := rfl
@[simp] theorem Writer.close_wordIndex : w.close.wordIndex = w.wordIndex + 1 := rfl
@[simp] theorem Writer.close_bitsWritten : w.close.bitsWritten = w.bitsWritten := rfl
@[simp] theorem Writer.close_base : w.close.base = w.base := rfl
@[simp] theorem Writer.close_numWords : w.close.numWords = w.numWords := rfl
@[simp] theorem Writer.close_numBits : w.close.numBits = w.numBits := rfl
@[simp] theorem Writer.close_bound : w.close.bound = w.bound := rfl
@[simp] theorem Writer.close_fault : w.close.fault = w.fault := rfl

/-! `Writer.skipWord` -/

@[simp] theorem Writer.skipWord_scratch : w.skipWord.scratch = w.scratch := rfl
@[simp] theorem Writer.skipWord_scratchBits : w.skipWord.scratchBits = w.scratchBits := rfl
@[simp] theorem Writer.skipWord_wordIndex : w.skipWord.wordIndex = w.wordIndex + 1 := rfl
@[simp] theorem Writer.skipWord_bitsWritten : w.skipWord.bitsWritten = w.bitsWritten + 32 := rfl
@[simp] theorem Writer.skipWord_base : w.skipWord.base = w.base := rfl
@[simp] theorem Writer.skipWord_numWords : w.skipWord.numWords = w.numWords := rfl
@[simp] theorem Writer.skipWord_numBits : w.skipWord.numBits = w.numBits := rfl
@[simp] theorem Writer.skipWord_bound : w.skipWord.bound = w.bound := rfl
@[simp] theorem Writer.skipWord_fault : w.skipWord.fault = w.fault := rfl

/-! `Reader.refillWith` -/

@[simp] theorem Reader.refillWith_scratch :
    (r.refillWith v).scratch = r.scratch ||| (v.setWidth 64 <<< r.scratchBits.toNat) := rfl
@[simp] theorem Reader.refillWith_scratchBits : (r.refillWith v).scratchBits = r.scratchBits + 32 := rfl
@[simp] theorem Reader.refillWith_wordIndex : (r.refillWith v).wordIndex = r.wordIndex + 1 := rfl
@[simp] theorem Reader.refillWith_bitsRead : (r.refillWith v).bitsRead = r.bitsRead := rfl
@[simp] theorem Reader.refillWith_base : (r.refillWith v).base = r.base := rfl
@[simp] theorem Reader.refillWith_numWords : (r.refillWith v).numWords = r.numWords := rfl
@[simp] theorem Reader.refillWith_numBits : (r.refillWith v).numBits = r.numBits := rfl
@[simp] theorem Reader.refillWith_bound : (r.refillWith v).bound = r.bound := rfl

/-! `Reader.consume` -/

@[simp] theorem Reader.consume_scratch : (r.consume len).scratch = r.scratch >>> len := rfl
@[simp] theorem Reader.consume_scratchBits : (r.consume len).scratchBits = r.scratchBits - BitVec.ofNat 7 len := rfl
@[simp] theorem Reader.consume_wordIndex : (r.consume len).wordIndex = r.wordIndex := rfl
@[simp] theorem Reader.consume_bitsRead : (r.consume len).bitsRead = r.bitsRead + BitVec.ofNat 32 len := rfl
@[simp] theorem Reader.consume_base : (r.consume len).base = r.base := rfl
@[simp] theorem Reader.consume_numWords : (r.consume len).numWords = r.numWords := rfl
@[simp] theorem Reader.consume_numBits : (r.consume len).numBits = r.numBits := rfl
@[simp] theorem Reader.consume_bound : (r.consume len).bound = r.bound := rfl

/-! `Writer.fresh` and `Reader.fresh` -/

@[simp] theorem Writer.fresh_scratch : (Writer.fresh base cap).scratch = 0 := rfl
@[simp] theorem Writer.fresh_scratchBits : (Writer.fresh base cap).scratchBits = 0 := rfl
@[simp] theorem Writer.fresh_wordIndex : (Writer.fresh base cap).wordIndex = 0 := rfl
@[simp] theorem Writer.fresh_bitsWritten : (Writer.fresh base cap).bitsWritten = 0 := rfl
@[simp] theorem Writer.fresh_base : (Writer.fresh base cap).base = base := rfl
@[simp] theorem Writer.fresh_numWords : (Writer.fresh base cap).numWords = BitVec.ofNat 32 (cap.toNat / 4) := rfl
@[simp] theorem Writer.fresh_numBits : (Writer.fresh base cap).numBits = BitVec.ofNat 32 (32 * (cap.toNat / 4)) := rfl
@[simp] theorem Writer.fresh_bound : (Writer.fresh base cap).bound = true := rfl
@[simp] theorem Writer.fresh_fault : (Writer.fresh base cap).fault = 0 := rfl
@[simp] theorem Reader.fresh_scratch : (Reader.fresh base cap).scratch = 0 := rfl
@[simp] theorem Reader.fresh_scratchBits : (Reader.fresh base cap).scratchBits = 0 := rfl
@[simp] theorem Reader.fresh_wordIndex : (Reader.fresh base cap).wordIndex = 0 := rfl
@[simp] theorem Reader.fresh_bitsRead : (Reader.fresh base cap).bitsRead = 0 := rfl
@[simp] theorem Reader.fresh_base : (Reader.fresh base cap).base = base := rfl
@[simp] theorem Reader.fresh_numWords : (Reader.fresh base cap).numWords = BitVec.ofNat 32 (cap.toNat / 4) := rfl
@[simp] theorem Reader.fresh_numBits : (Reader.fresh base cap).numBits = BitVec.ofNat 32 (32 * (cap.toNat / 4)) := rfl
@[simp] theorem Reader.fresh_bound : (Reader.fresh base cap).bound = true := rfl

end Sys2Proof.Machine
end

