-- ==== Sys2Proof/Laws/Ops.lean ====
section
/-! SUPPORT. For each shared operation one lemma that says once everything it can do; later proofs cite these and do
not unfold the operation. -/

namespace Sys2Proof.Machine

/-! ## Tests and outcomes -/

theorem firstRaise_nil : firstRaise [] = none := rfl

@[simp] theorem firstRaise_cons (c : Bool) (st : Status) (rest : List (Bool × Status)) :
    firstRaise ((c, st) :: rest) = if c then some st else firstRaise rest := rfl

/-- No test holds exactly when every condition is false. -/
theorem firstRaise_eq_none {tests : List (Bool × Status)} :
    firstRaise tests = none ↔ ∀ p ∈ tests, p.1 = false := by
  induction tests with
  | nil => simp [firstRaise]
  | cons p rest ih =>
    obtain ⟨c, st⟩ := p
    cases c <;> simp [ih]

/-- A raised status is one of the tests, its condition holds, and no earlier condition does. -/
theorem firstRaise_eq_some {tests : List (Bool × Status)} {st : Status} (h : firstRaise tests = some st) :
    ∃ before rest, tests = before ++ (true, st) :: rest ∧ ∀ p ∈ before, p.1 = false := by
  induction tests with
  | nil => simp [firstRaise] at h
  | cons p rest ih =>
    obtain ⟨c, st'⟩ := p
    cases c with
    | true =>
      obtain rfl : st' = st := by simpa using h
      exact ⟨[], rest, rfl, by simp⟩
    | false =>
      obtain ⟨before, after, rfl, hb⟩ := ih (by simpa using h)
      exact ⟨(false, st') :: before, after, rfl, by simpa using hb⟩

theorem firstRaise_append (a b : List (Bool × Status)) :
    firstRaise (a ++ b) = (firstRaise a).or (firstRaise b) := by
  induction a with
  | nil => simp [firstRaise]
  | cons p rest ih =>
    obtain ⟨c, st⟩ := p
    cases c <;> simp [ih]

/-- A guarded effect: the status raised first, or the effect when no test holds. -/
theorem guarded_eq (tests : List (Bool × Status)) (raised : Status → State) (effect : Result) :
    guarded tests raised effect = ((firstRaise tests).map fun st => Host.Outcome.next (raised st)).getD effect := by
  unfold guarded
  cases firstRaise tests <;> rfl

theorem guarded_none {tests : List (Bool × Status)} (h : firstRaise tests = none) (raised : Status → State)
    (effect : Result) : guarded tests raised effect = effect := by simp [guarded, h]

theorem guarded_some {tests : List (Bool × Status)} {st : Status} (h : firstRaise tests = some st)
    (raised : Status → State) (effect : Result) : guarded tests raised effect = .next (raised st) := by
  simp [guarded, h]

/-- What a guarded command's next state can be. -/
theorem guarded_next {tests : List (Bool × Status)} {raised : Status → State} {effect : Result} {t : State}
    (h : guarded tests raised effect = .next t) :
    (∃ st, firstRaise tests = some st ∧ t = raised st) ∨ (firstRaise tests = none ∧ effect = .next t) := by
  unfold guarded at h
  split at h
  · rename_i st hst
    exact .inl ⟨st, hst, by simpa using h.symm⟩
  · exact .inr ⟨‹_›, h⟩

@[simp] theorem finishWrite_some (s : State) : finishWrite (some s) = .next (s.respond .ok []) := rfl
@[simp] theorem finishWrite_none : finishWrite none = .fault .storeOutsideMem := rfl

theorem finishWrite_next {o : Option State} {t : State} (h : finishWrite o = .next t) :
    ∃ s, o = some s ∧ t = s.respond .ok [] := by
  cases o with
  | none => cases h
  | some s => exact ⟨s, rfl, by simpa using h.symm⟩

/-! ## The writer's datapath -/

theorem State.storeWord_eq_some {i : Nat} {v : Word} {s t : State} :
    s.storeWord i v = some t ↔ i < s.memWords ∧ t = { s with mem := s.mem.writeWord i v } := by
  unfold State.storeWord
  split <;> simp [*, eq_comm]

theorem State.storeSlot_eq_some {v : Word} {w' : Writer} {s t : State} :
    s.storeSlot v w' = some t ↔
      s.w.slot < s.memWords ∧ t = { s with w := w', mem := s.mem.writeWord s.w.slot v } := by
  simp only [State.storeSlot, State.storeWord]
  split <;> simp [*, eq_comm]

/-- A store to a slot inside `MEM` succeeds. -/
theorem State.storeSlot_of_lt {s : State} (h : s.w.slot < s.memWords) (v : Word) (w' : Writer) :
    s.storeSlot v w' = some { s with w := w', mem := s.mem.writeWord s.w.slot v } :=
  State.storeSlot_eq_some.mpr ⟨h, rfl⟩

/-- `wbits` stages the field; when that completes a word it also stores the word. -/
theorem State.wbits_eq_some {v : Word} {len : Nat} {s t : State} :
    s.wbits v len = some t ↔
      ((s.w.stage v len).scratchBits.toNat < 32 ∧ t = { s with w := s.w.stage v len }) ∨
        (32 ≤ (s.w.stage v len).scratchBits.toNat ∧ s.w.slot < s.memWords ∧
          t = { s with
            w := (s.w.stage v len).shiftOut
            mem := s.mem.writeWord s.w.slot ((s.w.stage v len).scratch.setWidth 32) }) := by
  simp only [State.wbits, State.flushWord]
  split
  · rename_i h
    rw [State.storeSlot_eq_some]
    constructor
    · rintro ⟨h1, rfl⟩
      exact .inr ⟨h, h1, rfl⟩
    · rintro (⟨h1, -⟩ | ⟨-, h1, rfl⟩)
      · exact absurd h (Nat.not_le.mpr h1)
      · exact ⟨h1, rfl⟩
  · rename_i h
    constructor
    · intro h1
      exact .inl ⟨Nat.lt_of_not_le h, by simpa using h1.symm⟩
    · rintro (⟨-, rfl⟩ | ⟨h1, -⟩)
      · rfl
      · exact absurd h1 h

/-- What a run of the writer's datapath leaves alone: everything but the writer's cursor and `MEM`; and `MEM` keeps its
canonical form and its address range. -/
structure WriterFrame (s t : State) : Prop where
  r : t.r = s.r
  memWords : t.memWords = s.memWords
  inbox : t.inbox = s.inbox
  response : t.response = s.response
  base : t.w.base = s.w.base
  numWords : t.w.numWords = s.w.numWords
  numBits : t.w.numBits = s.w.numBits
  bound : t.w.bound = s.w.bound
  fault : t.w.fault = s.w.fault
  mem : s.mem.Pairwise (fun p q => p.1 < q.1) ∧ (∀ p ∈ s.mem, p.1 < 4 * s.memWords) →
    t.mem.Pairwise (fun p q => p.1 < q.1) ∧ ∀ p ∈ t.mem, p.1 < 4 * s.memWords

theorem WriterFrame.refl (s : State) : WriterFrame s s := ⟨rfl, rfl, rfl, rfl, rfl, rfl, rfl, rfl, rfl, id⟩

theorem WriterFrame.trans {s t u : State} (h : WriterFrame s t) (k : WriterFrame t u) : WriterFrame s u where
  r := k.r.trans h.r
  memWords := k.memWords.trans h.memWords
  inbox := k.inbox.trans h.inbox
  response := k.response.trans h.response
  base := k.base.trans h.base
  numWords := k.numWords.trans h.numWords
  numBits := k.numBits.trans h.numBits
  bound := k.bound.trans h.bound
  fault := k.fault.trans h.fault
  mem hm := by
    have h1 := k.mem (by rw [h.memWords]; exact h.mem hm)
    rwa [h.memWords] at h1

/-- A word store inside `MEM` keeps the canonical form and the address range. -/
theorem Memory.writeWord_keeps {m : Memory} {i n : Nat} (hi : i < n) (v : Word)
    (h : m.Pairwise (fun p q => p.1 < q.1) ∧ ∀ p ∈ m, p.1 < 4 * n) :
    (m.writeWord i v).Pairwise (fun p q => p.1 < q.1) ∧ ∀ p ∈ m.writeWord i v, p.1 < 4 * n := by
  refine ⟨Memory.wf_writeWord h.1 i v, fun p hp => ?_⟩
  rcases Memory.writeWord_addr hp with h1 | h1
  · omega
  · exact h.2 p h1

theorem State.storeSlot_frame {v : Word} {w' : Writer} {s t : State} (h : s.storeSlot v w' = some t)
    (hw : w' = { s.w with
      scratch := w'.scratch, scratchBits := w'.scratchBits, wordIndex := w'.wordIndex, bitsWritten := w'.bitsWritten }) :
    WriterFrame s t := by
  obtain ⟨hs, rfl⟩ := State.storeSlot_eq_some.mp h
  rw [hw]
  exact ⟨rfl, rfl, rfl, rfl, rfl, rfl, rfl, rfl, rfl, Memory.writeWord_keeps hs v⟩

theorem State.wbits_frame {v : Word} {len : Nat} {s t : State} (h : s.wbits v len = some t) : WriterFrame s t := by
  rcases State.wbits_eq_some.mp h with ⟨-, rfl⟩ | ⟨-, hs, rfl⟩
  · exact ⟨rfl, rfl, rfl, rfl, rfl, rfl, rfl, rfl, rfl, id⟩
  · exact ⟨rfl, rfl, rfl, rfl, rfl, rfl, rfl, rfl, rfl, Memory.writeWord_keeps hs _⟩

theorem State.flushPartial_frame {s t : State} (h : s.flushPartial = some t) : WriterFrame s t :=
  State.storeSlot_frame h rfl

/-- `wbytes` on a string is `wbits` of its first byte, then `wbytes` of the rest. -/
theorem State.wbytes_cons {b : Byte} {rest : List Byte} {s t : State} :
    s.wbytes (b :: rest) = some t ↔ ∃ u, s.wbits (b.setWidth 32) 8 = some u ∧ u.wbytes rest = some t := by
  simp [State.wbytes, Option.bind_eq_some_iff]

@[simp] theorem State.wbytes_nil (s : State) : s.wbytes [] = some s := rfl

theorem State.wbytes_append (a b : List Byte) (s : State) :
    s.wbytes (a ++ b) = (s.wbytes a).bind (State.wbytes b) := by
  induction a generalizing s with
  | nil => rfl
  | cons x rest ih =>
    simp only [List.cons_append, State.wbytes]
    cases s.wbits (x.setWidth 32) 8 with
    | none => rfl
    | some u => exact ih u

theorem State.wbytes_frame {data : List Byte} {s t : State} (h : s.wbytes data = some t) : WriterFrame s t := by
  induction data generalizing s with
  | nil => exact Option.some.inj h ▸ WriterFrame.refl s
  | cons b rest ih =>
    obtain ⟨u, hu, ht⟩ := State.wbytes_cons.mp h
    exact (State.wbits_frame hu).trans (ih ht)

/-- `wbulk` stores the first word, then the rest. -/
theorem State.wbulk_cons {b0 b1 b2 b3 : Byte} {rest : List Byte} {s t : State} :
    s.wbulk (b0 :: b1 :: b2 :: b3 :: rest) = some t ↔
      ∃ u, s.storeSlot (wordOfBytes b0 b1 b2 b3) s.w.skipWord = some u ∧ u.wbulk rest = some t := by
  simp [State.wbulk, Option.bind_eq_some_iff]

theorem State.wbulk_short {data : List Byte} (h : data.length < 4) (s : State) : s.wbulk data = some s := by
  match data, h with
  | [], _ => rfl
  | [_], _ => rfl
  | [_, _], _ => rfl
  | [_, _, _], _ => rfl
  | _ :: _ :: _ :: _ :: _, h => simp only [List.length_cons] at h; omega

theorem State.wbulk_frame {data : List Byte} {s t : State} (h : s.wbulk data = some t) : WriterFrame s t := by
  match data, h with
  | [], h => exact Option.some.inj h ▸ WriterFrame.refl s
  | [_], h => exact Option.some.inj h ▸ WriterFrame.refl s
  | [_, _], h => exact Option.some.inj h ▸ WriterFrame.refl s
  | [_, _, _], h => exact Option.some.inj h ▸ WriterFrame.refl s
  | _ :: _ :: _ :: _ :: rest, h =>
    obtain ⟨u, hu, ht⟩ := State.wbulk_cons.mp h
    exact (State.storeSlot_frame hu rfl).trans (State.wbulk_frame ht)

/-! ## The reader's datapath -/

theorem State.loadWord_eq_some {i : Nat} {v : Word} {s : State} :
    s.loadWord i = some v ↔ i < s.memWords ∧ v = s.mem.wordAt i := by
  unfold State.loadWord
  split <;> simp [*, eq_comm]

/-- `rbits` extracts from the staged bits, after a refill when too few are staged. -/
theorem State.rbits_eq_some {len : Nat} {s t : State} {out : Word} :
    s.rbits len = some (out, t) ↔
      (len ≤ s.r.scratchBits.toNat ∧ out = s.r.front len ∧ t = { s with r := s.r.consume len }) ∨
        (s.r.scratchBits.toNat < len ∧ s.r.slot < s.memWords ∧
          out = (s.r.refillWith (s.mem.wordAt s.r.slot)).front len ∧
          t = { s with r := (s.r.refillWith (s.mem.wordAt s.r.slot)).consume len }) := by
  simp only [State.rbits, State.refill, State.loadWord]
  split
  · rename_i h
    split
    · rename_i h1
      simp only [Option.map_some, Option.some.injEq, Prod.mk.injEq]
      constructor
      · rintro ⟨rfl, rfl⟩
        exact .inr ⟨h, h1, rfl, rfl⟩
      · rintro (⟨h2, -⟩ | ⟨-, -, rfl, rfl⟩)
        · omega
        · exact ⟨rfl, rfl⟩
    · rename_i h1
      simp only [Option.map_none, reduceCtorEq, false_iff, not_or, not_and]
      exact ⟨fun h2 => by omega, fun _ h2 => absurd h2 h1⟩
  · rename_i h
    simp only [Option.map_some, Option.some.injEq, Prod.mk.injEq]
    constructor
    · rintro ⟨rfl, rfl⟩
      exact .inl ⟨by omega, rfl, rfl⟩
    · rintro (⟨-, rfl, rfl⟩ | ⟨h2, -⟩)
      · exact ⟨rfl, rfl⟩
      · omega

/-- What a run of the reader's datapath leaves alone: everything but the reader's cursor. -/
structure ReaderFrame (s t : State) : Prop where
  rest : t = { s with r := t.r }
  base : t.r.base = s.r.base
  numWords : t.r.numWords = s.r.numWords
  numBits : t.r.numBits = s.r.numBits
  bound : t.r.bound = s.r.bound

theorem ReaderFrame.refl (s : State) : ReaderFrame s s := ⟨rfl, rfl, rfl, rfl, rfl⟩

theorem ReaderFrame.trans {s t u : State} (h : ReaderFrame s t) (k : ReaderFrame t u) : ReaderFrame s u where
  rest := by rw [k.rest, h.rest]
  base := k.base.trans h.base
  numWords := k.numWords.trans h.numWords
  numBits := k.numBits.trans h.numBits
  bound := k.bound.trans h.bound

theorem State.rbits_frame {len : Nat} {s t : State} {out : Word} (h : s.rbits len = some (out, t)) :
    ReaderFrame s t := by
  rcases State.rbits_eq_some.mp h with ⟨-, -, rfl⟩ | ⟨-, -, -, rfl⟩ <;> exact ⟨rfl, rfl, rfl, rfl, rfl⟩

@[simp] theorem State.rbytes_zero (s : State) : s.rbytes 0 = some ([], s) := rfl

/-- `rbytes` is one extraction of 8 bits, then the rest. -/
theorem State.rbytes_succ {n : Nat} {s t : State} {data : List Byte} :
    s.rbytes (n + 1) = some (data, t) ↔
      ∃ v u rest, s.rbits 8 = some (v, u) ∧ u.rbytes n = some (rest, t) ∧ data = v.setWidth 8 :: rest := by
  simp only [State.rbytes, Option.bind_eq_some_iff, Option.map_eq_some_iff, Prod.exists, Prod.mk.injEq]
  constructor
  · rintro ⟨v, u, h1, rest, t', h2, rfl, rfl⟩
    exact ⟨v, u, rest, h1, h2, rfl⟩
  · rintro ⟨v, u, rest, h1, h2, rfl⟩
    exact ⟨v, u, h1, rest, t, h2, rfl, rfl⟩

theorem State.rbytes_frame {n : Nat} {s t : State} {data : List Byte} (h : s.rbytes n = some (data, t)) :
    ReaderFrame s t ∧ data.length = n := by
  induction n generalizing s data with
  | zero =>
    obtain ⟨rfl, rfl⟩ : [] = data ∧ s = t := by simpa using h
    exact ⟨ReaderFrame.refl _, rfl⟩
  | succ n ih =>
    obtain ⟨v, u, rest, h1, h2, rfl⟩ := State.rbytes_succ.mp h
    obtain ⟨h3, h4⟩ := ih h2
    exact ⟨(State.rbits_frame h1).trans h3, by simp [h4]⟩

end Sys2Proof.Machine
end

