-- ==== Sys2Proof/Laws/Datapath.lean ====
section
/-! SUPPORT. The two datapaths as arithmetic on numbers: what staging, flushing, refilling and extracting do to the
cursor registers, for cursors inside their invariants (10_state.md R29, R37). -/

namespace Sys2Proof.Machine

theorem mask_toNat {n : Nat} (h : n ≤ 32) : (mask n).toNat = 2 ^ n - 1 := by
  have : 2 ^ n ≤ 2 ^ 32 := Nat.pow_le_pow_right (by omega) h
  simp only [mask, BitVec.toNat_ofNat]
  omega

theorem and_mask_toNat (x : BitVec 64) {n : Nat} (h : n ≤ 32) : (x &&& mask n).toNat = x.toNat % 2 ^ n := by
  rw [BitVec.toNat_and, mask_toNat h, Nat.and_two_pow_sub_one_eq_mod]

/-- A number below `2^s` OR-ed with a multiple of `2^s` is their sum. -/
theorem or_shift_eq_add {a b s : Nat} (h : a < 2 ^ s) : a ||| b * 2 ^ s = a + b * 2 ^ s := by
  rw [Nat.or_comm, Nat.mul_comm, ← Nat.two_pow_add_eq_or_of_lt h, Nat.add_comm]

theorem mod_mul_pow_lt {v len s : Nat} : v % 2 ^ len * 2 ^ s < 2 ^ (s + len) := by
  rw [Nat.pow_add, Nat.mul_comm]
  exact Nat.mul_lt_mul_of_pos_left (Nat.mod_lt _ (Nat.two_pow_pos _)) (Nat.two_pow_pos _)

/-- The staged number after a field is OR-ed in stays below two to the number of staged bits. -/
theorem staged_lt {a v len s : Nat} (h : a < 2 ^ s) : a + v % 2 ^ len * 2 ^ s < 2 ^ (s + len) := by
  have h1 : v % 2 ^ len * 2 ^ s ≤ (2 ^ len - 1) * 2 ^ s :=
    Nat.mul_le_mul_right _ (Nat.le_pred_of_lt (Nat.mod_lt _ (Nat.two_pow_pos _)))
  have h2 : (2 ^ len - 1) * 2 ^ s + 2 ^ s = 2 ^ (s + len) := by
    rw [Nat.pow_add, Nat.mul_comm (2 ^ s), Nat.sub_mul, Nat.one_mul]
    exact Nat.sub_add_cancel (Nat.le_mul_of_pos_left _ (Nat.two_pow_pos _))
  omega

section Writer

variable {w : Writer} {v : Word} {len : Nat}

theorem Writer.stage_scratch_toNat (hs : w.scratchBits.toNat ≤ 31) (ha : w.scratch.toNat < 2 ^ w.scratchBits.toNat)
    (hl : len ≤ 32) :
    (w.stage v len).scratch.toNat = w.scratch.toNat + v.toNat % 2 ^ len * 2 ^ w.scratchBits.toNat := by
  have hv : v.toNat % 2 ^ 64 = v.toNat := Nat.mod_eq_of_lt (lt_trans v.isLt (by norm_num))
  have h1 : v.toNat % 2 ^ len * 2 ^ w.scratchBits.toNat < 2 ^ 64 :=
    lt_of_lt_of_le mod_mul_pow_lt (Nat.pow_le_pow_right (by omega) (by omega))
  rw [Writer.stage_scratch, BitVec.toNat_or, BitVec.toNat_shiftLeft, and_mask_toNat _ hl, BitVec.toNat_setWidth, hv,
    Nat.shiftLeft_eq, Nat.mod_eq_of_lt h1, or_shift_eq_add ha]

theorem Writer.stage_scratchBits_toNat (hs : w.scratchBits.toNat ≤ 31) (hl : len ≤ 32) :
    (w.stage v len).scratchBits.toNat = w.scratchBits.toNat + len := by
  rw [Writer.stage_scratchBits, BitVec.toNat_add, BitVec.toNat_ofNat]
  omega

theorem Writer.stage_scratch_lt (hs : w.scratchBits.toNat ≤ 31) (ha : w.scratch.toNat < 2 ^ w.scratchBits.toNat)
    (hl : len ≤ 32) : (w.stage v len).scratch.toNat < 2 ^ (w.scratchBits.toNat + len) := by
  rw [Writer.stage_scratch_toNat hs ha hl]
  exact staged_lt ha

theorem Writer.stage_bitsWritten_toNat (h : w.bitsWritten.toNat + len < 2 ^ 32) :
    (w.stage v len).bitsWritten.toNat = w.bitsWritten.toNat + len := by
  rw [Writer.stage_bitsWritten, BitVec.toNat_add, BitVec.toNat_ofNat]
  omega

theorem Writer.shiftOut_scratch_toNat : w.shiftOut.scratch.toNat = w.scratch.toNat / 2 ^ 32 := by
  rw [Writer.shiftOut_scratch, BitVec.toNat_ushiftRight, Nat.shiftRight_eq_div_pow]

theorem Writer.shiftOut_scratchBits_toNat (h : 32 ≤ w.scratchBits.toNat) :
    w.shiftOut.scratchBits.toNat = w.scratchBits.toNat - 32 := by
  rw [Writer.shiftOut_scratchBits]
  bv_omega

theorem Writer.shiftOut_wordIndex_toNat (h : w.wordIndex.toNat + 1 < 2 ^ 32) :
    w.shiftOut.wordIndex.toNat = w.wordIndex.toNat + 1 := by
  rw [Writer.shiftOut_wordIndex]
  bv_omega

theorem Writer.skipWord_wordIndex_toNat (h : w.wordIndex.toNat + 1 < 2 ^ 32) :
    w.skipWord.wordIndex.toNat = w.wordIndex.toNat + 1 := by
  rw [Writer.skipWord_wordIndex]
  bv_omega

theorem Writer.skipWord_bitsWritten_toNat (h : w.bitsWritten.toNat + 32 < 2 ^ 32) :
    w.skipWord.bitsWritten.toNat = w.bitsWritten.toNat + 32 := by
  rw [Writer.skipWord_bitsWritten]
  bv_omega

/-- `wsync` as an equation. -/
theorem Writer.sync_iff : w.sync = true ↔ 32 * w.wordIndex.toNat + w.scratchBits.toNat = w.bitsWritten.toNat := by
  simp [Writer.sync]

end Writer

section Reader

variable {r : Reader} {v : Word} {len : Nat}

theorem Reader.refillWith_scratch_toNat (hs : r.scratchBits.toNat ≤ 31) (ha : r.scratch.toNat < 2 ^ r.scratchBits.toNat) :
    (r.refillWith v).scratch.toNat = r.scratch.toNat + v.toNat * 2 ^ r.scratchBits.toNat := by
  have hv : v.toNat % 2 ^ 64 = v.toNat := Nat.mod_eq_of_lt (lt_trans v.isLt (by norm_num))
  have hv' : v.toNat % 2 ^ 32 = v.toNat := Nat.mod_eq_of_lt v.isLt
  have h1 : v.toNat * 2 ^ r.scratchBits.toNat < 2 ^ 64 := by
    have := mod_mul_pow_lt (v := v.toNat) (len := 32) (s := r.scratchBits.toNat)
    rw [hv'] at this
    exact lt_of_lt_of_le this (Nat.pow_le_pow_right (by omega) (by omega))
  rw [Reader.refillWith_scratch, BitVec.toNat_or, BitVec.toNat_shiftLeft, BitVec.toNat_setWidth, hv, Nat.shiftLeft_eq,
    Nat.mod_eq_of_lt h1, or_shift_eq_add ha]

theorem Reader.refillWith_scratchBits_toNat (hs : r.scratchBits.toNat ≤ 31) :
    (r.refillWith v).scratchBits.toNat = r.scratchBits.toNat + 32 := by
  rw [Reader.refillWith_scratchBits]
  bv_omega

theorem Reader.refillWith_wordIndex_toNat (h : r.wordIndex.toNat + 1 < 2 ^ 32) :
    (r.refillWith v).wordIndex.toNat = r.wordIndex.toNat + 1 := by
  rw [Reader.refillWith_wordIndex]
  bv_omega

theorem Reader.consume_scratch_toNat : (r.consume len).scratch.toNat = r.scratch.toNat / 2 ^ len := by
  rw [Reader.consume_scratch, BitVec.toNat_ushiftRight, Nat.shiftRight_eq_div_pow]

theorem Reader.consume_scratchBits_toNat (h : len ≤ r.scratchBits.toNat) :
    (r.consume len).scratchBits.toNat = r.scratchBits.toNat - len := by
  have := r.scratchBits.isLt
  rw [Reader.consume_scratchBits, BitVec.toNat_sub, BitVec.toNat_ofNat]
  omega

theorem Reader.consume_bitsRead_toNat (h : r.bitsRead.toNat + len < 2 ^ 32) :
    (r.consume len).bitsRead.toNat = r.bitsRead.toNat + len := by
  rw [Reader.consume_bitsRead, BitVec.toNat_add, BitVec.toNat_ofNat]
  omega

theorem Reader.front_toNat (h : len ≤ 32) : (r.front len).toNat = r.scratch.toNat % 2 ^ len := by
  have h1 : r.scratch.toNat % 2 ^ len < 2 ^ 32 :=
    lt_of_lt_of_le (Nat.mod_lt _ (Nat.two_pow_pos _)) (Nat.pow_le_pow_right (by omega) h)
  rw [Reader.front, BitVec.toNat_setWidth, and_mask_toNat _ h, Nat.mod_eq_of_lt h1]

end Reader

/-! ## Bytes and words as numbers -/

theorem byteOfWord_toNat (v : Word) (k : Nat) : (byteOfWord v k).toNat = v.toNat / 2 ^ (8 * k) % 256 := by
  rw [byteOfWord, BitVec.toNat_setWidth, BitVec.toNat_ushiftRight, Nat.shiftRight_eq_div_pow]

theorem byteOfWord_eq (v : Word) (k : Nat) : byteOfWord v k = BitVec.ofNat 8 (v.toNat / 2 ^ (8 * k)) := by
  apply BitVec.eq_of_toNat_eq
  rw [byteOfWord_toNat, BitVec.toNat_ofNat]

theorem wordOfBytes_toNat (a b c d : Byte) : (wordOfBytes a b c d).toNat = leNat [a, b, c, d] := by
  have := a.isLt
  have := b.isLt
  have := c.isLt
  simp only [wordOfBytes, leNat, BitVec.toNat_append, Nat.shiftLeft_eq]
  rw [← Nat.shiftLeft_eq, ← Nat.shiftLeft_eq, ← Nat.shiftLeft_eq,
    ← Nat.shiftLeft_add_eq_or_of_lt c.isLt, ← Nat.shiftLeft_add_eq_or_of_lt b.isLt,
    ← Nat.shiftLeft_add_eq_or_of_lt a.isLt]
  simp only [Nat.shiftLeft_eq]
  omega

/-- A word of `MEM` is the number its four bytes hold (20_memory.md R61). -/
theorem Memory.wordAt_toNat (m : Memory) (i : Nat) :
    (m.wordAt i).toNat = leNat [m.byteAt (4 * i), m.byteAt (4 * i + 1), m.byteAt (4 * i + 2), m.byteAt (4 * i + 3)] :=
  wordOfBytes_toNat _ _ _ _

theorem leNat_lt (data : List Byte) : leNat data < 2 ^ (8 * data.length) := by
  induction data with
  | nil => simp [leNat]
  | cons b rest ih =>
    have := b.isLt
    simp only [leNat, List.length_cons]
    rw [show 8 * (rest.length + 1) = 8 * rest.length + 8 by ring, Nat.pow_add]
    omega

theorem leNat_append (a b : List Byte) : leNat (a ++ b) = leNat a + 2 ^ (8 * a.length) * leNat b := by
  induction a with
  | nil => simp [leNat]
  | cons x rest ih =>
    simp only [List.cons_append, leNat, ih, List.length_cons]
    rw [show 8 * (rest.length + 1) = 8 * rest.length + 8 by ring, Nat.pow_add]
    ring

end Sys2Proof.Machine
end

