-- ==== Sys2Proof/Laws/PerInstr.lean ====
section
/-! SUPPORT. One family of facts about every command as syntax: its header selects its row of the opcode map and tells
the number of its words (30_encoding.md R95, R96). One lemma for each constructor. -/

namespace Sys2Proof.Laws

/-- A row selects a header only if the header's low byte, the field `op`, is the row's (30_encoding.md R96). -/
theorem selects_low_byte {r : OpRow} (hr : r ∈ opRows) {h : Word} (hs : r.selects h = true) :
    h.setWidth 8 = r.pattern.setWidth 8 := by
  have hm : ∀ r ∈ opRows, r.mask.setWidth 8 = BitVec.allOnes 8 := by decide
  have he : h &&& r.mask = r.pattern := by simpa [OpRow.selects] using hs
  rw [← he, BitVec.setWidth_and, hm r hr, BitVec.and_allOnes]

/-- A row whose `op` differs from the header's does not select it. -/
theorem selects_eq_false {r : OpRow} (hr : r ∈ opRows) {h : Word} (hb : h.setWidth 8 ≠ r.pattern.setWidth 8) :
    r.selects h = false := by
  cases hs : r.selects h with
  | false => rfl
  | true => exact absurd (selects_low_byte hr hs) hb

@[simp] theorem countHeader_low_byte (op : Byte) (n : BitVec 24) : (countHeader op n).setWidth 8 = op :=
  BitVec.setWidth_append_eq_right

@[simp] theorem headerCount_countHeader (op : Byte) (n : BitVec 24) : headerCount (countHeader op n) = n := by
  apply BitVec.eq_of_getLsbD_eq
  intro i hi
  rw [headerCount, BitVec.getLsbD_extractLsb', countHeader, BitVec.getLsbD_append]
  simp [hi]

/-- A row that tests the `op` byte only selects every header with that byte. -/
theorem selects_countHeader (op : Byte) (n : BitVec 24) (o : Op) (f : Format) :
    OpRow.selects ⟨o, f, 0x000000FF, op.setWidth 32⟩ (countHeader op n) = true := by
  have h : (countHeader op n &&& 0x000000FF).toNat = (op.setWidth 32).toNat := by
    rw [BitVec.toNat_and, show BitVec.toNat (0x000000FF : Word) = 2 ^ 8 - 1 from rfl, Nat.and_two_pow_sub_one_eq_mod,
      ← BitVec.toNat_setWidth 8, countHeader_low_byte, BitVec.toNat_setWidth, Nat.mod_eq_of_lt (by omega)]
  simpa [OpRow.selects] using BitVec.eq_of_toNat_eq h

/-- The header of a `W_BYTES` selects its row, whatever its count. -/
theorem rowOf_wBytes (n : BitVec 24) : rowOf (countHeader 0x14 n) = some ⟨.wBytes, .np, 0x000000FF, 0x00000014⟩ := by
  have hs : OpRow.selects ⟨.wBytes, .np, 0x000000FF, 0x00000014⟩ (countHeader 0x14 n) = true :=
    selects_countHeader 0x14 n _ _
  have hn : ∀ r ∈ opRows, (0x14 : Byte) ≠ r.pattern.setWidth 8 → r.selects (countHeader 0x14 n) = false :=
    fun r hr hne => selects_eq_false hr (by rwa [countHeader_low_byte])
  simp only [opRows, List.mem_cons, List.not_mem_nil, or_false, forall_eq_or_imp, forall_eq] at hn
  obtain ⟨h1, h2, h3, h4, h5, h6, -⟩ := hn
  simp only [rowOf, opRows, List.find?_cons, h1 (by decide), h2 (by decide), h3 (by decide), h4 (by decide),
    h5 (by decide), h6 (by decide), hs]

/-- The header of an `R_BYTES` selects its row, whatever its count. -/
theorem rowOf_rBytes (n : BitVec 24) : rowOf (countHeader 0x24 n) = some ⟨.rBytes, .n, 0x000000FF, 0x00000024⟩ := by
  have hs : OpRow.selects ⟨.rBytes, .n, 0x000000FF, 0x00000024⟩ (countHeader 0x24 n) = true :=
    selects_countHeader 0x24 n _ _
  have hn : ∀ r ∈ opRows, (0x24 : Byte) ≠ r.pattern.setWidth 8 → r.selects (countHeader 0x24 n) = false :=
    fun r hr hne => selects_eq_false hr (by rwa [countHeader_low_byte])
  simp only [opRows, List.mem_cons, List.not_mem_nil, or_false, forall_eq_or_imp, forall_eq] at hn
  obtain ⟨h1, h2, h3, h4, h5, h6, h7, h8, h9, h10, h11, -⟩ := hn
  simp only [rowOf, opRows, List.find?_cons, h1 (by decide), h2 (by decide), h3 (by decide), h4 (by decide),
    h5 (by decide), h6 (by decide), h7 (by decide), h8 (by decide), h9 (by decide), h10 (by decide),
    h11 (by decide), hs]

/-- A header with any `len` selects the row of its command. -/
theorem rowOf_lenHeader :
    (∀ len, rowOf (lenHeader 0x11 len) = some ⟨.wBits, .lv, 0xFFFFC0FF, 0x00000011⟩) ∧
      ∀ len, rowOf (lenHeader 0x21 len) = some ⟨.rBits, .l, 0xFFFFC0FF, 0x00000021⟩ := by decide

/-- Packed bytes take one word for each four, rounded up (30_encoding.md R94). -/
theorem packBytes_length (data : List Byte) : (packBytes data).length = (data.length + 3) / 4 := by
  match data with
  | [] => rfl
  | [_] => simp [packBytes]
  | [_, _] => simp [packBytes]
  | [_, _, _] => simp [packBytes]
  | _ :: _ :: _ :: _ :: rest =>
    simp only [packBytes, List.length_cons, packBytes_length rest]
    omega

/-- The first word of a command selects a row, and the number of words told from it is the number the command has. -/
def HeaderTellsLength.Statement (i : Instr) : Prop :=
  i.wellFormed = true →
    ∃ h rest, encode i = h :: rest ∧ (rowOf h).isSome = true ∧ commandWords h = (encode i).length

namespace HeaderTellsLength

theorem cPopcnt (x : Word) : Statement (.cPopcnt x) := fun _ => ⟨0x00000001, [x], rfl, by decide, rfl⟩

theorem cBitsreq (min max : Word) : Statement (.cBitsreq min max) :=
  fun _ => ⟨0x00000002, [min, max], rfl, by decide, rfl⟩

theorem wNew (base capacityBytes : Word) : Statement (.wNew base capacityBytes) :=
  fun _ => ⟨0x00000010, [base, capacityBytes], rfl, by decide, rfl⟩

theorem wBits (value : Word) (len : BitVec 6) : Statement (.wBits value len) :=
  fun _ => ⟨lenHeader 0x11 len, [value], rfl, by rw [rowOf_lenHeader.1]; rfl, by
    simp only [commandWords, rowOf_lenHeader.1, Format.operandWords, encode, List.length_cons, List.length_nil]⟩

theorem wFlush : Statement .wFlush := fun _ => ⟨0x00000012, [], rfl, by decide, rfl⟩

theorem wAlign : Statement .wAlign := fun _ => ⟨0x00000013, [], rfl, by decide, rfl⟩

theorem wBytes (data : List Byte) : Statement (.wBytes data) := by
  intro hw
  have hl : data.length < 2 ^ 24 := by simpa [Instr.wellFormed] using hw
  refine ⟨_, _, rfl, ?_, ?_⟩
  · rw [rowOf_wBytes]
    rfl
  · simp only [commandWords, rowOf_wBytes, Format.operandWords, headerCount_countHeader, encode, List.length_cons,
      packBytes_length, BitVec.toNat_ofNat, Nat.mod_eq_of_lt hl]
    omega

theorem wInt (value min max : Word) : Statement (.wInt value min max) :=
  fun _ => ⟨0x00000015, [value, min, max], rfl, by decide, rfl⟩

theorem rNew (base capacityBytes : Word) : Statement (.rNew base capacityBytes) :=
  fun _ => ⟨0x00000020, [base, capacityBytes], rfl, by decide, rfl⟩

theorem rBits (len : BitVec 6) : Statement (.rBits len) :=
  fun _ => ⟨lenHeader 0x21 len, [], rfl, by rw [rowOf_lenHeader.2]; rfl, by
    simp only [commandWords, rowOf_lenHeader.2, Format.operandWords, encode, List.length_cons, List.length_nil]⟩

theorem rAlign : Statement .rAlign := fun _ => ⟨0x00000023, [], rfl, by decide, rfl⟩

theorem rBytes (n : BitVec 24) : Statement (.rBytes n) :=
  fun _ => ⟨countHeader 0x24 n, [], rfl, by rw [rowOf_rBytes]; rfl, by
    simp only [commandWords, rowOf_rBytes, Format.operandWords, encode, List.length_singleton]⟩

theorem rInt (min max : Word) : Statement (.rInt min max) :=
  fun _ => ⟨0x00000025, [min, max], rfl, by decide, rfl⟩

end HeaderTellsLength

end Sys2Proof.Laws
end

