-- ==== Sys2Proof/Laws/Step.lean ====
section
/-! SUPPORT. What a step can do, said once, and how the words at the command port are read. -/

namespace Sys2Proof.Machine

@[simp] theorem pendingWords_nil : pendingWords [] = [] := rfl

@[simp] theorem pendingWords_word (w : Word) (rest : List HostMove) :
    pendingWords (.word w :: rest) = w :: pendingWords rest := rfl

@[simp] theorem wordMoves_nil : wordMoves [] = [] := rfl

@[simp] theorem wordMoves_cons (w : Word) (ws : List Word) : wordMoves (w :: ws) = .word w :: wordMoves ws := rfl

@[simp] theorem wordMoves_length (ws : List Word) : (wordMoves ws).length = ws.length := by simp [wordMoves]

/-- The words offered first stand before the words offered after them. -/
theorem pendingWords_wordMoves_append (ws : List Word) (more : List HostMove) :
    pendingWords (wordMoves ws ++ more) = ws ++ pendingWords more := by
  induction ws with
  | nil => rfl
  | cons w rest ih => simp [ih]

@[simp] theorem offer_nil : offer [] = .idle := rfl

@[simp] theorem offer_storeByte (a : Nat) (b : Byte) (rest : List HostMove) :
    offer (.storeByte a b :: rest) = .storeByte a b := rfl

@[simp] theorem offer_storeWord (i : Nat) (v : Word) (rest : List HostMove) :
    offer (.storeWord i v :: rest) = .storeWord i v := rfl

@[simp] theorem offer_reset (rest : List HostMove) : offer (.reset :: rest) = .reset := rfl

/-- A header that is no command is offered as such, whatever follows it. -/
theorem offer_illegal {w : Word} (h : rowOf w = none) (rest : List HostMove) : offer (.word w :: rest) = .illegal := by
  simp [offer, decode, h]

/-- What the port offers when its words decode to a command. -/
theorem offer_command {inbox : List HostMove} {i : Instr} {rest : List Word}
    (h : decode (pendingWords inbox) = .ok (i, rest)) :
    offer inbox = .command i ((pendingWords inbox).length - rest.length) := by
  match inbox with
  | [] => simp [decode] at h
  | .word w :: more => simp only [offer, h]
  | .storeByte _ _ :: _ => simp [pendingWords, decode] at h
  | .storeWord _ _ :: _ => simp [pendingWords, decode] at h
  | .reset :: _ => simp [pendingWords, decode] at h

theorem hostStoreByte_next {a : Nat} {b : Byte} {s t : State} (h : hostStoreByte a b s = .next t) :
    a < 4 * s.memWords ∧ t = { s with mem := s.mem.writeByte a b } := by
  unfold hostStoreByte at h
  split at h
  · exact ⟨‹_›, by simpa using h.symm⟩
  · cases h

theorem hostStoreWord_next {i : Nat} {v : Word} {s t : State} (h : hostStoreWord i v s = .next t) :
    i < s.memWords ∧ t = { s with mem := s.mem.writeWord i v } := by
  unfold hostStoreWord at h
  split at h
  · rename_i u hu
    obtain rfl : u = t := by simpa using h
    exact State.storeWord_eq_some.mp hu
  · cases h

/-- Everything a step that answers a next state can have done. -/
theorem step_next {s t : State} (h : step s = .next t) :
    (offer s.inbox = .idle ∧ t = s) ∨
      (∃ i taken, offer s.inbox = .command i taken ∧ exec i (s.take taken) = .next t) ∨
      (offer s.inbox = .illegal ∧ t = (s.take 1).raise .illegalCommand) ∨
      (∃ a b, offer s.inbox = .storeByte a b ∧ a < 4 * s.memWords ∧
        t = { s with inbox := s.inbox.drop 1, mem := s.mem.writeByte a b }) ∨
      (∃ i v, offer s.inbox = .storeWord i v ∧ i < s.memWords ∧
        t = { s with inbox := s.inbox.drop 1, mem := s.mem.writeWord i v }) ∨
      (offer s.inbox = .reset ∧ t = (s.take 1).hardReset) := by
  unfold step at h
  split at h
  · exact .inl ⟨‹_›, by simpa using h.symm⟩
  · exact .inr (.inl ⟨_, _, ‹_›, h⟩)
  · exact .inr (.inr (.inl ⟨‹_›, by simpa [illegalHeader] using h.symm⟩))
  · cases h
  · exact .inr (.inr (.inr (.inl ⟨_, _, ‹_›, hostStoreByte_next h⟩)))
  · exact .inr (.inr (.inr (.inr (.inl ⟨_, _, ‹_›, hostStoreWord_next h⟩))))
  · exact .inr (.inr (.inr (.inr (.inr ⟨‹_›, by simpa using h.symm⟩))))

end Sys2Proof.Machine
end

