-- ==== Sys2Proof/Tests/Slice0.lean ====
section
/-! SUPPORT. The model's own tests. Expected values are those of spec/95_test_vectors.md and of the worked examples in
the rule files, copied out, never the model's answers. Then a witness for each statement that has hypotheses. -/

namespace Sys2Proof.Tests

open Sys2Proof Sys2Proof.Machine

/-! ## Small machines -/

/-- `MEM` holding the given words from word 0 on. -/
def image (ws : List Word) : Memory := (List.range ws.length).foldl (fun m i => m.writeWord i (ws.getD i 0)) []

/-- A machine after reset whose `MEM` holds exactly the given words. -/
def machine (ws : List Word) : State := { State.reset with memWords := ws.length, mem := image ws }

/-- The machine of 95_test_vectors.md: four words of `0xDEADBEEF`. -/
def dead4 : State := machine [0xDEADBEEF, 0xDEADBEEF, 0xDEADBEEF, 0xDEADBEEF]

/-- The state after some commands. -/
def after (is : List Instr) (s : State) : State := ((trace is s).getD []).getLastD s

/-- The next state of a command; the state itself if there is none. -/
def run (i : Instr) (s : State) : State :=
  match exec i s with
  | .next t => t
  | .fault _ => s
  | .refused _ => s

/-- The writer's cursor: scratch, scratch_bits, word_index, bits_written, fault. -/
def wCursor (s : State) : Nat × Nat × Nat × Nat × Nat :=
  (s.w.scratch.toNat, s.w.scratchBits.toNat, s.w.wordIndex.toNat, s.w.bitsWritten.toNat, s.w.fault.toNat)

/-- The reader's cursor: scratch, scratch_bits, word_index, bits_read. -/
def rCursor (s : State) : Nat × Nat × Nat × Nat :=
  (s.r.scratch.toNat, s.r.scratchBits.toNat, s.r.wordIndex.toNat, s.r.bitsRead.toNat)

/-- The words of the last response. -/
def answer (s : State) : List Word := (s.response.map Response.words).getD []

/-! ## WellFormed -/

theorem test_wellFormed_refuses_long_byte_string : (Instr.wBytes (List.replicate (2 ^ 24) 0)).wellFormed = false := by
  have h : (List.replicate (2 ^ 24) (0 : Byte)).length = 2 ^ 24 := List.length_replicate
  simp only [Instr.wellFormed, h, lt_irrefl, decide_false]

theorem test_wellFormed_accepts_len_63 : (Instr.wBits 0 63).wellFormed = true := by decide

/-! ## Decode: words written out from 30_encoding.md R91 to R97 and 95_test_vectors.md group T-X -/

theorem test_decode_cPopcnt : decode [0x00000001, 0xF0F00001] = .ok (.cPopcnt 0xF0F00001, []) := by decide
theorem test_decode_cBitsreq : decode [0x00000002, 0xFFFFFFFB, 0x0000000A] = .ok (.cBitsreq (-5) 10, []) := by decide
theorem test_decode_wNew : decode [0x00000010, 0x00000004, 0x0000000C] = .ok (.wNew 4 12, []) := by decide
theorem test_decode_wBits : decode [0x00000611, 0x0000002B] = .ok (.wBits 0x2B 6, []) := by decide
theorem test_decode_wBits_len_63 : decode [0x00003F11, 0x00000007] = .ok (.wBits 7 63, []) := by decide
theorem test_decode_wFlush : decode [0x00000012] = .ok (.wFlush, []) := by decide
theorem test_decode_wAlign : decode [0x00000013] = .ok (.wAlign, []) := by decide
theorem test_decode_wBytes :
    decode [0x00000514, 0x6C6C6568, 0xAABBCC6F, 0x12] = .ok (.wBytes [0x68, 0x65, 0x6C, 0x6C, 0x6F], [0x12]) := by
  decide
theorem test_decode_wInt :
    decode [0x00000015, 0xFFFFFFFD, 0xFFFFFFFB, 0x0000000A] = .ok (.wInt (-3) (-5) 10, []) := by decide
theorem test_decode_rNew : decode [0x00000020, 0x00000000, 0x00000008] = .ok (.rNew 0 8, []) := by decide
theorem test_decode_rBits : decode [0x00002021] = .ok (.rBits 32, []) := by decide
theorem test_decode_rAlign : decode [0x00000023] = .ok (.rAlign, []) := by decide
theorem test_decode_rBytes : decode [0xFFFFFF24] = .ok (.rBytes 0xFFFFFF, []) := by decide
theorem test_decode_rInt : decode [0x00000025, 0xFFFFFFFB, 0x0000000A] = .ok (.rInt (-5) 10, []) := by decide

theorem test_decode_illegal_headers :
    ([0x00000000, 0x00000003, 0x00000022, 0x00000116, 0x000000FF, 0x00000112, 0x01000010, 0x00004011,
      0x00010021] : List Word).map (fun h => decode [h]) = List.replicate 9 (.error .illegalCommand) := by decide

theorem test_decode_incomplete : decode [0x00000015, 0x00000000] = .error .incompleteCommand := by decide

theorem test_commandWords :
    ([0x00003F11, 0x00002011, 0x00000014, 0x00000114, 0x00000414, 0x00000514, 0xFFFFFF14, 0xFFFFFF24, 0x00000015,
      0x00000025, 0x00000112] : List Word).map commandWords = [2, 2, 1, 2, 2, 3, 4194305, 1, 4, 3, 1] := by
  decide +kernel

theorem test_decodeTableWord : decodeTableWord 64 0x000000070000FFFF = none ∧
    decodeTableWord 64 0x0000000700002011 = some (.wBits 7 32) := by decide

/-! ## Assembly lines (30_encoding.md R103, R107) -/

theorem test_assemble_pseudo :
    assembleText "ws.bytes 0x68, 101 ; two bytes" = .ok ⟨[.wAlign, .wBytes [0x68, 0x65]], false⟩ := by decide
theorem test_assemble_empty_bytes : assembleText "w.bytes" = .ok ⟨[.wBytes []], false⟩ := by decide
theorem test_assemble_len_warning : assembleText "r.bits 33" = .ok ⟨[.rBits 33], true⟩ := by decide
theorem test_assemble_len_refused : assembleText "w.bits 1, 64" = .error .outOfRange := by decide

/-! ## One step of each command -/

theorem test_popcnt : answer (run (.cPopcnt 0xF0F00001) dead4) = [0, 9] := by decide
theorem test_popcnt_all_ones : answer (run (.cPopcnt 0xFFFFFFFF) dead4) = [0, 32] := by decide

theorem test_bitsreq : answer (run (.cBitsreq (-5) 10) dead4) = [0, 4] := by decide
theorem test_bitsreq_reversed : answer (run (.cBitsreq 0x7FFFFFFF 0x80000000) dead4) = [7] := by decide

/-- 41_bitwriter.md R131: `w.new 4, 12` with `MEM_WORDS >= 7`. -/
theorem test_wNew :
    let t := run (.wNew 4 12) (machine (List.replicate 7 0))
    (answer t, t.w.base.toNat, t.w.numWords.toNat, t.w.numBits.toNat, t.w.bound) = ([0], 4, 3, 96, true) := by decide
theorem test_wNew_fails : (answer (run (.wNew 0 10) dead4), answer (run (.wNew 0 20) dead4)) = ([1], [8]) := by decide

/-- The state of the example of 41_bitwriter.md R132. -/
def straddling : State :=
  let s := after [.wNew 0 16] dead4
  { s with w := { s.w with scratch := 0x0ABCDEF1, scratchBits := 28, wordIndex := 2, bitsWritten := 92 } }

theorem test_wBits_straddle :
    let t := run (.wBits 0x3FF 9) straddling
    (answer t, wCursor t, t.mem.wordAt 2) = ([0], (0x1F, 5, 3, 101, 0), 0xFABCDEF1) := by decide

/-- 41_bitwriter.md R133. -/
theorem test_wFlush :
    let t := run .wFlush (run (.wBits 0x3FF 9) straddling)
    (answer t, wCursor t, t.mem.wordAt 3) = ([0], (0, 0, 4, 101, 0), 0x0000001F) := by decide
/-- 95_test_vectors.md T-W2: accepting bits after a partial flush. -/
theorem test_desync :
    let t := run (.wBits 1 1) (run .wFlush (run (.wBits 0x3FF 9) straddling))
    (answer t, wCursor t) = ([12], (0, 0, 4, 101, 12)) := by decide

/-- 41_bitwriter.md R135. -/
theorem test_wAlign : wCursor (run .wAlign (after [.wNew 0 8, .wBits 5 3] dead4)) = (5, 8, 0, 8, 0) := by decide
/-- 95_test_vectors.md T-W5: a padding that completes a word. -/
theorem test_wAlign_completes_word :
    let t := run .wAlign (after [.wNew 0 8, .wBits 0x1FFFFFF 25] dead4)
    (wCursor t, t.mem.wordAt 0) = ((0, 0, 1, 32, 0), 0x01FFFFFF) := by decide

/-- 41_bitwriter.md R136. -/
theorem test_wBytes :
    let t := run (.wBytes [1, 2, 3, 4, 5, 6, 7, 8, 9]) (after [.wNew 0 16, .wBits 0xAB 8] dead4)
    (wCursor t, t.mem.wordAt 0, t.mem.wordAt 1) = ((0x0908, 16, 2, 80, 0), 0x030201AB, 0x07060504) := by decide
/-- 95_test_vectors.md T-B2. -/
theorem test_wBytes_misaligned :
    let t := run (.wBytes []) (after [.wNew 0 8, .wBits 1 3] dead4)
    (answer t, wCursor t) = ([5], (1, 3, 0, 3, 5)) := by decide

/-- 95_test_vectors.md T-I1. -/
theorem test_wInt : wCursor (run (.wInt (-3) (-5) 10) (after [.wNew 0 16] dead4)) = (2, 4, 0, 4, 0) := by decide
/-- 95_test_vectors.md T-I2. -/
theorem test_wInt_equal_bounds :
    let t := run (.wInt 5 5 5) (after [.wNew 0 4] dead4)
    (answer t, wCursor t) = ([7], (0, 0, 0, 0, 7)) := by decide

/-- 42_bitreader.md R151; 95_test_vectors.md T-rule R4. -/
theorem test_rNew :
    let t := run (.rNew 0 8) dead4
    (answer t, t.r.numWords.toNat, t.r.numBits.toNat, t.r.bound) = ([0], 2, 64, true) := by decide
theorem test_rNew_fails : (answer (run (.rNew 0 10) dead4), answer (run (.rNew 2 12) dead4)) = ([1], [8]) := by decide

/-- The state of the example of 42_bitreader.md R152. -/
def refilling : State := after [.rNew 0 8, .rBits 28] (machine [0xFABCDEF1, 0x0000001F])

theorem test_rBits_refill :
    let t := run (.rBits 9) refilling
    (answer t, rCursor t) = ([0, 0x1FF], (0, 27, 2, 37)) := by decide
/-- 95_test_vectors.md T-rule R2: 32 bits with 31 staged. -/
theorem test_rBits_32_at_31 :
    let t := run (.rBits 32) (after [.rNew 0 8, .rBits 1] (machine [0x80000001, 0x00000003]))
    (answer t, rCursor t) = ([0, 0xC0000000], (1, 31, 2, 33)) := by decide

/-- 42_bitreader.md R154. -/
theorem test_rAlign_nonzero :
    let t := run .rAlign (after [.rNew 0 4, .rBits 3] (machine [0x00006865]))
    (answer t, rCursor t) = ([4], (0x68, 24, 1, 8)) := by decide
theorem test_rAlign_aligned : answer (run .rAlign (after [.rNew 0 4] (machine [0x00006865]))) = [0] := by decide

/-- 42_bitreader.md R155. -/
theorem test_rBytes :
    let t := run (.rBytes 5) (after [.rNew 0 8, .rBits 8] (machine [0x030201AB, 0x07060504]))
    (answer t, rCursor t) = ([0, 0x04030201, 0x00000005], (0x0706, 16, 2, 48)) := by decide
/-- 95_test_vectors.md T-rule R4. -/
theorem test_rBytes_overflow :
    let t := run (.rBytes 7) (after [.rNew 0 12, .rBits 8, .rBytes 5] (machine [0x030201AB, 0x07060504, 0x908]))
    (answer t, rCursor t) = ([3], (0x706, 16, 2, 48)) := by decide

/-- 43_stream_integer.md R172; 95_test_vectors.md T-I3: a result above `max`, and a sum that wraps. -/
theorem test_rInt_above_max :
    answer (run (.rInt 0 2) (after [.rNew 0 8, .rInt (-5) 10] (machine [0x0001FFFF, 0xFFFFFFFF]))) = [0, 3] := by
  decide
theorem test_rInt_wraps :
    answer (run (.rInt 1 0x7FFFFFFF) (after [.rNew 1 4, .rBits 1] (machine [0, 0xFFFFFFFF]))) = [0, 0x80000000] := by
  decide

/-! ## One step of the machine -/

theorem test_step_illegal_header :
    step { dead4 with inbox := [.word 0x112, .word 0x12] } =
      .next { dead4 with inbox := [.word 0x12], response := some ⟨.illegalCommand, []⟩ } := by rfl

theorem test_step_unread_memory_is_free :
    step { State.reset with memWords := 1, r := Reader.fresh 0 4, inbox := [.word 0x821] } =
      .next { State.reset with
        memWords := 1
        r := { Reader.fresh 0 4 with
          scratch := ((0#64 ||| ((wordOfBytes (Config.initialByte 0) (Config.initialByte 1) (Config.initialByte 2)
            (Config.initialByte 3)).setWidth 64 <<< 0)) >>> 8)
          scratchBits := 24, wordIndex := 1, bitsRead := 8 }
        response := some ⟨.ok, [((0#64 ||| ((wordOfBytes (Config.initialByte 0) (Config.initialByte 1)
          (Config.initialByte 2) (Config.initialByte 3)).setWidth 64 <<< 0)) &&& mask 8).setWidth 32]⟩ } := by rfl

theorem test_step_after_reset_runs_the_fetched_word :
    step (State.reset.withFetchWord 64 0x0000000F00000001) =
      .next { State.reset with response := some ⟨.ok, [4]⟩ } := by rfl

/-! ## Witnesses: states and operands that meet the hypotheses of each statement, each clause at its boundary -/

/-- A machine with the writer bound to all four words of `dead4`. -/
def bound4 : State := after [.wNew 0 16] dead4

/-- A machine whose reader stands at bit 40 of a buffer of two words, byte-aligned, with 24 bits staged. -/
def aligned40 : State := after [.rNew 0 8, .rBytes 5] (machine [0x030201AB, 0x07060504])

/-- A machine whose host has made the given moves. -/
def withInbox (inbox : List HostMove) (s : State) : State := { s with inbox := inbox }

theorem witness_DecodeEncodeRoundTrip :
    (Instr.wBytes (List.replicate (2 ^ 24 - 1) 0)).wellFormed = true ∧ (Instr.rBits 63).wellFormed = true := by
  have h : (List.replicate (2 ^ 24 - 1) (0 : Byte)).length = 2 ^ 24 - 1 := List.length_replicate
  refine ⟨?_, rfl⟩
  simp only [Instr.wellFormed, h]
  decide

theorem witness_AssemblerWritesTheWorkedEncodings :
    assembleText "w.flush" = .ok ⟨[.wFlush], false⟩ ∧ encode .wFlush = [0x00000012] := by decide

theorem witness_OpcodeRowsDisjoint :
    (⟨.rInt, .v2, 0xFFFFFFFF, 0x00000025⟩ : OpRow) ∈ opRows ∧
      OpRow.selects ⟨.rInt, .v2, 0xFFFFFFFF, 0x00000025⟩ 0x25 = true := by decide

theorem witness_IllegalHeadersAreThoseOfTheSpec :
    ([0x03, 0x112, 0x4011, 0x3F11, 0xFFFFFF14] : List Word).map (fun h => (rowOf h).isNone) =
      [true, true, true, false, false] := by decide

theorem witness_PayloadBytesAreLittleEndian :
    ([] : List Word).length = ((0 : BitVec 24).toNat + 3) / 4 ∧
      ([1, 2] : List Word).length = ((5 : BitVec 24).toNat + 3) / 4 := by decide

/-- A payload whose three unused high bytes are not 0, with and without words after it; then the encoder's own words. -/
theorem witness_StepRunsTheDecodedCommand :
    (decode (pendingWords (withInbox [.word 0x514, .word 0x04030201, .word 0xAABBCC05] bound4).inbox) =
        .ok (.wBytes [1, 2, 3, 4, 5], []) ∧
      decode (pendingWords (withInbox [.word 0x514, .word 0x04030201, .word 0xAABBCC05, .word 0x12, .reset]
        bound4).inbox) = .ok (.wBytes [1, 2, 3, 4, 5], [0x12])) ∧
      (Instr.wBytes [1, 2, 3, 4, 5]).wellFormed = true ∧
      (withInbox [.word 0x514, .word 0x04030201, .word 5, .reset] bound4).inbox =
        wordMoves (encode (.wBytes [1, 2, 3, 4, 5])) ++ [.reset] := by decide

theorem witness_IllegalHeaderChangesNothing :
    rowOf 0x112 = none ∧ (withInbox [.word 0x112] bound4).inbox = [.word 0x112] := by decide

theorem witness_HostStoresReachTheirBytes :
    (withInbox [.storeByte 15 7] dead4).inbox = [.storeByte 15 7] ∧ 15 < 4 * dead4.memWords ∧
      (withInbox [.storeWord 3 7] dead4).inbox = [.storeWord 3 7] ∧ 3 < dead4.memWords := by decide

theorem witness_HostErrorsAreRefusedByName :
    dead4.inbox = [] ∧
      (withInbox [.word 0x15, .word 1, .word 2] dead4).inbox = wordMoves ((encode (.wInt 1 2 3)).take 3) ∧
      3 < (encode (.wInt 1 2 3)).length ∧
      (withInbox [.storeByte 16 7] dead4).inbox = [.storeByte 16 7] ∧ 4 * dead4.memWords ≤ 16 ∧
      (withInbox [.storeWord 4 7] dead4).inbox = [.storeWord 4 7] ∧ dead4.memWords ≤ 4 := by decide

theorem witness_ResetUnbindsBothUnits :
    (withInbox [.reset] bound4).inbox = [.reset] ∧ Instr.wFlush.isWriterCommand = true ∧
      Instr.rAlign.isReaderCommand = true := by decide

theorem witness_SmearFillsBelowTheHighestBit :
    (0x80000000 : Word).getLsbD 31 = true ∧ ∀ j, 31 < j → (0x80000000 : Word).getLsbD j = false :=
  ⟨rfl, fun _ hj => BitVec.getLsbD_of_ge _ _ hj⟩

theorem witness_SmearFillsBelowTheHighestBit_one :
    (1 : Word).getLsbD 0 = true ∧ ∀ j, 0 < j → (1 : Word).getLsbD j = false :=
  ⟨rfl, fun j hj => by simp [BitVec.getLsbD_one]; omega⟩

theorem witness_BitlenIsTheBinaryLength : (1 : Word) ≠ 0 ∧ (0xFFFFFFFF : Word) ≠ 0 := by decide

/-- The smallest range, the largest one, and a reversed one. -/
theorem witness_BitsRequiredIsTheCeilingLog :
    s32 5 ≤ s32 5 ∧ s32 0x80000000 ≤ s32 0x7FFFFFFF ∧ s32 (-5) < s32 (-4) := by decide

theorem witness_BitsreqCommandAnswersTheCeilingLog :
    s32 0x80000000 ≤ s32 0x7FFFFFFF ∧ s32 0x80000000 < s32 0x7FFFFFFF ∧ s32 7 ≤ s32 7 := by decide

theorem witness_CalculatorHasNoState : Instr.cPopcnt 1 ∈ [Instr.cPopcnt 1, Instr.cBitsreq 2 3] := by decide

/-- The whole of `MEM`, and an empty buffer just above it. -/
theorem witness_WNewBindsAFreshWriter :
    dead4.memWords ≤ Config.maxMemWords ∧ (16 : Word).toNat % 4 = 0 ∧
      (0 : Word).toNat + (16 : Word).toNat / 4 ≤ dead4.memWords ∧
      (4 : Word).toNat + (0 : Word).toNat / 4 ≤ dead4.memWords := by decide

theorem witness_NewFailuresChangeNothing :
    Instr.wNew 0 10 ∈ [Instr.wNew 0 10, Instr.rNew 0 10] ∧ (10 : Word).toNat % 4 ≠ 0 ∧
      (20 : Word).toNat % 4 = 0 ∧ dead4.memWords < (0 : Word).toNat + (20 : Word).toNat / 4 := by decide

/-- No bits, 32 bits that just fit, and a field across a word boundary. -/
theorem witness_WBitsAppendsItsField :
    (bound4.Inv ∧ bound4.w.Open ∧ bound4.w.bitsWritten.toNat + (0 : BitVec 6).toNat ≤ bound4.w.numBits.toNat) ∧
      (let s := after [.wNew 3 4] dead4
       s.Inv ∧ s.w.Open ∧ s.w.bitsWritten.toNat + (32 : BitVec 6).toNat ≤ s.w.numBits.toNat) ∧
      straddling.Inv ∧ straddling.w.Open ∧
        straddling.w.bitsWritten.toNat + (32 : BitVec 6).toNat ≤ straddling.w.numBits.toNat :=
  ⟨by decide, by decide, by decide, by decide, by decide⟩

theorem witness_WFlushStoresThePartialWord :
    (bound4.Inv ∧ bound4.w.bound = true ∧ bound4.w.fault = 0 ∧ bound4.w.scratchBits = 0) ∧
      straddling.Inv ∧ straddling.w.bound = true ∧ straddling.w.fault = 0 ∧ straddling.w.scratchBits ≠ 0 :=
  ⟨by decide, by decide, by decide⟩

theorem witness_WAlignAppendsZeroPadding :
    (bound4.Inv ∧ bound4.w.Open) ∧ straddling.Inv ∧ straddling.w.Open := ⟨by decide, by decide, by decide⟩

/-- The empty string, and one that fills the buffer. -/
theorem witness_WBytesAppendsTheByteString :
    bound4.Inv ∧ bound4.w.Open ∧ bound4.w.bitsWritten.toNat % 8 = 0 ∧
      bound4.w.bitsWritten.toNat + 8 * ([] : List Byte).length ≤ bound4.w.numBits.toNat ∧
      bound4.w.bitsWritten.toNat + 8 * (List.replicate 16 (7 : Byte)).length ≤ bound4.w.numBits.toNat := by decide

/-- A value at the top of its range, and the whole signed range in the last word of a buffer. -/
theorem witness_WIntAppendsTheOffset :
    (straddling.Inv ∧ straddling.w.Open ∧ s32 (-5) < s32 10 ∧ s32 (-5) ≤ s32 10 ∧ s32 10 ≤ s32 10 ∧
      straddling.w.bitsWritten.toNat + Nat.clog 2 ((s32 10 - s32 (-5)).toNat + 1) ≤ straddling.w.numBits.toNat) ∧
      s32 0x80000000 < s32 0x7FFFFFFF ∧ (s32 0x7FFFFFFF - s32 0x80000000).toNat + 1 = 2 ^ 32 := by
  have h : (s32 10 - s32 (-5)).toNat + 1 = 2 ^ 4 := by decide
  rw [h, Nat.clog_pow 2 4 (by decide)]
  decide

theorem witness_WriterFailuresAreLatched :
    (exec (.wBits 0 33) straddling = .next (run (.wBits 0 33) straddling) ∧
      (run (.wBits 0 33) straddling).Answered .bitsRange []) ∧
      (exec .wFlush dead4 = .next (run .wFlush dead4) ∧ (run .wFlush dead4).Answered .notBound []) ∧
      (run (.wBits 0 33) straddling).w.bound = true ∧ (run (.wBits 0 33) straddling).w.fault ≠ 0 :=
  ⟨⟨rfl, by decide⟩, ⟨rfl, by decide⟩, by decide⟩

theorem witness_UnboundUnitsRefuse :
    Instr.wFlush.isWriterCommand = true ∧ dead4.w.bound = false ∧ Instr.rAlign.isReaderCommand = true ∧
      dead4.r.bound = false := by decide

theorem witness_PartialFlushEndsTheSession :
    (straddling.Inv ∧ straddling.w.bound = true ∧ straddling.w.fault = 0 ∧
      exec .wFlush straddling = .next (run .wFlush straddling) ∧ straddling.w.scratchBits ≠ 0) ∧
      bound4.Inv ∧ bound4.w.bound = true ∧ bound4.w.fault = 0 ∧
        exec .wFlush bound4 = .next (run .wFlush bound4) ∧ bound4.w.bitsWritten.toNat % 32 = 0 :=
  ⟨⟨by decide, rfl, rfl, rfl, by decide⟩, by decide, rfl, rfl, rfl, by decide⟩

/-- An alignment that fails, and one that succeeds. -/
theorem witness_AlignedByteWriteFailsAsAWhole :
    (exec .wAlign dead4 = .next (run .wAlign dead4) ∧ (run .wAlign dead4).Answered .notBound []) ∧
      exec .wAlign straddling = .next (run .wAlign straddling) ∧ (run .wAlign straddling).Answered .ok [] ∧
        straddling.Inv := ⟨⟨rfl, by decide⟩, rfl, by decide, by decide⟩

/-- A faulted writer bound again, a faulted writer reset, and an unbound one bound. -/
theorem witness_OnlyNewAndResetClearTheLatch :
    let f := run (.wBits 0 33) straddling
    let s1 := withInbox [.word 0x10, .word 0, .word 4] f
    let s2 := withInbox [.reset] f
    let s3 := withInbox [.word 0x10, .word 0, .word 4] dead4
    (∃ t, step s1 = .next t ∧ s1.w.fault ≠ 0 ∧ t.w.fault ≠ s1.w.fault) ∧
      (∃ t, step s2 = .next t ∧ s2.w.fault ≠ 0 ∧ t.w.fault ≠ s2.w.fault) ∧
      ∃ t, step s3 = .next t ∧ t.w.bound ≠ s3.w.bound :=
  ⟨⟨_, rfl, by decide, by decide⟩, ⟨_, rfl, by decide, by decide⟩, ⟨_, rfl, by decide⟩⟩

/-- A string that fills the buffer, and one a byte longer. -/
theorem witness_WBytesEqualsBytewiseWBits :
    let s := after [.wNew 0 8, .wBits 1 8] dead4
    let i := Instr.wBytes [1, 2, 3, 4, 5, 6, 7]
    (s.Inv ∧ exec i s = .next (run i s) ∧ (run i s).Answered .ok []) ∧ s.w.Open ∧
      s.w.bitsWritten.toNat % 8 = 0 ∧
      s.w.numBits.toNat < s.w.bitsWritten.toNat + 8 * (List.replicate 8 (0 : Byte)).length :=
  ⟨⟨by decide, rfl, by decide⟩, by decide, by decide, by decide⟩

theorem witness_OverflowFailsAtItsOwnField :
    let s := after [.wNew 0 8] dead4
    let fields : List (Word × BitVec 6) := [(1, 32), (2, 32)]
    s.Inv ∧ s.w = Writer.fresh 0 8 ∧ (∀ f ∈ fields, f.2.toNat ≤ 32) ∧
      (fields.map fun f => f.2.toNat).sum ≤ s.w.numBits.toNat ∧
      s.w.numBits.toNat < (fields.map fun f => f.2.toNat).sum + (1 : BitVec 6).toNat ∧
      ∀ i ∈ [Instr.wFlush], i.isWriterCommand = true :=
  ⟨by decide, by decide, by simp, by decide, by decide, by simp [Instr.isWriterCommand]⟩

theorem witness_WBitsExtendsTheStream :
    straddling.Inv ∧ exec (.wBits 0x3FF 9) straddling = .next (run (.wBits 0x3FF 9) straddling) ∧
      (run (.wBits 0x3FF 9) straddling).Answered .ok [] := ⟨by decide, rfl, by decide⟩

theorem witness_AcceptedBitsNeverChange :
    straddling.Inv ∧ Instr.wFlush.isWriterCommand = true ∧ exec .wFlush straddling = .next (run .wFlush straddling) :=
  ⟨by decide, rfl, rfl⟩

theorem witness_FlushPutsEveryAcceptedBitInMem :
    straddling.Inv ∧ straddling.w.Open ∧ exec .wFlush straddling = .next (run .wFlush straddling) ∧
      (run .wFlush straddling).Answered .ok [] := ⟨by decide, by decide, rfl, by decide⟩

theorem witness_RNewBindsAFreshReader :
    dead4.memWords ≤ Config.maxMemWords ∧ (16 : Word).toNat % 4 = 0 ∧
      (0 : Word).toNat + (16 : Word).toNat / 4 ≤ dead4.memWords ∧
      (4 : Word).toNat + (0 : Word).toNat / 4 ≤ dead4.memWords := by decide

/-- No bits; and 27 bits that reach the end of the buffer after a refill. -/
theorem witness_RBitsDeliversItsField :
    refilling.Inv ∧ refilling.r.bound = true ∧
      refilling.r.bitsRead.toNat + (0 : BitVec 6).toNat ≤ refilling.r.numBits.toNat ∧
      (32 : BitVec 6).toNat ≤ 32 ∧ refilling.r.bitsRead.toNat + (32 : BitVec 6).toNat ≤ refilling.r.numBits.toNat := by
  decide

theorem witness_RAlignConsumesThePadding :
    (refilling.Inv ∧ refilling.r.bound = true ∧ refilling.r.scratch.toNat % 2 ^ 4 ≠ 0) ∧
      aligned40.Inv ∧ aligned40.r.bound = true := ⟨by decide, by decide⟩

/-- No bytes, and the last three of the buffer. -/
theorem witness_RBytesDeliversTheByteString :
    aligned40.Inv ∧ aligned40.r.bound = true ∧ aligned40.r.bitsRead.toNat % 8 = 0 ∧
      aligned40.r.bitsRead.toNat + 8 * (0 : BitVec 24).toNat ≤ aligned40.r.numBits.toNat ∧
      aligned40.r.bitsRead.toNat + 8 * (3 : BitVec 24).toNat ≤ aligned40.r.numBits.toNat := by decide

theorem witness_RIntDeliversTheOffsetPlusMin :
    refilling.Inv ∧ refilling.r.bound = true ∧ s32 (-5) < s32 10 ∧
      refilling.r.bitsRead.toNat + Nat.clog 2 ((s32 10 - s32 (-5)).toNat + 1) ≤ refilling.r.numBits.toNat := by
  have h : (s32 10 - s32 (-5)).toNat + 1 = 2 ^ 4 := by decide
  rw [h, Nat.clog_pow 2 4 (by decide)]
  decide

theorem witness_ReaderFailuresChangeNothing :
    Instr.isReaderCommand (.rBytes 4) = true ∧ exec (.rBytes 4) aligned40 = .next (run (.rBytes 4) aligned40) ∧
      (run (.rBytes 4) aligned40).Answered .overflow [] := ⟨rfl, rfl, by decide⟩

theorem witness_RBitsDeliversTheStream :
    refilling.Inv ∧ refilling.readerFresh ∧ exec (.rBits 9) refilling = .next (run (.rBits 9) refilling) ∧
      (run (.rBits 9) refilling).Answered .ok [0x1FF] :=
  ⟨by decide, by unfold State.readerFresh; decide, rfl, by decide⟩

theorem witness_StagedBitsIgnoreLaterStores :
    (24 : BitVec 6).toNat ≤ aligned40.r.scratchBits.toNat ∧
      exec (.rBits 24) aligned40 = .next (run (.rBits 24) aligned40) := ⟨by decide, rfl⟩

theorem witness_FourByteReadsEqualOneWordLoad :
    let s := after [.rNew 3 4] dead4
    s.r.scratch = 0 ∧ s.r.scratchBits = 0 ∧ s.r.slot < s.memWords := by decide

theorem witness_RangeEncodingRoundTrips :
    (s32 0x80000000 < s32 0x7FFFFFFF ∧ s32 0x80000000 ≤ s32 0x7FFFFFFF ∧ s32 0x7FFFFFFF ≤ s32 0x7FFFFFFF) ∧
      s32 6 < s32 7 ∧ s32 6 ≤ s32 6 ∧ s32 6 ≤ s32 7 := by decide

/-- The writer at stream position 3 writes `-3` in `[-5, 10]`; the reader has read three bits of the flushed word. -/
theorem witness_RangeIntegerRoundTrips :
    let s := after [.wNew 0 4, .wBits 5 3] dead4
    let t := run (.wInt (-3) (-5) 10) s
    let u := run .wFlush t
    let q := (after [.rNew 0 4, .rBits 3] u).r
    s.Inv ∧ exec (.wInt (-3) (-5) 10) s = .next t ∧ t.Answered .ok [] ∧ exec .wFlush t = .next u ∧
      u.Answered .ok [] ∧ q.bound = true ∧ q.Inv u.memWords ∧ q.base = s.w.base ∧ q.numWords = s.w.numWords ∧
      q.bitsRead = s.w.bitsWritten ∧ State.readerFresh { u with r := q } :=
  ⟨by decide, rfl, by decide, rfl, by decide, by decide, by decide, by decide, by decide, by decide,
    by unfold State.readerFresh; decide⟩

theorem witness_SessionRoundTrips :
    let fields : List Field := [.bits 5 3, .align, .bytes [1, 2, 3], .int (-3) (-5) 10]
    let cmds := Instr.wNew 0 8 :: (fields.map Field.write ++ [.wFlush])
    dead4.memWords ≤ Config.maxMemWords ∧ (∀ f ∈ fields, f.write.wellFormed = true) ∧
      (trace cmds dead4).isSome = true ∧ ∀ t ∈ (trace cmds dead4).getD [], t.Answered .ok [] := by decide

theorem witness_UnitsShareOnlyMem :
    (Instr.isWriterCommand (.wBits 1 1) = true ∧ exec (.wBits 1 1) bound4 = .next (run (.wBits 1 1) bound4)) ∧
      Instr.isReaderCommand (.rBits 9) = true ∧ exec (.rBits 9) refilling = .next (run (.rBits 9) refilling) :=
  ⟨⟨rfl, rfl⟩, rfl, rfl⟩

/-- A writer that has just been bound; a closed writer; a reader with staged bits. -/
theorem witness_EveryStepKeepsTheInvariant :
    let s := withInbox [.word 0x12] straddling
    (s.Inv ∧ step s = .next (run .wFlush { s with inbox := [] })) ∧ (run .wFlush straddling).Inv ∧ refilling.Inv :=
  ⟨⟨by decide, rfl⟩, by decide, by decide⟩

theorem witness_EveryCommandCompletesWithItsStatus : straddling.Inv ∧ aligned40.Inv :=
  ⟨by decide, by decide⟩

theorem witness_StatusMatrixHolds :
    refilling.Inv ∧ exec .rAlign refilling = .next (run .rAlign refilling) := ⟨by decide, rfl⟩

theorem witness_ResponsesHaveTheirShape :
    exec (.rBytes 3) aligned40 = .next (run (.rBytes 3) aligned40) ∧
      exec (.rBytes 4) aligned40 = .next (run (.rBytes 4) aligned40) := ⟨rfl, rfl⟩

end Sys2Proof.Tests
end

section
/-! PROOFS. O8: what a step does with the words of a command. The decoder undoes the encoder (30_encoding.md R91 to
R95), so the words an encoded command takes at the port are its own. -/

namespace Sys2Proof

/-! ## The decoder undoes the encoder -/

@[simp] theorem headerLen_lenHeader (op : Byte) (len : BitVec 6) : headerLen (lenHeader op len) = len := by
  apply BitVec.eq_of_getLsbD_eq
  intro i hi
  rw [headerLen, BitVec.getLsbD_extractLsb', lenHeader, BitVec.getLsbD_append, BitVec.getLsbD_append]
  simp [hi]

/-- A word gives back the four bytes it was made of (20_memory.md R61). -/
@[simp] theorem bytesOfWord_wordOfBytes (a b c d : Byte) : bytesOfWord (wordOfBytes a b c d) = [a, b, c, d] := by
  have ha := a.isLt
  have hb := b.isLt
  have hc := c.isLt
  have hbyte (k : Nat) (x : Byte) (h : Machine.leNat [a, b, c, d] / 2 ^ (8 * k) % 256 = x.toNat) :
      byteOfWord (wordOfBytes a b c d) k = x :=
    BitVec.eq_of_toNat_eq (by rw [Machine.byteOfWord_toNat, Machine.wordOfBytes_toNat, h])
  simp only [Machine.leNat] at hbyte
  rw [bytesOfWord, hbyte 0 a (by omega), hbyte 1 b (by omega), hbyte 2 c (by omega), hbyte 3 d (by omega)]

/-- A byte string is read back from the words it is packed into; the pad bytes are dropped (30_encoding.md R94). -/
theorem unpackBytes_packBytes (data : List Byte) : unpackBytes data.length (packBytes data) = data := by
  match data with
  | [] => rfl
  | [_] | [_, _] | [_, _, _] => simp [unpackBytes, packBytes]
  | a :: b :: c :: d :: rest =>
    have ih := unpackBytes_packBytes rest
    simp only [unpackBytes] at ih
    simp [unpackBytes, packBytes, ih]

/-! `assemble` on the operations that read a field of their header. -/

@[simp] theorem assemble_wBits (h value : Word) : assemble .wBits h [value] = some (.wBits value (headerLen h)) := rfl
@[simp] theorem assemble_rBits (h : Word) : assemble .rBits h [] = some (.rBits (headerLen h)) := rfl
@[simp] theorem assemble_rBytes (h : Word) : assemble .rBytes h [] = some (.rBytes (headerCount h)) := rfl
@[simp] theorem assemble_wBytes (h : Word) (payload : List Word) :
    assemble .wBytes h payload = some (.wBytes (unpackBytes (headerCount h).toNat payload)) := rfl

/-- A command whose header selects its row decodes from its own words when the row's format asks for as many operand
words as it has, and these assemble to it. -/
theorem decode_encode_of_rowOf {i : Instr} {h : Word} {args : List Word} {r : OpRow} (he : encode i = h :: args)
    (hr : rowOf h = some r) (hn : args.length = r.format.operandWords h) (ha : assemble r.op h args = some i)
    (rest : List Word) : decode (encode i ++ rest) = .ok (i, rest) := by
  have hlen : ¬ (args ++ rest).length < args.length := by simp
  simp only [he, List.cons_append, decode, hr, ← hn, if_neg hlen, List.take_left, List.drop_left, ha]

/-- Every well-formed command decodes from its own words, whatever words follow (30_encoding.md R95, R98). -/
theorem decode_encode_append {i : Instr} (hw : i.wellFormed = true) (rest : List Word) :
    decode (encode i ++ rest) = .ok (i, rest) := by
  cases i with
  | cPopcnt _ | cBitsreq _ _ | wNew _ _ | wFlush | wAlign | wInt _ _ _ | rNew _ _ | rAlign | rInt _ _ =>
    exact decode_encode_of_rowOf rfl rfl rfl rfl rest
  | wBits _ len =>
    exact decode_encode_of_rowOf rfl (Laws.rowOf_lenHeader.1 len) rfl (by simp) rest
  | wBytes data =>
    have hl : data.length % 2 ^ 24 = data.length := Nat.mod_eq_of_lt (by simpa [Instr.wellFormed] using hw)
    refine decode_encode_of_rowOf rfl (Laws.rowOf_wBytes _) ?_ ?_ rest
    · simp only [Format.operandWords, Laws.headerCount_countHeader, Laws.packBytes_length, BitVec.toNat_ofNat, hl]
    · simp only [assemble_wBytes, Laws.headerCount_countHeader, BitVec.toNat_ofNat, hl, unpackBytes_packBytes]
  | rBits len => exact decode_encode_of_rowOf rfl (Laws.rowOf_lenHeader.2 len) rfl (by simp) rest
  | rBytes n => exact decode_encode_of_rowOf rfl (Laws.rowOf_rBytes n) rfl (by simp) rest

end Sys2Proof

namespace Sys2Proof.Machine

/-! ## The step on a command -/

/-- A step on words that decode to a command executes it with the words it takes dropped (30_encoding.md R95). -/
theorem step_of_decode {s : State} {i : Instr} {rest : List Word}
    (h : decode (pendingWords s.inbox) = .ok (i, rest)) :
    step s = exec i (s.take ((pendingWords s.inbox).length - rest.length)) := by
  simp only [step, offer_command h]

/-- A step on the encoder's words executes the command with exactly those words dropped. -/
theorem step_of_encode {s : State} {i : Instr} {more : List HostMove} (hw : i.wellFormed = true)
    (hs : s.inbox = wordMoves (encode i) ++ more) : step s = exec i { s with inbox := more } := by
  have hp : pendingWords s.inbox = encode i ++ pendingWords more := by rw [hs, pendingWords_wordMoves_append]
  have hd : decode (pendingWords s.inbox) = .ok (i, pendingWords more) := by rw [hp, decode_encode_append hw]
  have htaken : (pendingWords s.inbox).length - (pendingWords more).length = (wordMoves (encode i)).length := by
    simp [hp]
  rw [step_of_decode hd, State.take, htaken, hs, List.drop_left]

/-- Settles O8: the port offers the decoded command, and the decoder undoes the encoder. -/
theorem stepRunsTheDecodedCommand : Obligations.StepRunsTheDecodedCommand :=
  ⟨fun _ _ _ h => step_of_decode h, fun _ _ _ hw hs => step_of_encode hw hs⟩

end Sys2Proof.Machine
end

section
/-! PROOFS. O55: every command completes on a state that meets the invariant. A unit that passes its admission is
*ready*; each datapath step of a ready unit completes and leaves it ready, because the words its cursor names lie in
its buffer (41_bitwriter.md R138, 42_bitreader.md R157). -/

namespace Sys2Proof.Machine

/-! ## Field widths -/

/-- Of the lowest `n` bits of a word at most `n` are set. -/
theorem sum_bits_le (x : Word) (n : Nat) : ((List.range n).map fun i => (x.getLsbD i).toNat).sum ≤ n := by
  induction n with
  | zero => rfl
  | succ n ih =>
    have := Bool.toNat_le (x.getLsbD n)
    rw [List.range_succ, List.map_append, List.sum_append, List.map_singleton, List.sum_singleton]
    omega

/-- A word whose top bit is clear has at most 31 bits set. -/
theorem popcount_le_of_msb {x : Word} (h : x.getLsbD 31 = false) : popcount x ≤ 31 := by
  rw [popcount, List.range_succ, List.map_append, List.sum_append, List.map_singleton, List.sum_singleton, h,
    Bool.toNat_false, Nat.add_zero]
  exact sum_bits_le x 31

/-- A bit length is at most the width of a word (40_bitmath.md R122). -/
theorem bitlen_le (d : Word) : bitlen d ≤ 32 := by
  have htop : (smear d >>> 1).getLsbD 31 = false := by
    rw [BitVec.getLsbD_ushiftRight]
    exact BitVec.getLsbD_of_ge _ _ (by norm_num)
  rw [bitlen]
  split
  · exact Nat.zero_le _
  · exact Nat.succ_le_succ (popcount_le_of_msb htop)

/-- A range field is at most 32 bits wide (40_bitmath.md R125). -/
theorem bitsRequired_le (min max : Word) : bitsRequired min max ≤ 32 := by
  rw [bitsRequired]
  split
  · omega
  · exact bitlen_le _

/-- The contract of `W_INT` as one proposition (43_stream_integer.md R171). -/
theorem rangeHolds_eq (value min max : Word) :
    rangeHolds value min max = decide (s32 min < s32 max ∧ s32 min ≤ s32 value ∧ s32 value ≤ s32 max) := by
  simp [rangeHolds, rangeOk, Bool.and_assoc]

/-- The padding ends at the next byte boundary. -/
theorem padding_lt (bits : BitVec 32) : padding bits < 8 := Nat.mod_lt _ (by norm_num)

/-! ## Completions and tests -/

/-- The command completes, and its response carries the status. -/
def Result.CompletesWith (o : Result) (st : Status) : Prop := ∃ t, o = .next t ∧ t.status = some st

/-- The status of a command whose own effect answers `OK`: that of the first test that holds (60_exceptions.md R188). -/
def testStatus (tests : List (Bool × Status)) : Status := (firstRaise tests).getD .ok

@[simp] theorem testStatus_nil : testStatus [] = .ok := rfl

@[simp] theorem testStatus_cons (c : Bool) (st : Status) (rest : List (Bool × Status)) :
    testStatus ((c, st) :: rest) = if c then st else testStatus rest := by
  cases c <;> rfl

@[simp] theorem State.respond_status (s : State) (st : Status) (data : List Word) :
    (s.respond st data).status = some st := rfl

@[simp] theorem State.raise_status (s : State) (st : Status) : (s.raise st).status = some st := rfl

@[simp] theorem State.raiseLatched_status (s : State) (st : Status) : (s.raiseLatched st).status = some st := rfl

/-- A response with a status completes with it. -/
theorem completesWith_respond (s : State) (st : Status) (data : List Word) :
    Result.CompletesWith (.next (s.respond st data)) st := ⟨_, rfl, rfl⟩

/-- A guarded command completes with the first status raised, or as its effect does when no test holds. -/
theorem guarded_completesWith {tests : List (Bool × Status)} {raised : Status → State} {effect : Result}
    {st : Status} (hraised : ∀ st, (raised st).status = some st)
    (heffect : firstRaise tests = none → Result.CompletesWith effect st) :
    Result.CompletesWith (guarded tests raised effect) ((firstRaise tests).getD st) := by
  cases h : firstRaise tests with
  | none => simpa [guarded_none h] using heffect h
  | some st' => exact ⟨raised st', guarded_some h raised effect, hraised st'⟩

/-- A test that fails whenever the tests before it do can be left out (60_exceptions.md R182, "u"). -/
theorem firstRaise_append_unreachable {tests : List (Bool × Status)} {c : Bool} {st : Status}
    (h : firstRaise tests = none → c = false) : firstRaise (tests ++ [(c, st)]) = firstRaise tests := by
  rw [firstRaise_append]
  cases ht : firstRaise tests with
  | none => simp [h ht, firstRaise_nil]
  | some _ => rfl

/-- A writer passes `waccept` when it takes more bits (41_bitwriter.md R130). -/
theorem Writer.firstRaise_waccept {w : Writer} : firstRaise w.waccept = none ↔ w.Open := by
  simp [firstRaise_eq_none, -firstRaise_cons, Writer.waccept, Writer.wadmit, Writer.Open]

theorem Reader.firstRaise_radmit {r : Reader} : firstRaise r.radmit = none ↔ r.bound = true := by
  simp [firstRaise_eq_none, -firstRaise_cons, Reader.radmit]

/-! ## A ready writer -/

/-- The writer can take bits: it meets its invariant, in sync, and `MEM_WORDS` is in its range. -/
structure State.WriterReady (s : State) : Prop where
  memWords : s.memWords ≤ Config.maxMemWords
  inv : s.w.BoundInv s.memWords
  sync : s.w.sync = true

/-- `t` is ready again, with its writer `n` bits further on than that of `s`. -/
structure WriterAdvanced (s t : State) (n : Nat) : Prop where
  ready : t.WriterReady
  numBits : t.w.numBits = s.w.numBits
  bitsWritten : t.w.bitsWritten.toNat = s.w.bitsWritten.toNat + n

theorem WriterAdvanced.refl {s : State} (h : s.WriterReady) : WriterAdvanced s s 0 := ⟨h, rfl, rfl⟩

theorem WriterAdvanced.trans {s t u : State} {m n : Nat} (h : WriterAdvanced s t m) (k : WriterAdvanced t u n) :
    WriterAdvanced s u (m + n) :=
  ⟨k.ready, k.numBits.trans h.numBits, by rw [k.bitsWritten, h.bitsWritten, Nat.add_assoc]⟩

/-- A bound writer meets the bound writer's invariant. -/
theorem State.Inv.writer {s : State} (h : s.Inv) (hb : s.w.bound = true) : s.w.BoundInv s.memWords := by
  obtain ⟨-, ⟨-, hw⟩ | hw, -⟩ := h
  · exact hw
  · simp [hw, Writer.reset] at hb

theorem State.Inv.writerReady {s : State} (h : s.Inv) (ho : s.w.Open) : s.WriterReady := by
  obtain ⟨hb, -, hs⟩ := ho
  exact ⟨h.1.2, h.writer hb, hs⟩

/-- The arithmetic of a ready writer's cursor (10_state.md R28, R29). -/
theorem State.WriterReady.cursor {s : State} (h : s.WriterReady) :
    s.w.base.toNat + s.w.numWords.toNat ≤ s.memWords ∧ s.memWords ≤ 134217727 ∧
      s.w.numBits.toNat = 32 * s.w.numWords.toNat ∧ s.w.bitsWritten.toNat ≤ s.w.numBits.toNat ∧
      s.w.scratchBits.toNat ≤ 31 ∧ 32 * s.w.wordIndex.toNat + s.w.scratchBits.toNat = s.w.bitsWritten.toNat := by
  obtain ⟨hm, ⟨⟨hbase, hbits⟩, hwritten, hstaged, -⟩, hs⟩ := h
  exact ⟨hbase, hm, hbits, hwritten, hstaged, Writer.sync_iff.mp hs⟩

/-- A write that fits and completes a word has a word slot (41_bitwriter.md R138). -/
theorem State.WriterReady.noSlot {s : State} (h : s.WriterReady) {len : Nat}
    (hfit : s.w.bitsWritten.toNat + len ≤ s.w.numBits.toNat) : s.w.noSlot len = false := by
  have := h.cursor
  simp only [Writer.noSlot, Bool.and_eq_false_imp, decide_eq_true_eq, decide_eq_false_iff_not]
  omega

/-- Staging a field that fits and completes no word keeps the invariant (41_bitwriter.md R134). -/
theorem State.WriterReady.stage {s : State} (h : s.WriterReady) (v : Word) {len : Nat}
    (hfit : s.w.bitsWritten.toNat + len ≤ s.w.numBits.toNat) (hpart : s.w.scratchBits.toNat + len < 32) :
    (s.w.stage v len).BoundInv s.memWords ∧ (s.w.stage v len).sync = true := by
  obtain ⟨-, ⟨hbuf, -, hstaged, hscratch, hword, -, hfault⟩, hsync⟩ := h
  rw [Writer.sync_iff] at hsync
  have hl : len ≤ 32 := by omega
  have hcount := Writer.stage_scratchBits_toNat (v := v) hstaged hl
  have hwritten : (s.w.stage v len).bitsWritten.toNat = s.w.bitsWritten.toNat + len :=
    Writer.stage_bitsWritten_toNat (by have := s.w.numBits.isLt; omega)
  have hs : (s.w.stage v len).sync = true := by
    rw [Writer.sync_iff, hcount, hwritten, Writer.stage_wordIndex]
    omega
  have hlow := Writer.stage_scratch_lt (v := v) hstaged hscratch hl
  exact ⟨⟨hbuf, by rwa [hwritten], by omega, by rwa [hcount], hword, .inl hs, hfault⟩, hs⟩

/-- Staging a field that fits and flushing the word it completes keeps the invariant; the word's slot lies in `MEM`
(41_bitwriter.md R134, R138). -/
theorem State.WriterReady.stage_shiftOut {s : State} (h : s.WriterReady) (v : Word) {len : Nat} (hl : len ≤ 32)
    (hfit : s.w.bitsWritten.toNat + len ≤ s.w.numBits.toNat) (hfull : 32 ≤ s.w.scratchBits.toNat + len) :
    s.w.slot < s.memWords ∧ (s.w.stage v len).shiftOut.BoundInv s.memWords ∧
      (s.w.stage v len).shiftOut.sync = true := by
  obtain ⟨hbase, hm, hbits, -, hstaged, hsync⟩ := h.cursor
  obtain ⟨-, ⟨hbuf, -, -, hscratch, -, -, hfault⟩, -⟩ := h
  have hcount : (s.w.stage v len).shiftOut.scratchBits.toNat = s.w.scratchBits.toNat + len - 32 := by
    have hstage := Writer.stage_scratchBits_toNat (v := v) hstaged hl
    rw [Writer.shiftOut_scratchBits_toNat (by omega), hstage]
  have hwritten : (s.w.stage v len).shiftOut.bitsWritten.toNat = s.w.bitsWritten.toNat + len :=
    Writer.stage_bitsWritten_toNat (v := v) (by omega)
  have hword : (s.w.stage v len).shiftOut.wordIndex.toNat = s.w.wordIndex.toNat + 1 :=
    Writer.shiftOut_wordIndex_toNat (by rw [Writer.stage_wordIndex]; omega)
  have hs : (s.w.stage v len).shiftOut.sync = true := by
    rw [Writer.sync_iff, hcount, hword, hwritten]
    omega
  have hlow : (s.w.stage v len).shiftOut.scratch.toNat < 2 ^ (s.w.scratchBits.toNat + len - 32) := by
    rw [Writer.shiftOut_scratch_toNat]
    refine Nat.div_lt_of_lt_mul ?_
    rw [← Nat.pow_add, Nat.add_sub_cancel' hfull]
    exact Writer.stage_scratch_lt hstaged hscratch hl
  refine ⟨by rw [Writer.slot]; omega, ⟨hbuf, by rwa [hwritten], by omega, by rwa [hcount], ?_, .inl hs, hfault⟩, hs⟩
  rw [hword, Writer.shiftOut_numWords, Writer.stage_numWords]
  omega

/-- `wbits` of a field that fits completes and leaves the writer ready (41_bitwriter.md R134, R138). -/
theorem State.WriterReady.wbits {s : State} (h : s.WriterReady) (v : Word) {len : Nat} (hl : len ≤ 32)
    (hfit : s.w.bitsWritten.toNat + len ≤ s.w.numBits.toNat) :
    ∃ t, s.wbits v len = some t ∧ WriterAdvanced s t len := by
  obtain ⟨-, -, -, -, hstaged, -⟩ := h.cursor
  have hcount := Writer.stage_scratchBits_toNat (v := v) hstaged hl
  have hwritten : (s.w.stage v len).bitsWritten.toNat = s.w.bitsWritten.toNat + len :=
    Writer.stage_bitsWritten_toNat (by have := s.w.numBits.isLt; omega)
  by_cases hpart : s.w.scratchBits.toNat + len < 32
  · obtain ⟨hinv, hs⟩ := h.stage v hfit hpart
    exact ⟨_, State.wbits_eq_some.mpr (.inl ⟨by omega, rfl⟩), ⟨h.memWords, hinv, hs⟩, rfl, hwritten⟩
  · obtain ⟨hslot, hinv, hs⟩ := h.stage_shiftOut v hl hfit (by omega)
    exact ⟨_, State.wbits_eq_some.mpr (.inr ⟨by omega, hslot, rfl⟩), ⟨h.memWords, hinv, hs⟩, rfl, hwritten⟩

/-- The head and tail phases of a string that fits complete (41_bitwriter.md R136). -/
theorem State.WriterReady.wbytes {s : State} (h : s.WriterReady) (data : List Byte)
    (hfit : s.w.bitsWritten.toNat + 8 * data.length ≤ s.w.numBits.toNat) :
    ∃ t, s.wbytes data = some t ∧ WriterAdvanced s t (8 * data.length) := by
  induction data generalizing s with
  | nil => exact ⟨s, rfl, .refl h⟩
  | cons b rest ih =>
    rw [List.length_cons] at hfit
    obtain ⟨u, hu, hadv⟩ := h.wbits (b.setWidth 32) (len := 8) (by norm_num) (by omega)
    obtain ⟨t, ht, hadv'⟩ := ih hadv.ready (by rw [hadv.bitsWritten, hadv.numBits]; omega)
    refine ⟨t, State.wbytes_cons.mpr ⟨u, hu, ht⟩, ?_⟩
    rw [List.length_cons, Nat.mul_succ, Nat.add_comm]
    exact hadv.trans hadv'

/-- One bulk store of a word that fits completes (41_bitwriter.md R136). -/
theorem State.WriterReady.storeSkip {s : State} (h : s.WriterReady) (v : Word)
    (hfit : s.w.bitsWritten.toNat + 32 ≤ s.w.numBits.toNat) :
    ∃ t, s.storeSlot v s.w.skipWord = some t ∧ WriterAdvanced s t 32 := by
  obtain ⟨hbase, hm, hbits, -, hstaged, hsync⟩ := h.cursor
  obtain ⟨hmem, ⟨hbuf, -, -, hscratch, hword, -, hfault⟩, -⟩ := h
  have hslot : s.w.slot < s.memWords := by rw [Writer.slot]; omega
  have hword' := Writer.skipWord_wordIndex_toNat (w := s.w) (by omega)
  have hwritten := Writer.skipWord_bitsWritten_toNat (w := s.w) (by omega)
  have hs : s.w.skipWord.sync = true := by
    rw [Writer.sync_iff, hword', hwritten, Writer.skipWord_scratchBits]
    omega
  refine ⟨_, State.storeSlot_of_lt hslot v _, ⟨hmem, ?_, hs⟩, rfl, hwritten⟩
  refine ⟨hbuf, by rw [hwritten]; exact hfit, hstaged, hscratch, ?_, .inl hs, hfault⟩
  rw [hword']
  show _ ≤ s.w.numWords.toNat
  omega

/-- The bulk phase of a string that fits completes; it takes the whole words of the string (41_bitwriter.md R136). -/
theorem State.WriterReady.wbulk {s : State} (h : s.WriterReady) (data : List Byte)
    (hfit : s.w.bitsWritten.toNat + 8 * data.length ≤ s.w.numBits.toNat) :
    ∃ t, s.wbulk data = some t ∧ WriterAdvanced s t (32 * (data.length / 4)) := by
  match data with
  | [] | [_] | [_, _] | [_, _, _] => exact ⟨s, rfl, by simpa using WriterAdvanced.refl h⟩
  | b0 :: b1 :: b2 :: b3 :: rest =>
    simp only [List.length_cons] at hfit ⊢
    obtain ⟨u, hu, hadv⟩ := h.storeSkip (wordOfBytes b0 b1 b2 b3) (by omega)
    obtain ⟨t, ht, hadv'⟩ := hadv.ready.wbulk rest (by rw [hadv.bitsWritten, hadv.numBits]; omega)
    refine ⟨t, State.wbulk_cons.mpr ⟨u, hu, ht⟩, ?_⟩
    rw [show 32 * ((rest.length + 1 + 1 + 1 + 1) / 4) = 32 + 32 * (rest.length / 4) by omega]
    exact hadv.trans hadv'

/-- The three phases of `W_BYTES` take the whole string (41_bitwriter.md R136). -/
theorem phases_length (bits : BitVec 32) (data : List Byte) :
    8 * (headBytes bits data).length + 32 * ((bulkBytes bits data).length / 4) + 8 * (tailBytes bits data).length =
        8 * data.length ∧
      (bulkBytes bits data).length = 4 * ((bulkBytes bits data).length / 4) := by
  have hhead : headCount bits data.length ≤ data.length := Nat.min_le_left _ _
  simp only [headBytes, bulkBytes, tailBytes, bulkWords, List.length_take, List.length_drop]
  omega

/-- The three phases of a string that fits complete (41_bitwriter.md R136). -/
theorem State.WriterReady.phases {s : State} (h : s.WriterReady) (data : List Byte)
    (hfit : s.w.bitsWritten.toNat + 8 * data.length ≤ s.w.numBits.toNat) :
    ∃ t, ((s.wbytes (headBytes s.w.bitsWritten data)).bind (State.wbulk (bulkBytes s.w.bitsWritten data))).bind
        (State.wbytes (tailBytes s.w.bitsWritten data)) = some t ∧ WriterAdvanced s t (8 * data.length) := by
  obtain ⟨hlen, hwhole⟩ := phases_length s.w.bitsWritten data
  obtain ⟨u, hu, hhead⟩ := h.wbytes (headBytes s.w.bitsWritten data) (by omega)
  obtain ⟨v, hv, hbulk⟩ := hhead.ready.wbulk (bulkBytes s.w.bitsWritten data)
    (by rw [hhead.bitsWritten, hhead.numBits]; omega)
  have hboth := hhead.trans hbulk
  obtain ⟨t, ht, htail⟩ := hboth.ready.wbytes (tailBytes s.w.bitsWritten data)
    (by rw [hboth.bitsWritten, hboth.numBits]; omega)
  exact ⟨t, by simp only [hu, Option.bind_some, hv, ht], hlen ▸ hboth.trans htail⟩

/-- The padding of a ready writer fits: the capacity is a whole number of bytes (41_bitwriter.md R135). -/
theorem State.WriterReady.padding_fits {s : State} (h : s.WriterReady) :
    s.w.bitsWritten.toNat + padding s.w.bitsWritten ≤ s.w.numBits.toNat := by
  have := h.cursor
  rw [padding]
  omega

/-- A bound writer with staged bits has a word slot for them, in `MEM` (41_bitwriter.md R138). -/
theorem Writer.BoundInv.staged_slot {w : Writer} {memWords : Nat} (h : w.BoundInv memWords) (hs : w.scratchBits ≠ 0) :
    w.wordIndex.toNat < w.numWords.toNat ∧ w.slot < memWords := by
  obtain ⟨⟨hbase, hbits⟩, hwritten, -, -, -, hsync | ⟨hclosed, -⟩, -⟩ := h
  · have hpos : w.scratchBits.toNat ≠ 0 := fun h0 => hs (BitVec.eq_of_toNat_eq h0)
    have := Writer.sync_iff.mp hsync
    rw [Writer.slot]
    omega
  · exact absurd hclosed hs

/-! ## A ready reader -/

/-- The reader can deliver bits: it meets its invariant, and `MEM_WORDS` is in its range. -/
structure State.ReaderReady (s : State) : Prop where
  memWords : s.memWords ≤ Config.maxMemWords
  inv : s.r.BoundInv s.memWords

/-- `t` is ready again, with its reader `n` bits further on than that of `s`. -/
structure ReaderAdvanced (s t : State) (n : Nat) : Prop where
  ready : t.ReaderReady
  numBits : t.r.numBits = s.r.numBits
  bitsRead : t.r.bitsRead.toNat = s.r.bitsRead.toNat + n

theorem State.Inv.readerReady {s : State} (h : s.Inv) (hb : s.r.bound = true) : s.ReaderReady := by
  obtain ⟨⟨-, hm⟩, -, ⟨-, hr⟩ | hr, -⟩ := h
  · exact ⟨hm, hr⟩
  · simp [hr, Reader.reset] at hb

/-- The arithmetic of a ready reader's cursor (10_state.md R36, R37). -/
theorem State.ReaderReady.cursor {s : State} (h : s.ReaderReady) :
    s.r.base.toNat + s.r.numWords.toNat ≤ s.memWords ∧ s.memWords ≤ 134217727 ∧
      s.r.numBits.toNat = 32 * s.r.numWords.toNat ∧ s.r.wordIndex.toNat ≤ s.r.numWords.toNat ∧
      s.r.scratchBits.toNat ≤ 31 ∧ 32 * s.r.wordIndex.toNat = s.r.bitsRead.toNat + s.r.scratchBits.toNat := by
  obtain ⟨hm, ⟨hbase, hbits⟩, -, hstaged, -, hword, hsync⟩ := h
  exact ⟨hbase, hm, hbits, hword, hstaged, hsync⟩

/-- A read that fits has a word to refill from (42_bitreader.md R157). -/
theorem State.ReaderReady.noSlot {s : State} (h : s.ReaderReady) {len : Nat}
    (hfit : s.r.bitsRead.toNat + len ≤ s.r.numBits.toNat) : s.r.noSlot len = false := by
  have := h.cursor
  simp only [Reader.noSlot, Bool.and_eq_false_imp, decide_eq_true_eq, decide_eq_false_iff_not]
  omega

/-- A string that fits has the words to refill from (42_bitreader.md R157). -/
theorem State.ReaderReady.bytesLoads_fit {s : State} (h : s.ReaderReady) {n : Nat}
    (hfit : s.r.bitsRead.toNat + 8 * n ≤ s.r.numBits.toNat) :
    s.r.wordIndex.toNat + bytesLoads s.r.scratchBits n ≤ s.r.numWords.toNat := by
  have := h.cursor
  rw [bytesLoads]
  split <;> omega

/-- The reader inside `rbits(len)`, between the refill and the extraction: as the invariant says, but with at least
`len` bits staged and at most 31 more (42_bitreader.md R153). -/
structure Reader.Filled (r : Reader) (memWords len : Nat) : Prop where
  buffer : bufferInv r.base r.numWords r.numBits memWords
  fits : r.bitsRead.toNat + len ≤ r.numBits.toNat
  enough : len ≤ r.scratchBits.toNat
  left : r.scratchBits.toNat - len ≤ 31
  scratch : r.scratch.toNat < 2 ^ r.scratchBits.toNat
  wordIndex : r.wordIndex.toNat ≤ r.numWords.toNat
  sync : 32 * r.wordIndex.toNat = r.bitsRead.toNat + r.scratchBits.toNat

/-- The extraction brings a filled reader back to its invariant, `len` bits further on (42_bitreader.md R153). -/
theorem Reader.Filled.consume {r : Reader} {memWords len : Nat} (h : r.Filled memWords len) :
    (r.consume len).BoundInv memWords ∧ (r.consume len).bitsRead.toNat = r.bitsRead.toNat + len := by
  obtain ⟨hbuf, hfit, henough, hleft, hscratch, hword, hsync⟩ := h
  have hcount := Reader.consume_scratchBits_toNat henough
  have hread := Reader.consume_bitsRead_toNat (r := r) (len := len) (by have := r.numBits.isLt; omega)
  refine ⟨⟨hbuf, by rwa [hread], by rwa [hcount], ?_, hword, ?_⟩, hread⟩
  · rw [hcount, Reader.consume_scratch_toNat]
    refine Nat.div_lt_of_lt_mul ?_
    rwa [← Nat.pow_add, Nat.add_sub_cancel' henough]
  · rw [hcount, hread, Reader.consume_wordIndex]
    omega

/-- Enough staged bits need no refill (42_bitreader.md R153). -/
theorem State.ReaderReady.filled {s : State} (h : s.ReaderReady) {len : Nat}
    (hfit : s.r.bitsRead.toNat + len ≤ s.r.numBits.toNat) (hlen : len ≤ s.r.scratchBits.toNat) :
    s.r.Filled s.memWords len := by
  obtain ⟨-, hbuf, -, hstaged, hscratch, hword, hsync⟩ := h
  exact ⟨hbuf, hfit, hlen, by omega, hscratch, hword, hsync⟩

/-- A refill stages enough bits, from a word inside `MEM` (42_bitreader.md R153, R157). -/
theorem State.ReaderReady.filled_refill {s : State} (h : s.ReaderReady) (v : Word) {len : Nat} (hl : len ≤ 32)
    (hfit : s.r.bitsRead.toNat + len ≤ s.r.numBits.toNat) (hlen : s.r.scratchBits.toNat < len) :
    s.r.slot < s.memWords ∧ (s.r.refillWith v).Filled s.memWords len := by
  obtain ⟨hbase, hm, hbits, -⟩ := h.cursor
  obtain ⟨-, hbuf, -, hstaged, hscratch, -, hsync⟩ := h
  have hcount := Reader.refillWith_scratchBits_toNat (v := v) hstaged
  have hword := Reader.refillWith_wordIndex_toNat (r := s.r) (v := v) (by omega)
  have hlow : (s.r.refillWith v).scratch.toNat < 2 ^ (s.r.scratchBits.toNat + 32) := by
    rw [Reader.refillWith_scratch_toNat hstaged hscratch, ← Nat.mod_eq_of_lt v.isLt]
    exact staged_lt hscratch
  refine ⟨by rw [Reader.slot]; omega, hbuf, hfit, by omega, by omega, by rwa [hcount], ?_, ?_⟩
  · rw [hword, Reader.refillWith_numWords]
    omega
  · rw [hword, hcount, Reader.refillWith_bitsRead]
    omega

/-- `rbits` of a field that fits completes and leaves the reader ready (42_bitreader.md R153, R157). -/
theorem State.ReaderReady.rbits {s : State} (h : s.ReaderReady) {len : Nat} (hl : len ≤ 32)
    (hfit : s.r.bitsRead.toNat + len ≤ s.r.numBits.toNat) :
    ∃ out t, s.rbits len = some (out, t) ∧ ReaderAdvanced s t len := by
  by_cases hlen : len ≤ s.r.scratchBits.toNat
  · obtain ⟨hinv, hread⟩ := (h.filled hfit hlen).consume
    exact ⟨_, _, State.rbits_eq_some.mpr (.inl ⟨hlen, rfl, rfl⟩), ⟨h.memWords, hinv⟩, rfl, hread⟩
  · have hlen := Nat.lt_of_not_le hlen
    obtain ⟨hslot, hfilled⟩ := h.filled_refill (s.mem.wordAt s.r.slot) hl hfit hlen
    obtain ⟨hinv, hread⟩ := hfilled.consume
    exact ⟨_, _, State.rbits_eq_some.mpr (.inr ⟨hlen, hslot, rfl, rfl⟩), ⟨h.memWords, hinv⟩, rfl, hread⟩

/-- The extractions of a string that fits complete (42_bitreader.md R155). -/
theorem State.ReaderReady.rbytes {s : State} (h : s.ReaderReady) {n : Nat}
    (hfit : s.r.bitsRead.toNat + 8 * n ≤ s.r.numBits.toNat) : ∃ data t, s.rbytes n = some (data, t) := by
  induction n generalizing s with
  | zero => exact ⟨_, _, rfl⟩
  | succ n ih =>
    obtain ⟨v, u, hu, hadv⟩ := h.rbits (len := 8) (by norm_num) (by omega)
    obtain ⟨rest, t, ht⟩ := ih hadv.ready (by rw [hadv.bitsRead, hadv.numBits]; omega)
    exact ⟨_, t, State.rbytes_succ.mpr ⟨v, u, rest, hu, ht, rfl⟩⟩

/-- The padding of a ready reader is staged: words are fetched whole (42_bitreader.md R154). -/
theorem State.ReaderReady.padding_staged {s : State} (h : s.ReaderReady) :
    padding s.r.bitsRead ≤ s.r.scratchBits.toNat := by
  have := h.cursor
  rw [padding]
  omega

/-- The padding of a ready reader fits: all staged bits lie in the buffer (42_bitreader.md R154). -/
theorem State.ReaderReady.padding_fits {s : State} (h : s.ReaderReady) :
    s.r.bitsRead.toNat + padding s.r.bitsRead ≤ s.r.numBits.toNat := by
  have := h.cursor
  have := h.padding_staged
  omega

/-- The bits an extraction delivers are all zero when the low bits of the scratch are. -/
theorem Reader.front_eq_zero {r : Reader} {len : Nat} (hl : len ≤ 32) :
    r.front len = 0 ↔ r.scratch.toNat % 2 ^ len = 0 := by
  rw [← Reader.front_toNat hl, ← BitVec.toNat_inj]
  rfl

/-- The padding is extracted from the staged bits (42_bitreader.md R154). -/
theorem State.ReaderReady.rbits_padding {s : State} (h : s.ReaderReady) :
    s.rbits (padding s.r.bitsRead) =
      some (s.r.front (padding s.r.bitsRead), { s with r := s.r.consume (padding s.r.bitsRead) }) :=
  State.rbits_eq_some.mpr (.inl ⟨h.padding_staged, rfl, rfl⟩)

/-! ## Every command completes -/

theorem execCPopcnt_completes (x : Word) (s : State) :
    (execCPopcnt x s).CompletesWith (commandStatus (.cPopcnt x) s) := completesWith_respond _ _ _

theorem execCBitsreq_completes (min max : Word) (s : State) :
    (execCBitsreq min max s).CompletesWith (commandStatus (.cBitsreq min max) s) := by
  have hstatus : commandStatus (.cBitsreq min max) s = testStatus (bitsreqTests min max) := by
    simp [commandStatus, bitsreqTests]
  rw [hstatus]
  exact guarded_completesWith (State.raise_status s) fun _ => completesWith_respond _ _ _

/-- The tests of the two NEW commands give the status of the priority list (60_exceptions.md R188). -/
theorem testStatus_newTests (base cap : Word) (memWords : Nat) :
    testStatus (newTests base cap memWords) =
      if cap.toNat % 4 ≠ 0 then .invalidCapacity
      else if memWords < base.toNat + cap.toNat / 4 then .bufferBounds
      else .ok := by
  simp [newTests]

theorem execWNew_completes (base cap : Word) (s : State) :
    (execWNew base cap s).CompletesWith (commandStatus (.wNew base cap) s) := by
  rw [commandStatus, ← testStatus_newTests]
  exact guarded_completesWith (State.raise_status s) fun _ => completesWith_respond _ _ _

theorem execRNew_completes (base cap : Word) (s : State) :
    (execRNew base cap s).CompletesWith (commandStatus (.rNew base cap) s) := by
  rw [commandStatus, ← testStatus_newTests]
  exact guarded_completesWith (State.raise_status s) fun _ => completesWith_respond _ _ _

section WriterCommands

variable {s : State} (h : s.Inv)
include h

/-- A command that accepts `len` bits after a test `a` of its operands completes with the priority list less its
`BufferBounds` test `c`, when no write that fits fails `c` and every such write succeeds (41_bitwriter.md R138). -/
theorem State.Inv.accept_completes {a c : Bool} {st : Status} {len : Nat} {o : Option State}
    (hc : s.WriterReady → s.w.bitsWritten.toNat + len ≤ s.w.numBits.toNat → c = false)
    (ho : s.WriterReady → a = false → s.w.bitsWritten.toNat + len ≤ s.w.numBits.toNat → ∃ t, o = some t) :
    Result.CompletesWith
      (guarded (s.w.waccept ++ [(a, st), (s.w.tooLong len, .capacityExceeded), (c, .bufferBounds)])
        (fun st => s.raiseLatched st) (finishWrite o))
      (testStatus (s.w.waccept ++ [(a, st), (s.w.tooLong len, .capacityExceeded)])) := by
  have hpass (hn : firstRaise (s.w.waccept ++ [(a, st), (s.w.tooLong len, .capacityExceeded)]) = none) :
      s.WriterReady ∧ a = false ∧ s.w.bitsWritten.toNat + len ≤ s.w.numBits.toNat := by
    rw [firstRaise_append, Option.or_eq_none_iff] at hn
    obtain ⟨hopen, hrest⟩ := hn
    have hrest : a = false ∧ s.w.tooLong len = false := by simpa [firstRaise_eq_none, -firstRaise_cons] using hrest
    obtain ⟨ha, hfit⟩ := hrest
    exact ⟨h.writerReady (Writer.firstRaise_waccept.mp hopen), ha, by simpa [Writer.tooLong] using hfit⟩
  have hreach := firstRaise_append_unreachable (c := c) (st := .bufferBounds) fun hn =>
    let ⟨hready, _, hfit⟩ := hpass hn
    hc hready hfit
  rw [List.append_assoc, List.cons_append, List.cons_append, List.nil_append] at hreach
  rw [testStatus, ← hreach]
  refine guarded_completesWith (State.raiseLatched_status s) fun hn => ?_
  obtain ⟨hready, ha, hfit⟩ := hpass (hreach ▸ hn)
  obtain ⟨t, rfl⟩ := ho hready ha hfit
  exact completesWith_respond t .ok []

theorem execWBits_completes (value : Word) (len : BitVec 6) :
    (execWBits value len s).CompletesWith (commandStatus (.wBits value len) s) := by
  have hstatus : commandStatus (.wBits value len) s =
      testStatus (s.w.waccept ++
        [(decide (32 < len.toNat), .bitsRange), (s.w.tooLong len.toNat, .capacityExceeded)]) := by
    simp [commandStatus, Writer.waccept, Writer.wadmit, Writer.sync, Writer.tooLong]
  rw [hstatus]
  refine h.accept_completes (fun hready hfit => hready.noSlot hfit) fun hready hlen hfit => ?_
  obtain ⟨t, ht, -⟩ := hready.wbits value (by simpa using hlen) hfit
  exact ⟨t, ht⟩

theorem execWInt_completes (value min max : Word) :
    (execWInt value min max s).CompletesWith (commandStatus (.wInt value min max) s) := by
  have hstatus : commandStatus (.wInt value min max) s =
      testStatus (s.w.waccept ++
        [(!rangeHolds value min max, .rangeContract), (s.w.tooLong (bitsRequired min max), .capacityExceeded)]) := by
    simp [commandStatus, Writer.waccept, Writer.wadmit, Writer.sync, Writer.tooLong, rangeHolds_eq,
      -Bool.decide_and]
  rw [hstatus]
  refine h.accept_completes (fun hready hfit => hready.noSlot hfit) fun hready _ hfit => ?_
  obtain ⟨t, ht, -⟩ := hready.wbits (rangeEncode value min) (bitsRequired_le min max) hfit
  exact ⟨t, ht⟩

theorem execWBytes_completes (data : List Byte) :
    (execWBytes data s).CompletesWith (commandStatus (.wBytes data) s) := by
  have hstatus : commandStatus (.wBytes data) s =
      testStatus (s.w.waccept ++
        [(s.w.bitsWritten.toNat % 8 != 0, .misaligned), (s.w.tooLong (8 * data.length), .capacityExceeded)]) := by
    simp [commandStatus, Writer.waccept, Writer.wadmit, Writer.sync, Writer.tooLong]
  rw [hstatus]
  refine h.accept_completes (fun hready hfit => ?_) fun hready _ hfit => ?_
  · have := hready.cursor
    exact decide_eq_false (by omega)
  · obtain ⟨t, ht, -⟩ := hready.phases data hfit
    exact ⟨t, ht⟩

theorem execWFlush_completes : (execWFlush s).CompletesWith (commandStatus .wFlush s) := by
  have hadmit (hn : firstRaise s.w.wadmit = none) : s.w.BoundInv s.memWords := by
    rw [firstRaise_eq_none, Writer.wadmit] at hn
    exact h.writer (by simpa using hn (!s.w.bound, .notBound) (by simp))
  have hreach : firstRaise s.w.flushTests = firstRaise s.w.wadmit :=
    firstRaise_append_unreachable fun hn => by
      simp only [Bool.and_eq_false_imp, bne_iff_ne, decide_eq_false_iff_not, not_le]
      exact fun hs => ((hadmit hn).staged_slot hs).1
  have hstatus : commandStatus .wFlush s = testStatus s.w.flushTests := by
    rw [testStatus, hreach, ← testStatus]
    simp [commandStatus, Writer.wadmit]
  rw [hstatus]
  refine guarded_completesWith (State.raiseLatched_status s) fun hn => ?_
  split
  · exact completesWith_respond s .ok []
  · next hs =>
    rw [State.flushPartial, State.storeSlot_of_lt ((hadmit (hreach ▸ hn)).staged_slot hs).2]
    exact completesWith_respond _ .ok []

theorem execWAlign_completes : (execWAlign s).CompletesWith (commandStatus .wAlign s) := by
  have hready (hn : firstRaise s.w.waccept = none) : s.WriterReady :=
    h.writerReady (Writer.firstRaise_waccept.mp hn)
  have hfits (hn : firstRaise s.w.waccept = none) :
      (padding s.w.bitsWritten != 0 && s.w.tooLong (padding s.w.bitsWritten)) = false := by
    simp [Writer.tooLong, (hready hn).padding_fits]
  have hreach : firstRaise s.w.alignTests = firstRaise s.w.waccept := by
    rw [← firstRaise_append_unreachable hfits, Writer.alignTests, List.append_cons]
    refine firstRaise_append_unreachable fun hn => ?_
    rw [firstRaise_append_unreachable hfits] at hn
    rw [(hready hn).noSlot (hready hn).padding_fits, Bool.and_false]
  have hstatus : commandStatus .wAlign s = testStatus s.w.alignTests := by
    rw [testStatus, hreach, ← testStatus]
    simp [commandStatus, Writer.waccept, Writer.wadmit, Writer.sync]
  rw [hstatus]
  refine guarded_completesWith (State.raiseLatched_status s) fun hn => ?_
  split
  · exact completesWith_respond s .ok []
  · have hr := hready (hreach ▸ hn)
    obtain ⟨t, ht, -⟩ := hr.wbits 0 ((padding_lt _).le.trans (by norm_num)) hr.padding_fits
    rw [ht]
    exact completesWith_respond t .ok []

end WriterCommands

/-- The status of `R_ALIGN` in terms of the padding (42_bitreader.md R154). -/
theorem commandStatus_rAlign (s : State) : commandStatus .rAlign s =
    if s.r.bound = false then .notBound
    else if s.r.scratch.toNat % 2 ^ padding s.r.bitsRead ≠ 0 then .paddingNonZero
    else .ok := rfl

section ReaderCommands

variable {s : State} (h : s.Inv)
include h

/-- A command that delivers `len` bits after a test `a` of its operands completes with the priority list less its
`BufferBounds` test `c`, when no read that fits fails `c` and every such read answers `OK` (42_bitreader.md R157). -/
theorem State.Inv.deliver_completes {a c : Bool} {st : Status} {len : Nat} {effect : Result}
    (hc : s.ReaderReady → s.r.bitsRead.toNat + len ≤ s.r.numBits.toNat → c = false)
    (heffect : s.ReaderReady → a = false → s.r.bitsRead.toNat + len ≤ s.r.numBits.toNat → effect.CompletesWith .ok) :
    Result.CompletesWith
      (guarded (s.r.radmit ++ [(a, st), (s.r.tooLong len, .overflow), (c, .bufferBounds)])
        (fun st => s.raise st) effect)
      (testStatus (s.r.radmit ++ [(a, st), (s.r.tooLong len, .overflow)])) := by
  have hpass (hn : firstRaise (s.r.radmit ++ [(a, st), (s.r.tooLong len, .overflow)]) = none) :
      s.ReaderReady ∧ a = false ∧ s.r.bitsRead.toNat + len ≤ s.r.numBits.toNat := by
    rw [firstRaise_append, Option.or_eq_none_iff] at hn
    obtain ⟨hbound, hrest⟩ := hn
    have hrest : a = false ∧ s.r.tooLong len = false := by simpa [firstRaise_eq_none, -firstRaise_cons] using hrest
    obtain ⟨ha, hfit⟩ := hrest
    exact ⟨h.readerReady (Reader.firstRaise_radmit.mp hbound), ha, by simpa [Reader.tooLong] using hfit⟩
  have hreach := firstRaise_append_unreachable (c := c) (st := .bufferBounds) fun hn =>
    let ⟨hready, _, hfit⟩ := hpass hn
    hc hready hfit
  rw [List.append_assoc, List.cons_append, List.cons_append, List.nil_append] at hreach
  rw [testStatus, ← hreach]
  refine guarded_completesWith (State.raise_status s) fun hn => ?_
  obtain ⟨hready, ha, hfit⟩ := hpass (hreach ▸ hn)
  exact heffect hready ha hfit

theorem execRBits_completes (len : BitVec 6) :
    (execRBits len s).CompletesWith (commandStatus (.rBits len) s) := by
  have hstatus : commandStatus (.rBits len) s =
      testStatus (s.r.radmit ++ [(decide (32 < len.toNat), .bitsRange), (s.r.tooLong len.toNat, .overflow)]) := by
    simp [commandStatus, Reader.radmit, Reader.tooLong]
  rw [hstatus]
  refine h.deliver_completes (fun hready hfit => hready.noSlot hfit) fun hready hlen hfit => ?_
  obtain ⟨out, t, ht, -⟩ := hready.rbits (by simpa using hlen) hfit
  rw [ht]
  exact completesWith_respond t .ok [out]

theorem execRInt_completes (min max : Word) :
    (execRInt min max s).CompletesWith (commandStatus (.rInt min max) s) := by
  have hstatus : commandStatus (.rInt min max) s =
      testStatus (s.r.radmit ++
        [(!rangeOk min max, .rangeContract), (s.r.tooLong (bitsRequired min max), .overflow)]) := by
    simp [commandStatus, Reader.radmit, Reader.tooLong, rangeOk]
  rw [hstatus]
  refine h.deliver_completes (fun hready hfit => hready.noSlot hfit) fun hready _ hfit => ?_
  obtain ⟨u, t, ht, -⟩ := hready.rbits (bitsRequired_le min max) hfit
  rw [ht]
  exact completesWith_respond t .ok [rangeDecode u min]

theorem execRBytes_completes (n : BitVec 24) :
    (execRBytes n s).CompletesWith (commandStatus (.rBytes n) s) := by
  have hstatus : commandStatus (.rBytes n) s =
      testStatus (s.r.radmit ++
        [(s.r.bitsRead.toNat % 8 != 0, .misaligned), (s.r.tooLong (8 * n.toNat), .overflow)]) := by
    simp [commandStatus, Reader.radmit, Reader.tooLong]
  rw [hstatus]
  refine h.deliver_completes (fun hready hfit => ?_) fun hready _ hfit => ?_
  · exact decide_eq_false (Nat.not_lt.mpr (hready.bytesLoads_fit hfit))
  · obtain ⟨data, t, ht⟩ := hready.rbytes hfit
    rw [ht]
    exact completesWith_respond t .ok (packBytes data)

theorem execRAlign_completes : (execRAlign s).CompletesWith (commandStatus .rAlign s) := by
  have hready (hn : firstRaise s.r.radmit = none) : s.ReaderReady := h.readerReady (Reader.firstRaise_radmit.mp hn)
  have hfits (hn : firstRaise s.r.radmit = none) :
      (padding s.r.bitsRead != 0 && s.r.tooLong (padding s.r.bitsRead)) = false := by
    simp [Reader.tooLong, (hready hn).padding_fits]
  have hreach : firstRaise s.r.alignTests = firstRaise s.r.radmit := by
    rw [← firstRaise_append_unreachable hfits, Reader.alignTests, List.append_cons]
    refine firstRaise_append_unreachable fun hn => ?_
    rw [firstRaise_append_unreachable hfits] at hn
    rw [(hready hn).noSlot (hready hn).padding_fits, Bool.and_false]
  have hstatus : commandStatus .rAlign s =
      (firstRaise s.r.alignTests).getD
        (if s.r.scratch.toNat % 2 ^ padding s.r.bitsRead ≠ 0 then .paddingNonZero else .ok) := by
    cases hb : s.r.bound <;> simp [hreach, commandStatus_rAlign, Reader.radmit, firstRaise_nil, hb]
  rw [hstatus]
  refine guarded_completesWith (State.raise_status s) fun hn => ?_
  split
  · next hpad =>
    simpa [hpad, Nat.mod_one] using completesWith_respond s .ok []
  · rw [(hready (hreach ▸ hn)).rbits_padding]
    simp only [Reader.front_eq_zero ((padding_lt _).le.trans (by norm_num)), ne_eq, ite_not]
    exact completesWith_respond _ _ []

end ReaderCommands

/-- Settles O55: each unit's commands complete because their datapath steps find their words inside `MEM`. -/
theorem everyCommandCompletesWithItsStatus : Obligations.EveryCommandCompletesWithItsStatus := by
  intro i s h
  cases i with
  | cPopcnt x => exact execCPopcnt_completes x s
  | cBitsreq min max => exact execCBitsreq_completes min max s
  | wNew base cap => exact execWNew_completes base cap s
  | wBits value len => exact execWBits_completes h value len
  | wFlush => exact execWFlush_completes h
  | wAlign => exact execWAlign_completes h
  | wBytes data => exact execWBytes_completes h data
  | wInt value min max => exact execWInt_completes h value min max
  | rNew base cap => exact execRNew_completes base cap s
  | rBits len => exact execRBits_completes h len
  | rAlign => exact execRAlign_completes h
  | rBytes n => exact execRBytes_completes h n
  | rInt min max => exact execRInt_completes h min max

end Sys2Proof.Machine
end

section
/-! PROOFS. O12, O13, O22, O31, O52, O53, O54: the state of the block (10_state.md). Every writer command that `wadmit`
guards is a list of tests, a run of the writer's datapath and `respond OK`; every reader command is the same on its
side. What a run keeps is then said once for each unit: its frame, its blindness to the other unit, its invariant. -/

namespace Sys2Proof

open Machine

/-! ## The commands of a unit in one form -/

/-- The tests of a writer command (60_exceptions.md R188); for any other command the admission alone. -/
def Instr.writerTests (i : Instr) (w : Writer) : List (Bool × Status) :=
  match i with
  | .wBits _ len => w.bitsTests len.toNat
  | .wFlush => w.flushTests
  | .wAlign => w.alignTests
  | .wBytes data => w.bytesTests data.length
  | .wInt value min max => w.intTests value min max
  | .cPopcnt _ | .cBitsreq _ _ | .wNew _ _ | .rNew _ _ | .rBits _ | .rAlign | .rBytes _ | .rInt _ _ => w.wadmit

/-- The run of the writer's datapath that a writer command makes when no test holds (41_bitwriter.md R132 to R136,
43_stream_integer.md R171). -/
def Instr.writerRun (i : Instr) (s : State) : Option State :=
  match i with
  | .wBits value len => s.wbits value len.toNat
  | .wFlush => if s.w.scratchBits = 0 then some s else s.flushPartial
  | .wAlign => if padding s.w.bitsWritten = 0 then some s else s.wbits 0 (padding s.w.bitsWritten)
  | .wBytes data =>
    ((s.wbytes (headBytes s.w.bitsWritten data)).bind (State.wbulk (bulkBytes s.w.bitsWritten data))).bind
      (State.wbytes (tailBytes s.w.bitsWritten data))
  | .wInt value min max => s.wbits (rangeEncode value min) (bitsRequired min max)
  | .cPopcnt _ | .cBitsreq _ _ | .wNew _ _ | .rNew _ _ | .rBits _ | .rAlign | .rBytes _ | .rInt _ _ => none

/-- The tests of a reader command (60_exceptions.md R188); for any other command the admission alone. -/
def Instr.readerTests (i : Instr) (r : Reader) : List (Bool × Status) :=
  match i with
  | .rBits len => r.bitsTests len.toNat
  | .rAlign => r.alignTests
  | .rBytes n => r.bytesTests n.toNat
  | .rInt min max => r.intTests min max
  | .cPopcnt _ | .cBitsreq _ _ | .rNew _ _ => r.radmit
  | .wNew _ _ | .wBits _ _ | .wFlush | .wAlign | .wBytes _ | .wInt _ _ _ => r.radmit

/-- The run of the reader's datapath that a reader command makes when no test holds, with the response it gives
(42_bitreader.md R152 to R155, 43_stream_integer.md R172). -/
def Instr.readerRun (i : Instr) (s : State) : Option (Response × State) :=
  match i with
  | .rBits len => (s.rbits len.toNat).map fun p => (⟨.ok, [p.1]⟩, p.2)
  | .rAlign =>
    if padding s.r.bitsRead = 0 then some (⟨.ok, []⟩, s)
    else (s.rbits (padding s.r.bitsRead)).map fun p => (⟨if p.1 = 0 then .ok else .paddingNonZero, []⟩, p.2)
  | .rBytes n => (s.rbytes n.toNat).map fun p => (⟨.ok, packBytes p.1⟩, p.2)
  | .rInt min max => (s.rbits (bitsRequired min max)).map fun p => (⟨.ok, [rangeDecode p.1 min]⟩, p.2)
  | .cPopcnt _ | .cBitsreq _ _ | .rNew _ _ => none
  | .wNew _ _ | .wBits _ _ | .wFlush | .wAlign | .wBytes _ | .wInt _ _ _ => none

end Sys2Proof

namespace Sys2Proof.Machine

/-- A reader command that has done its work: its response, or the fault of a load outside `MEM`. -/
def finishRead : Option (Response × State) → Result
  | some (p, t) => .next (t.respond p.status p.data)
  | none => .fault .loadOutsideMem

theorem finishRead_next {o : Option (Response × State)} {t : State} (h : finishRead o = .next t) :
    ∃ p u, o = some (p, u) ∧ t = u.respond p.status p.data := by
  match o, h with
  | some (p, u), h => exact ⟨p, u, rfl, by simpa [finishRead] using h.symm⟩

/-- A writer command is its tests, the latch for the status they raise, and its run. -/
theorem exec_writer {i : Instr} (hi : i.isWriterCommand = true) (s : State) :
    exec i s = guarded (i.writerTests s.w) (fun st => s.raiseLatched st) (finishWrite (i.writerRun s)) := by
  cases i with
  | wBits | wFlush | wAlign | wBytes | wInt => rfl
  | cPopcnt | cBitsreq | wNew | rNew | rBits | rAlign | rBytes | rInt => cases hi

/-- A reader command is its tests, the response with the status they raise, and its run. -/
theorem exec_reader {i : Instr} (hi : i.isReaderCommand = true) (s : State) :
    exec i s = guarded (i.readerTests s.r) (fun st => s.raise st) (finishRead (i.readerRun s)) := by
  cases i with
  | rBits len =>
    simp only [exec, execRBits, Instr.readerTests, Instr.readerRun]
    cases s.rbits len.toNat <;> rfl
  | rAlign =>
    simp only [exec, execRAlign, Instr.readerTests, Instr.readerRun]
    split
    · rfl
    · cases s.rbits (padding s.r.bitsRead) <;> rfl
  | rBytes n =>
    simp only [exec, execRBytes, Instr.readerTests, Instr.readerRun]
    cases s.rbytes n.toNat <;> rfl
  | rInt min max =>
    simp only [exec, execRInt, Instr.readerTests, Instr.readerRun]
    cases s.rbits (bitsRequired min max) <;> rfl
  | cPopcnt | cBitsreq | wNew | wBits | wFlush | wAlign | wBytes | wInt | rNew => cases hi

/-! ## Unbound units -/

/-- The tests after one that holds are not made (60_exceptions.md R188). -/
theorem firstRaise_append_of_some {a : List (Bool × Status)} {st : Status} (h : firstRaise a = some st)
    (b : List (Bool × Status)) : firstRaise (a ++ b) = some st := by
  rw [firstRaise_append, h, Option.some_or]

/-- The first test of every writer command is whether the unit is bound (41_bitwriter.md R130). -/
theorem writerTests_unbound (i : Instr) {w : Writer} (hb : w.bound = false) :
    firstRaise (i.writerTests w) = some .notBound := by
  have hadmit : firstRaise w.wadmit = some .notBound := by simp [Writer.wadmit, hb]
  have haccept : firstRaise w.waccept = some .notBound := firstRaise_append_of_some hadmit _
  cases i with
  | wBits | wAlign | wBytes | wInt => exact firstRaise_append_of_some haccept _
  | wFlush => exact firstRaise_append_of_some hadmit _
  | cPopcnt | cBitsreq | wNew | rNew | rBits | rAlign | rBytes | rInt => exact hadmit

/-- The first test of every reader command is whether the unit is bound (42_bitreader.md R150). -/
theorem readerTests_unbound (i : Instr) {r : Reader} (hb : r.bound = false) :
    firstRaise (i.readerTests r) = some .notBound := by
  have hadmit : firstRaise r.radmit = some .notBound := by simp [Reader.radmit, hb]
  cases i with
  | rBits | rAlign | rBytes | rInt => exact firstRaise_append_of_some hadmit _
  | cPopcnt | cBitsreq | wNew | wBits | wFlush | wAlign | wBytes | wInt | rNew => exact hadmit

/-- Settles O31: the admission test comes first, and its status is not latched. -/
theorem unboundUnitsRefuse : Obligations.UnboundUnitsRefuse := by
  rintro i s (⟨hi, hb⟩ | ⟨hi, hb⟩)
  · rw [exec_writer hi, guarded_some (writerTests_unbound i hb)]
    rfl
  · rw [exec_reader hi, guarded_some (readerTests_unbound i hb)]
    rfl

/-! ## Reset, and the unit without state -/

/-- Settles O13: the fields as the definition of the reset state gives them. -/
theorem resetStateIsAllZero : Obligations.ResetStateIsAllZero := ⟨rfl, rfl, rfl⟩

/-- Settles O53: both units are as reset leaves them, `MEM` lists nothing, and the free `MEM_WORDS` is in its range. -/
theorem resetMeetsTheInvariant : Obligations.ResetMeetsTheInvariant :=
  ⟨⟨Nat.le_add_left 1 _, Config.memWordsPred.isLt⟩, .inr rfl, .inr rfl, .nil, fun _ hp => absurd hp List.not_mem_nil⟩

/-- Settles O12: the step is the reset event, and an unbound unit refuses. -/
theorem resetUnbindsBothUnits : Obligations.ResetUnbindsBothUnits := by
  intro s more hs
  have hstep : step s = .next (s.take 1).hardReset := by simp only [step, hs, offer_reset]
  refine ⟨_, hstep, ?_, ⟨rfl, rfl, rfl, rfl, rfl, rfl, rfl, rfl, rfl⟩, ⟨rfl, rfl, rfl, rfl, rfl, rfl, rfl, rfl⟩, ?_⟩
  · simp [State.ext_iff, hs]
  · exact fun i hi => unboundUnitsRefuse i _ (hi.imp (⟨·, rfl⟩) (⟨·, rfl⟩))

/-- Settles O22: the tests of `C_BITSREQ` and both results are functions of the operands. -/
theorem calculatorHasNoState : Obligations.CalculatorHasNoState := by
  intro s s' x min max i hi
  obtain rfl | rfl : i = .cPopcnt x ∨ i = .cBitsreq min max := by simpa using hi
  · exact ⟨_, rfl, rfl⟩
  · cases h : firstRaise (bitsreqTests min max) with
    | none => exact ⟨_, guarded_none h _ _, guarded_none h _ _⟩
    | some st => exact ⟨_, guarded_some h _ _, guarded_some h _ _⟩

/-! ## The frame of a run -/

/-- The phases of `W_BYTES` one after the other (41_bitwriter.md R136). -/
theorem phases_eq_some {head bulk tail : List Byte} {s t : State} :
    ((s.wbytes head).bind (State.wbulk bulk)).bind (State.wbytes tail) = some t ↔
      ∃ u v, s.wbytes head = some u ∧ u.wbulk bulk = some v ∧ v.wbytes tail = some t := by
  simp only [Option.bind_eq_some_iff]
  constructor
  · rintro ⟨v, ⟨u, hu, hv⟩, ht⟩
    exact ⟨u, v, hu, hv, ht⟩
  · rintro ⟨u, v, hu, hv, ht⟩
    exact ⟨v, ⟨u, hu, hv⟩, ht⟩

/-- The run of a writer command changes the writer's cursor and bytes inside `MEM` only (41_bitwriter.md R134). -/
theorem writerRun_frame {i : Instr} {s t : State} (h : i.writerRun s = some t) : WriterFrame s t := by
  cases i with
  | wBits | wInt => exact State.wbits_frame h
  | wFlush =>
    rw [Instr.writerRun] at h
    split at h
    · exact Option.some.inj h ▸ .refl s
    · exact State.flushPartial_frame h
  | wAlign =>
    rw [Instr.writerRun] at h
    split at h
    · exact Option.some.inj h ▸ .refl s
    · exact State.wbits_frame h
  | wBytes =>
    obtain ⟨u, v, hu, hv, ht⟩ := phases_eq_some.mp h
    exact ((State.wbytes_frame hu).trans (State.wbulk_frame hv)).trans (State.wbytes_frame ht)
  | cPopcnt | cBitsreq | wNew | rNew | rBits | rAlign | rBytes | rInt => cases h

/-- The run of a reader command changes the reader's cursor only (42_bitreader.md R153). -/
theorem readerRun_frame {i : Instr} {s t : State} {p : Response} (h : i.readerRun s = some (p, t)) :
    ReaderFrame s t := by
  cases i with
  | rBits | rInt =>
    obtain ⟨⟨out, u⟩, hu, he⟩ := Option.map_eq_some_iff.mp h
    cases he
    exact State.rbits_frame hu
  | rAlign =>
    rw [Instr.readerRun] at h
    split at h
    · cases h
      exact .refl s
    · obtain ⟨⟨out, u⟩, hu, he⟩ := Option.map_eq_some_iff.mp h
      cases he
      exact State.rbits_frame hu
  | rBytes =>
    obtain ⟨⟨out, u⟩, hu, he⟩ := Option.map_eq_some_iff.mp h
    cases he
    exact (State.rbytes_frame hu).1
  | cPopcnt | cBitsreq | wNew | wBits | wFlush | wAlign | wBytes | wInt | rNew => cases h

theorem ReaderFrame.w {s t : State} (h : ReaderFrame s t) : t.w = s.w := by rw [h.rest]
theorem ReaderFrame.mem {s t : State} (h : ReaderFrame s t) : t.mem = s.mem := by rw [h.rest]
theorem ReaderFrame.memWords {s t : State} (h : ReaderFrame s t) : t.memWords = s.memWords := by rw [h.rest]

/-! ## A run is blind to the other unit -/

/-- A guarded command on a changed state does the same, changed: when its tests are the same and both outcomes carry
the change over. -/
theorem guarded_next_map {tests : List (Bool × Status)} {raised raised' : Status → State} {effect effect' : Result}
    {t : State} (f : State → State) (h : guarded tests raised effect = .next t)
    (hraised : ∀ st, raised' st = f (raised st)) (heffect : effect = .next t → effect' = .next (f t)) :
    guarded tests raised' effect' = .next (f t) := by
  obtain ⟨st, hst, rfl⟩ | ⟨hn, he⟩ := guarded_next h
  · rw [guarded_some hst, hraised]
  · rw [guarded_none hn, heffect he]

section Blind

variable {s t : State}

theorem State.storeSlot_withReader {v : Word} {w : Writer} (q : Reader) (h : s.storeSlot v w = some t) :
    State.storeSlot v w { s with r := q } = some { t with r := q } := by
  obtain ⟨hslot, rfl⟩ := State.storeSlot_eq_some.mp h
  exact State.storeSlot_eq_some.mpr ⟨hslot, rfl⟩

theorem State.wbits_withReader {v : Word} {len : Nat} (q : Reader) (h : s.wbits v len = some t) :
    State.wbits v len { s with r := q } = some { t with r := q } := by
  refine State.wbits_eq_some.mpr ?_
  obtain ⟨hpart, rfl⟩ | ⟨hfull, hslot, rfl⟩ := State.wbits_eq_some.mp h
  · exact .inl ⟨hpart, rfl⟩
  · exact .inr ⟨hfull, hslot, rfl⟩

theorem State.wbytes_withReader {data : List Byte} (q : Reader) (h : s.wbytes data = some t) :
    State.wbytes data { s with r := q } = some { t with r := q } := by
  induction data generalizing s with
  | nil => exact Option.some.inj h ▸ rfl
  | cons b rest ih =>
    obtain ⟨u, hu, ht⟩ := State.wbytes_cons.mp h
    exact State.wbytes_cons.mpr ⟨_, State.wbits_withReader q hu, ih ht⟩

theorem State.wbulk_withReader {data : List Byte} {s t : State} (q : Reader) (h : s.wbulk data = some t) :
    State.wbulk data { s with r := q } = some { t with r := q } := by
  match data, h with
  | [], h | [_], h | [_, _], h | [_, _, _], h => exact Option.some.inj h ▸ rfl
  | _ :: _ :: _ :: _ :: rest, h =>
    obtain ⟨u, hu, ht⟩ := State.wbulk_cons.mp h
    exact State.wbulk_cons.mpr ⟨_, State.storeSlot_withReader q hu, State.wbulk_withReader q ht⟩

/-- The run of a writer command does not see the reader. -/
theorem writerRun_withReader {i : Instr} (q : Reader) (h : i.writerRun s = some t) :
    i.writerRun { s with r := q } = some { t with r := q } := by
  cases i with
  | wBits | wInt => exact State.wbits_withReader q h
  | wFlush =>
    rw [Instr.writerRun] at h ⊢
    split at h
    · next h0 => rw [if_pos h0, Option.some.inj h]
    · next h0 => rw [if_neg h0]; exact State.storeSlot_withReader q h
  | wAlign =>
    rw [Instr.writerRun] at h ⊢
    split at h
    · next h0 => rw [if_pos h0, Option.some.inj h]
    · next h0 => rw [if_neg h0]; exact State.wbits_withReader q h
  | wBytes =>
    obtain ⟨u, v, hu, hv, ht⟩ := phases_eq_some.mp h
    exact phases_eq_some.mpr
      ⟨_, _, State.wbytes_withReader q hu, State.wbulk_withReader q hv, State.wbytes_withReader q ht⟩
  | cPopcnt | cBitsreq | wNew | rNew | rBits | rAlign | rBytes | rInt => cases h

theorem State.rbits_withWriter {len : Nat} {out : Word} (q : Writer) (h : s.rbits len = some (out, t)) :
    State.rbits len { s with w := q } = some (out, { t with w := q }) := by
  refine State.rbits_eq_some.mpr ?_
  obtain ⟨hlen, rfl, rfl⟩ | ⟨hlen, hslot, rfl, rfl⟩ := State.rbits_eq_some.mp h
  · exact .inl ⟨hlen, rfl, rfl⟩
  · exact .inr ⟨hlen, hslot, rfl, rfl⟩

theorem State.rbytes_withWriter {n : Nat} {data : List Byte} (q : Writer) (h : s.rbytes n = some (data, t)) :
    State.rbytes n { s with w := q } = some (data, { t with w := q }) := by
  induction n generalizing s data with
  | zero =>
    cases h
    rfl
  | succ n ih =>
    obtain ⟨v, u, rest, hu, ht, hdata⟩ := State.rbytes_succ.mp h
    exact State.rbytes_succ.mpr ⟨v, _, rest, State.rbits_withWriter q hu, ih ht, hdata⟩

/-- The run of a reader command does not see the writer. -/
theorem readerRun_withWriter {i : Instr} {p : Response} (q : Writer) (h : i.readerRun s = some (p, t)) :
    i.readerRun { s with w := q } = some (p, { t with w := q }) := by
  cases i with
  | rBits | rInt =>
    obtain ⟨⟨out, u⟩, hu, he⟩ := Option.map_eq_some_iff.mp h
    cases he
    exact Option.map_eq_some_iff.mpr ⟨_, State.rbits_withWriter q hu, rfl⟩
  | rAlign =>
    rw [Instr.readerRun] at h ⊢
    split at h
    · next h0 =>
      cases h
      rw [if_pos h0]
    · next h0 =>
      obtain ⟨⟨out, u⟩, hu, he⟩ := Option.map_eq_some_iff.mp h
      cases he
      rw [if_neg h0]
      exact Option.map_eq_some_iff.mpr ⟨_, State.rbits_withWriter q hu, rfl⟩
  | rBytes =>
    obtain ⟨⟨out, u⟩, hu, he⟩ := Option.map_eq_some_iff.mp h
    cases he
    exact Option.map_eq_some_iff.mpr ⟨_, State.rbytes_withWriter q hu, rfl⟩
  | cPopcnt | cBitsreq | wNew | wBits | wFlush | wAlign | wBytes | wInt | rNew => cases h

end Blind

/-- A writer command leaves the reader alone and does the same whatever the reader holds (10_state.md R47). -/
theorem writer_ignores_reader {i : Instr} (hi : i.isWriterCommand = true) {s t : State} (h : exec i s = .next t) :
    t.r = s.r ∧ ∀ q, exec i { s with r := q } = .next { t with r := q } := by
  rw [exec_writer hi] at h
  constructor
  · obtain ⟨st, -, rfl⟩ | ⟨-, he⟩ := guarded_next h
    · rfl
    · obtain ⟨u, hu, rfl⟩ := finishWrite_next he
      exact (writerRun_frame hu).r
  · intro q
    rw [exec_writer hi]
    refine guarded_next_map (fun t => { t with r := q }) h (fun _ => rfl) fun he => ?_
    obtain ⟨u, hu, rfl⟩ := finishWrite_next he
    rw [writerRun_withReader q hu]
    rfl

/-- A reader command leaves the writer and `MEM` alone and does the same whatever the writer holds (10_state.md R47,
20_memory.md R64). -/
theorem reader_ignores_writer {i : Instr} (hi : i.isReaderCommand = true) {s t : State} (h : exec i s = .next t) :
    (t.w = s.w ∧ t.mem = s.mem) ∧ ∀ q, exec i { s with w := q } = .next { t with w := q } := by
  rw [exec_reader hi] at h
  constructor
  · obtain ⟨st, -, rfl⟩ | ⟨-, he⟩ := guarded_next h
    · exact ⟨rfl, rfl⟩
    · obtain ⟨p, u, hu, rfl⟩ := finishRead_next he
      exact ⟨(readerRun_frame hu).w, (readerRun_frame hu).mem⟩
  · intro q
    rw [exec_reader hi]
    refine guarded_next_map (fun t => { t with w := q }) h (fun _ => rfl) fun he => ?_
    obtain ⟨p, u, hu, rfl⟩ := finishRead_next he
    rw [readerRun_withWriter q hu]
    rfl

theorem wNew_ignores_reader {base cap : Word} {s t : State} (h : exec (.wNew base cap) s = .next t) :
    t.r = s.r ∧ ∀ q, exec (.wNew base cap) { s with r := q } = .next { t with r := q } := by
  constructor
  · obtain ⟨st, -, rfl⟩ | ⟨-, he⟩ := guarded_next h
    · rfl
    · cases he
      rfl
  · exact fun q => guarded_next_map (fun t => { t with r := q }) h (fun _ => rfl) fun he => by cases he; rfl

theorem rNew_ignores_writer {base cap : Word} {s t : State} (h : exec (.rNew base cap) s = .next t) :
    (t.w = s.w ∧ t.mem = s.mem) ∧ ∀ q, exec (.rNew base cap) { s with w := q } = .next { t with w := q } := by
  constructor
  · obtain ⟨st, -, rfl⟩ | ⟨-, he⟩ := guarded_next h
    · exact ⟨rfl, rfl⟩
    · cases he
      exact ⟨rfl, rfl⟩
  · exact fun q => guarded_next_map (fun t => { t with w := q }) h (fun _ => rfl) fun he => by cases he; rfl

/-- Settles O52: each unit's tests and datapath see its own registers, the operands and `MEM` only. -/
theorem unitsShareOnlyMem : Obligations.UnitsShareOnlyMem := by
  refine fun i s => ⟨?_, ?_⟩
  · rintro (hi | ⟨base, cap, rfl⟩)
    · exact ⟨fun t h => (writer_ignores_reader hi h).1, fun q t h => (writer_ignores_reader hi h).2 q⟩
    · exact ⟨fun t h => (wNew_ignores_reader h).1, fun q t h => (wNew_ignores_reader h).2 q⟩
  · rintro (hi | ⟨base, cap, rfl⟩)
    · exact ⟨fun t h => (reader_ignores_writer hi h).1, fun q t h => (reader_ignores_writer hi h).2 q⟩
    · exact ⟨fun t h => (rNew_ignores_writer h).1, fun q t h => (rNew_ignores_writer h).2 q⟩

end Sys2Proof.Machine
end

section
/-! PROOFS. O54: every step keeps the invariant. A command whose tests all pass runs on a ready unit (O55), and its run
leaves the unit inside its invariant; a status that is raised touches the latch at most; `MEM` keeps its form by the
frame of the run (41_bitwriter.md R138, 42_bitreader.md R157). -/

namespace Sys2Proof.Machine

/-! ## The parts of the invariant -/

/-- A run of the writer's datapath keeps the invariant when it keeps the writer's. -/
theorem State.Inv.of_writerFrame {s t : State} (h : s.Inv) (hf : WriterFrame s t) (hw : t.w.Inv t.memWords) :
    t.Inv := by
  obtain ⟨hn, -, hr, hm⟩ := h
  rw [State.Inv, hf.r, hf.memWords]
  exact ⟨hn, hf.memWords ▸ hw, hr, hf.mem hm⟩

/-- A run of the reader's datapath keeps the invariant when it keeps the reader's. -/
theorem State.Inv.of_readerFrame {s t : State} (h : s.Inv) (hf : ReaderFrame s t) (hr : t.r.Inv t.memWords) :
    t.Inv := by
  obtain ⟨hn, hw, -, hm⟩ := h
  rw [State.Inv, hf.w, hf.mem, hf.memWords]
  exact ⟨hn, hw, hf.memWords ▸ hr, hm⟩

/-! ## `MEM` -/

/-- A byte store inside `MEM` keeps the canonical form and the address range. -/
theorem Memory.Inv.writeByte {m : Memory} {a n : Nat} (h : m.Inv n) (ha : a < 4 * n) (b : Byte) :
    (m.writeByte a b).Inv n := by
  refine ⟨Memory.wf_writeByte h.1 a b, fun p hp => ?_⟩
  obtain rfl | hp := Memory.writeByte_mem hp
  · exact ha
  · exact h.2 p hp

/-! ## The latch -/

/-- The latch takes the codes of fatal statuses only (10_state.md R42, 60_exceptions.md R184). -/
theorem Writer.BoundInv.latch {w : Writer} {memWords : Nat} (h : w.BoundInv memWords) (st : Status) :
    (w.latch st).BoundInv memWords := by
  obtain ⟨hbuf, hwritten, hstaged, hscratch, hword, hsync, hfault⟩ := h
  refine ⟨hbuf, hwritten, hstaged, hscratch, hword, hsync, ?_⟩
  cases st with
  | ok | invalidCapacity | overflow | paddingNonZero | notBound | faulted | illegalCommand => exact hfault
  | capacityExceeded | misaligned | bitsRange | rangeContract | bufferBounds | desync =>
    simp [Writer.latch, Status.fatal, Status.code]

/-- A status raised by the tests of a writer command keeps the writer's invariant: an unbound writer raises
`NotBound`, which is not latched. -/
theorem Writer.Inv.latch {w : Writer} {memWords : Nat} (h : w.Inv memWords) {i : Instr} {st : Status}
    (hst : firstRaise (i.writerTests w) = some st) : (w.latch st).Inv memWords := by
  obtain ⟨hb, h⟩ | rfl := h
  · exact .inl ⟨hb, Writer.BoundInv.latch h st⟩
  · obtain rfl : Status.notBound = st := Option.some.inj ((writerTests_unbound i rfl).symm.trans hst)
    exact .inr rfl

/-! ## The two NEW commands -/

/-- The capacity in words of a NEW command whose tests pass, and that in bits, fit their registers (10_state.md R25,
R34). -/
theorem newTests_pass {base cap : Word} {memWords : Nat} (hm : memWords ≤ Config.maxMemWords)
    (h : firstRaise (newTests base cap memWords) = none) :
    bufferInv base (BitVec.ofNat 32 (cap.toNat / 4)) (BitVec.ofNat 32 (32 * (cap.toNat / 4))) memWords := by
  have hbounds : base.toNat + cap.toNat / 4 ≤ memWords := by
    simpa using firstRaise_eq_none.mp h (decide (memWords < base.toNat + cap.toNat / 4), .bufferBounds)
      (by simp [newTests])
  have hmax : Config.maxMemWords = 134217727 := rfl
  simp only [bufferInv, BitVec.toNat_ofNat]
  omega

/-- A fresh writer meets its invariant (41_bitwriter.md R131). -/
theorem Writer.BoundInv.fresh {base cap : Word} {memWords : Nat} (hm : memWords ≤ Config.maxMemWords)
    (h : firstRaise (newTests base cap memWords) = none) : (Writer.fresh base cap).BoundInv memWords :=
  ⟨newTests_pass hm h, by simp, by simp, by simp, by simp, .inl (by simp [Writer.sync]), .inl rfl⟩

/-- A fresh reader meets its invariant (42_bitreader.md R151). -/
theorem Reader.BoundInv.fresh {base cap : Word} {memWords : Nat} (hm : memWords ≤ Config.maxMemWords)
    (h : firstRaise (newTests base cap memWords) = none) : (Reader.fresh base cap).BoundInv memWords :=
  ⟨newTests_pass hm h, by simp, by simp, by simp, by simp, by simp⟩

theorem wNew_keeps_inv {base cap : Word} {s t : State} (h : s.Inv) (ht : exec (.wNew base cap) s = .next t) :
    t.Inv := by
  obtain ⟨st, -, rfl⟩ | ⟨hn, he⟩ := guarded_next ht
  · exact h
  · obtain ⟨hm, -, hr, hmem⟩ := h
    cases he
    exact ⟨hm, .inl ⟨rfl, Writer.BoundInv.fresh hm.2 hn⟩, hr, hmem⟩

theorem rNew_keeps_inv {base cap : Word} {s t : State} (h : s.Inv) (ht : exec (.rNew base cap) s = .next t) :
    t.Inv := by
  obtain ⟨st, -, rfl⟩ | ⟨hn, he⟩ := guarded_next ht
  · exact h
  · obtain ⟨hm, hw, -, hmem⟩ := h
    cases he
    exact ⟨hm, hw, .inl ⟨rfl, Reader.BoundInv.fresh hm.2 hn⟩, hmem⟩

/-! ## Writer commands -/

/-- No test of a command that accepts bits holds: the writer is ready, and the tests after `waccept` pass. -/
theorem State.Inv.accept_pass {s : State} (h : s.Inv) {tests : List (Bool × Status)}
    (hn : firstRaise (s.w.waccept ++ tests) = none) : s.WriterReady ∧ ∀ p ∈ tests, p.1 = false := by
  rw [firstRaise_append, Option.or_eq_none_iff] at hn
  obtain ⟨hopen, htests⟩ := hn
  exact ⟨h.writerReady (Writer.firstRaise_waccept.mp hopen), firstRaise_eq_none.mp htests⟩

/-- A `W_FLUSH` of staged bits closes the writer (41_bitwriter.md R133, 10_state.md R29 (d)). -/
theorem Writer.BoundInv.close {w : Writer} {memWords : Nat} (h : w.BoundInv memWords) (hs : w.scratchBits ≠ 0) :
    w.close.BoundInv memWords := by
  obtain ⟨hslot, -⟩ := Writer.BoundInv.staged_slot h hs
  obtain ⟨hbuf, hwritten, hstaged, hscratch, -, hsync | ⟨hclosed, -⟩, hfault⟩ := h
  swap
  · exact absurd hclosed hs
  have hpos : w.scratchBits.toNat ≠ 0 := fun h0 => hs (BitVec.eq_of_toNat_eq h0)
  have hcursor := Writer.sync_iff.mp hsync
  have hword : w.close.wordIndex.toNat = w.wordIndex.toNat + 1 := by
    have := w.numWords.isLt
    rw [Writer.close_wordIndex]
    bv_omega
  have hzero : w.close.scratch = 0 := by
    have hlt : w.scratch.toNat < 2 ^ 32 := hscratch.trans (Nat.pow_lt_pow_right (by norm_num) (by omega))
    apply BitVec.eq_of_toNat_eq
    rw [Writer.close_scratch, BitVec.toNat_ushiftRight, Nat.shiftRight_eq_div_pow, Nat.div_eq_of_lt hlt]
    rfl
  refine ⟨hbuf, hwritten, Nat.zero_le _, by rw [hzero]; exact Nat.two_pow_pos _, ?_, .inr ⟨rfl, hzero, ?_, ?_⟩, hfault⟩
  · rw [hword, Writer.close_numWords]
    omega
  · rw [hword, Writer.close_bitsWritten]
    omega
  · rw [hword, Writer.close_bitsWritten]
    omega

/-- The run of a writer command whose tests all pass completes inside the bound writer's invariant (41_bitwriter.md
R138). -/
theorem State.Inv.writerRun {i : Instr} (hi : i.isWriterCommand = true) {s : State} (h : s.Inv)
    (hb : s.w.bound = true) (hn : firstRaise (i.writerTests s.w) = none) :
    ∃ t, i.writerRun s = some t ∧ t.w.BoundInv t.memWords := by
  cases i with
  | wBits value len =>
    obtain ⟨hready, hrest⟩ := h.accept_pass hn
    obtain ⟨hlen, hfit, -⟩ : len.toNat ≤ 32 ∧ s.w.bitsWritten.toNat + len.toNat ≤ s.w.numBits.toNat ∧ _ := by
      simpa [Writer.tooLong] using hrest
    obtain ⟨t, ht, hadv⟩ := hready.wbits value hlen hfit
    exact ⟨t, ht, hadv.ready.inv⟩
  | wFlush =>
    simp only [Instr.writerRun]
    split
    · exact ⟨s, rfl, h.writer hb⟩
    · next hs =>
      obtain ⟨-, hslot⟩ := Writer.BoundInv.staged_slot (h.writer hb) hs
      exact ⟨_, State.storeSlot_of_lt hslot _ _, Writer.BoundInv.close (h.writer hb) hs⟩
  | wAlign =>
    obtain ⟨hready, -⟩ := h.accept_pass hn
    simp only [Instr.writerRun]
    split
    · exact ⟨s, rfl, h.writer hb⟩
    · obtain ⟨t, ht, hadv⟩ := hready.wbits 0 ((padding_lt _).le.trans (by norm_num)) hready.padding_fits
      exact ⟨t, ht, hadv.ready.inv⟩
  | wBytes data =>
    obtain ⟨hready, hrest⟩ := h.accept_pass hn
    obtain ⟨-, hfit, -⟩ : _ ∧ s.w.bitsWritten.toNat + 8 * data.length ≤ s.w.numBits.toNat ∧ _ := by
      simpa [Writer.tooLong] using hrest
    obtain ⟨t, ht, hadv⟩ := hready.phases data hfit
    exact ⟨t, ht, hadv.ready.inv⟩
  | wInt value min max =>
    obtain ⟨hready, hrest⟩ := h.accept_pass hn
    obtain ⟨-, hfit, -⟩ : _ ∧ s.w.bitsWritten.toNat + bitsRequired min max ≤ s.w.numBits.toNat ∧ _ := by
      simpa [Writer.tooLong] using hrest
    obtain ⟨t, ht, hadv⟩ := hready.wbits (rangeEncode value min) (bitsRequired_le min max) hfit
    exact ⟨t, ht, hadv.ready.inv⟩
  | cPopcnt | cBitsreq | wNew | rNew | rBits | rAlign | rBytes | rInt => cases hi

/-- A writer whose tests all pass is bound. -/
theorem bound_of_writerTests {i : Instr} {w : Writer} (hn : firstRaise (i.writerTests w) = none) : w.bound = true := by
  by_contra hb
  simp [writerTests_unbound i (Bool.eq_false_of_not_eq_true hb)] at hn

theorem writer_keeps_inv {i : Instr} (hi : i.isWriterCommand = true) {s t : State} (h : s.Inv)
    (ht : exec i s = .next t) : t.Inv := by
  rw [exec_writer hi] at ht
  obtain ⟨st, hst, rfl⟩ | ⟨hn, he⟩ := guarded_next ht
  · obtain ⟨hm, hw, hr, hmem⟩ := h
    exact ⟨hm, Writer.Inv.latch hw hst, hr, hmem⟩
  · obtain ⟨u, hu, rfl⟩ := finishWrite_next he
    have hb := bound_of_writerTests hn
    obtain ⟨u', hu', hinv⟩ := h.writerRun hi hb hn
    obtain rfl : u = u' := Option.some.inj (hu.symm.trans hu')
    have hf := writerRun_frame hu
    have hkept : u.Inv := h.of_writerFrame hf (.inl ⟨hf.bound.trans hb, hinv⟩)
    exact hkept

/-! ## Reader commands -/

/-- The extractions of a string that fits leave the reader ready (42_bitreader.md R155, R157). -/
theorem State.ReaderReady.of_rbytes {s t : State} (h : s.ReaderReady) {n : Nat} {data : List Byte}
    (hfit : s.r.bitsRead.toNat + 8 * n ≤ s.r.numBits.toNat) (ht : s.rbytes n = some (data, t)) : t.ReaderReady := by
  induction n generalizing s data with
  | zero =>
    cases ht
    exact h
  | succ n ih =>
    obtain ⟨v, u, rest, hu, ht, -⟩ := State.rbytes_succ.mp ht
    obtain ⟨v', u', hu', hadv⟩ := h.rbits (len := 8) (by norm_num) (by omega)
    obtain ⟨rfl, rfl⟩ : v = v' ∧ u = u' := by simpa [hu] using hu'
    exact ih hadv.ready (by rw [hadv.bitsRead, hadv.numBits]; omega) ht

/-- No test of a reader command holds: the reader is ready, and the tests after `radmit` pass. -/
theorem State.Inv.deliver_pass {s : State} (h : s.Inv) {tests : List (Bool × Status)}
    (hn : firstRaise (s.r.radmit ++ tests) = none) : s.ReaderReady ∧ ∀ p ∈ tests, p.1 = false := by
  rw [firstRaise_append, Option.or_eq_none_iff] at hn
  obtain ⟨hbound, htests⟩ := hn
  exact ⟨h.readerReady (Reader.firstRaise_radmit.mp hbound), firstRaise_eq_none.mp htests⟩

/-- The run of a reader command whose tests all pass completes inside the bound reader's invariant (42_bitreader.md
R157). -/
theorem State.Inv.readerRun {i : Instr} (hi : i.isReaderCommand = true) {s : State} (h : s.Inv)
    (hn : firstRaise (i.readerTests s.r) = none) :
    ∃ p t, i.readerRun s = some (p, t) ∧ t.r.BoundInv t.memWords := by
  cases i with
  | rBits len =>
    obtain ⟨hready, hrest⟩ := h.deliver_pass hn
    obtain ⟨hlen, hfit, -⟩ : len.toNat ≤ 32 ∧ s.r.bitsRead.toNat + len.toNat ≤ s.r.numBits.toNat ∧ _ := by
      simpa [Reader.tooLong] using hrest
    obtain ⟨out, t, ht, hadv⟩ := hready.rbits hlen hfit
    exact ⟨_, t, Option.map_eq_some_iff.mpr ⟨_, ht, rfl⟩, hadv.ready.inv⟩
  | rAlign =>
    obtain ⟨hready, -⟩ := h.deliver_pass hn
    simp only [Instr.readerRun]
    split
    · exact ⟨_, s, rfl, hready.inv⟩
    · obtain ⟨out, t, ht, hadv⟩ := hready.rbits ((padding_lt _).le.trans (by norm_num)) hready.padding_fits
      exact ⟨_, t, Option.map_eq_some_iff.mpr ⟨_, ht, rfl⟩, hadv.ready.inv⟩
  | rBytes n =>
    obtain ⟨hready, hrest⟩ := h.deliver_pass hn
    obtain ⟨-, hfit, -⟩ : _ ∧ s.r.bitsRead.toNat + 8 * n.toNat ≤ s.r.numBits.toNat ∧ _ := by
      simpa [Reader.tooLong] using hrest
    obtain ⟨data, t, ht⟩ := hready.rbytes hfit
    exact ⟨_, t, Option.map_eq_some_iff.mpr ⟨_, ht, rfl⟩, (hready.of_rbytes hfit ht).inv⟩
  | rInt min max =>
    obtain ⟨hready, hrest⟩ := h.deliver_pass hn
    obtain ⟨-, hfit, -⟩ : _ ∧ s.r.bitsRead.toNat + bitsRequired min max ≤ s.r.numBits.toNat ∧ _ := by
      simpa [Reader.tooLong] using hrest
    obtain ⟨out, t, ht, hadv⟩ := hready.rbits (bitsRequired_le min max) hfit
    exact ⟨_, t, Option.map_eq_some_iff.mpr ⟨_, ht, rfl⟩, hadv.ready.inv⟩
  | cPopcnt | cBitsreq | wNew | wBits | wFlush | wAlign | wBytes | wInt | rNew => cases hi

/-- A reader whose tests all pass is bound. -/
theorem bound_of_readerTests {i : Instr} {r : Reader} (hn : firstRaise (i.readerTests r) = none) : r.bound = true := by
  by_contra hb
  simp [readerTests_unbound i (Bool.eq_false_of_not_eq_true hb)] at hn

theorem reader_keeps_inv {i : Instr} (hi : i.isReaderCommand = true) {s t : State} (h : s.Inv)
    (ht : exec i s = .next t) : t.Inv := by
  rw [exec_reader hi] at ht
  obtain ⟨st, -, rfl⟩ | ⟨hn, he⟩ := guarded_next ht
  · exact h
  · obtain ⟨p, u, hu, rfl⟩ := finishRead_next he
    obtain ⟨p', u', hu', hinv⟩ := h.readerRun hi hn
    obtain ⟨-, rfl⟩ : p = p' ∧ u = u' := by simpa [hu] using hu'
    have hf := readerRun_frame hu
    have hkept : u.Inv := h.of_readerFrame hf (.inl ⟨hf.bound.trans (bound_of_readerTests hn), hinv⟩)
    exact hkept

/-! ## Every step -/

/-- Every command keeps the invariant. -/
theorem exec_keeps_inv {i : Instr} {s t : State} (h : s.Inv) (ht : exec i s = .next t) : t.Inv := by
  cases i with
  | cPopcnt =>
    cases ht
    exact h
  | cBitsreq =>
    obtain ⟨st, -, rfl⟩ | ⟨-, he⟩ := guarded_next ht
    · exact h
    · cases he
      exact h
  | wNew => exact wNew_keeps_inv h ht
  | rNew => exact rNew_keeps_inv h ht
  | wBits | wFlush | wAlign | wBytes | wInt => exact writer_keeps_inv rfl h ht
  | rBits | rAlign | rBytes | rInt => exact reader_keeps_inv rfl h ht

/-- Settles O54, by the case of what the port offers. -/
theorem everyStepKeepsTheInvariant : Obligations.EveryStepKeepsTheInvariant := by
  intro s t h hstep
  obtain ⟨-, rfl⟩ | ⟨i, taken, -, ht⟩ | ⟨-, rfl⟩ | ⟨a, b, -, ha, rfl⟩ | ⟨i, v, -, hi, rfl⟩ | ⟨-, rfl⟩ := step_next hstep
  · exact h
  · exact exec_keeps_inv (s := s.take taken) h ht
  · exact h
  · obtain ⟨hn, hw, hr, hm⟩ := h
    exact ⟨hn, hw, hr, Memory.Inv.writeByte hm ha b⟩
  · obtain ⟨hn, hw, hr, hm⟩ := h
    exact ⟨hn, hw, hr, Memory.writeWord_keeps hi v hm⟩
  · obtain ⟨hn, -, -, hm⟩ := h
    exact ⟨hn, .inr rfl, .inr rfl, hm⟩

end Sys2Proof.Machine
end

section
/-! PROOFS. O10, O37, O38, O39, O46, O47: memory and the stream of bits (20_memory.md). What one bit of the stream is
after each operation is said once: after a word store, after staging, after `wbits`, a bulk store and the store of a
flush on the writer's side, after a refill and an extraction on the reader's. -/

namespace Sys2Proof.Machine

/-! ## Words and stream bits after a word store -/

/-- A word is made of its own four bytes (20_memory.md R61). -/
theorem wordOfBytes_byteOfWord (v : Word) :
    wordOfBytes (byteOfWord v 0) (byteOfWord v 1) (byteOfWord v 2) (byteOfWord v 3) = v := by
  have := v.isLt
  apply BitVec.eq_of_toNat_eq
  simp only [wordOfBytes_toNat, leNat, byteOfWord_toNat]
  omega

/-- A word store: its word reads as the value stored, every other word as before (20_memory.md R61, R70). -/
theorem Memory.wordAt_writeWord (m : Memory) (i : Nat) (v : Word) (k : Nat) :
    (m.writeWord i v).wordAt k = if k = i then v else m.wordAt k := by
  have hbyte : ∀ j < 4, (m.writeWord i v).byteAt (4 * k + j) =
      if k = i then byteOfWord v j else m.byteAt (4 * k + j) := by
    intro j hj
    rw [Memory.byteAt_writeWord]
    split_ifs with hin hk hk
    · rw [hk, Nat.add_sub_cancel_left]
    · omega
    · omega
    · rfl
  rw [Memory.wordAt, hbyte 1 (by omega), hbyte 2 (by omega), hbyte 3 (by omega), ← Nat.add_zero (4 * k),
    hbyte 0 (by omega)]
  split
  · exact wordOfBytes_byteOfWord v
  · rfl

/-- A word store: the stream bits in its word are those of the value stored, all others are as before (20_memory.md
R62). -/
theorem Memory.streamBit_writeWord (m : Memory) (i : Nat) (v : Word) (base n : Nat) :
    (m.writeWord i v).streamBit base n =
      if base + n / 32 = i then v.getLsbD (n % 32) else m.streamBit base n := by
  rw [Memory.streamBit, Memory.wordAt_writeWord]
  split <;> rfl

/-! ## The host's stores -/

/-- Settles O10: the port offers the store, and a byte reads as what was last written to it. -/
theorem hostStoresReachTheirBytes : Obligations.HostStoresReachTheirBytes := by
  refine fun s more => ⟨fun a b hs ha => ?_, fun i v hs hi => ?_⟩
  · have hstep : step s = .next { s with inbox := more, mem := s.mem.writeByte a b } := by
      simp [step, hs, hostStoreByte, ha, State.take]
    exact ⟨_, hstep, rfl, Memory.byteAt_writeByte s.mem a b⟩
  · have hstore : (s.take 1).storeWord i v = some { s with inbox := more, mem := s.mem.writeWord i v } :=
      State.storeWord_eq_some.mpr ⟨hi, by simp [State.take, hs]⟩
    have hstep : step s = .next { s with inbox := more, mem := s.mem.writeWord i v } := by
      simp only [step, hs, offer_storeWord, hostStoreWord, hstore]
    refine ⟨_, hstep, rfl, fun c => ?_⟩
    simp only [State.byteAt, Memory.byteAt_writeWord, byteOfWord_eq]

/-! ## The bits of a scratch register -/

/-- Bit `i` of `mask(n)` is set below `n` (00_scope.md R9). -/
theorem getLsbD_mask {n : Nat} (h : n ≤ 32) (i : Nat) : (mask n).getLsbD i = decide (i < n) := by
  rw [mask, BitVec.getLsbD_ofNat, Nat.testBit_two_pow_sub_one, ← Bool.decide_and]
  exact decide_eq_decide.mpr (by omega)

/-- A register whose value is below `2^n` has no bit from `n` up. -/
theorem getLsbD_eq_false_of_lt {x : BitVec 64} {n i : Nat} (hx : x.toNat < 2 ^ n) (hi : n ≤ i) :
    x.getLsbD i = false :=
  Nat.testBit_lt_two_pow (hx.trans_le (Nat.pow_le_pow_right (by norm_num) hi))

/-- A value OR-ed in above the `n` lowest bits of a scratch that holds only those (41_bitwriter.md R134, 42_bitreader.md
R153). -/
theorem getLsbD_or_shiftLeft {x y : BitVec 64} {n : Nat} (hx : x.toNat < 2 ^ n) (i : Nat) :
    (x ||| y <<< n).getLsbD i = if i < n then x.getLsbD i else decide (i < 64) && y.getLsbD (i - n) := by
  rw [BitVec.getLsbD_or, BitVec.getLsbD_shiftLeft]
  split
  · next hi => simp [hi]
  · next hi => simp [hi, getLsbD_eq_false_of_lt hx (Nat.le_of_not_lt hi)]

/-- Staging keeps the staged bits and puts the field above them (41_bitwriter.md R134). -/
theorem Writer.getLsbD_stage {w : Writer} (hs : w.scratchBits.toNat ≤ 31)
    (ha : w.scratch.toNat < 2 ^ w.scratchBits.toNat) (v : Word) {len : Nat} (hl : len ≤ 32) (i : Nat) :
    (w.stage v len).scratch.getLsbD i =
      if i < w.scratchBits.toNat then w.scratch.getLsbD i
      else decide (i - w.scratchBits.toNat < len) && v.getLsbD (i - w.scratchBits.toNat) := by
  rw [Writer.stage_scratch, getLsbD_or_shiftLeft ha, BitVec.getLsbD_and, getLsbD_mask hl, BitVec.getLsbD_setWidth]
  by_cases hj : i - w.scratchBits.toNat < len
  · have h64 : i < 64 ∧ i - w.scratchBits.toNat < 64 := by omega
    simp [hj, h64]
  · simp [hj]

/-- A refill keeps the staged bits and puts the fetched word above them (42_bitreader.md R153). -/
theorem Reader.getLsbD_refillWith {r : Reader} (hs : r.scratchBits.toNat ≤ 31)
    (ha : r.scratch.toNat < 2 ^ r.scratchBits.toNat) (v : Word) (i : Nat) :
    (r.refillWith v).scratch.getLsbD i =
      if i < r.scratchBits.toNat then r.scratch.getLsbD i else v.getLsbD (i - r.scratchBits.toNat) := by
  rw [Reader.refillWith_scratch, getLsbD_or_shiftLeft ha, BitVec.getLsbD_setWidth]
  by_cases hj : i - r.scratchBits.toNat < 32
  · have h64 : i < 64 ∧ i - r.scratchBits.toNat < 64 := by omega
    simp [h64]
  · simp [BitVec.getLsbD_of_ge v _ (Nat.le_of_not_lt hj)]

/-- The bits an extraction delivers are the lowest `len` of the scratch (42_bitreader.md R153). -/
theorem Reader.getLsbD_front {r : Reader} {len : Nat} (hl : len ≤ 32) (j : Nat) :
    (r.front len).getLsbD j = (decide (j < len) && r.scratch.getLsbD j) := by
  rw [Reader.front, BitVec.getLsbD_setWidth, BitVec.getLsbD_and, getLsbD_mask hl]
  by_cases hj : j < len
  · have h32 : j < 32 := by omega
    simp [hj, h32]
  · simp [hj]

/-! ## The writer's stream -/

/-- A stream bit whose word is stored is in `MEM` (10_state.md R29 (e)). -/
theorem State.writtenBit_stored {s : State} {n : Nat} (h : n < 32 * s.w.wordIndex.toNat) :
    s.writtenBit n = s.mem.streamBit s.w.base.toNat n := if_pos h

/-- A stream bit whose word is not stored is staged (10_state.md R29 (e)). -/
theorem State.writtenBit_staged {s : State} {n : Nat} (h : 32 * s.w.wordIndex.toNat ≤ n) :
    s.writtenBit n = s.w.scratch.getLsbD (n - 32 * s.w.wordIndex.toNat) := if_neg (Nat.not_lt.mpr h)

/-- A word store to the next slot leaves the words before it (20_memory.md R77), and the word's bits are the value's. -/
theorem State.storeSlot_writtenBit {v : Word} {w' : Writer} {s t : State} (h : s.storeSlot v w' = some t)
    (hbase : w'.base = s.w.base) (hindex : w'.wordIndex.toNat = s.w.wordIndex.toNat + 1) (n : Nat) :
    t.writtenBit n =
      if n < 32 * s.w.wordIndex.toNat then s.writtenBit n
      else if n < 32 * s.w.wordIndex.toNat + 32 then v.getLsbD (n - 32 * s.w.wordIndex.toNat)
      else w'.scratch.getLsbD (n - (32 * s.w.wordIndex.toNat + 32)) := by
  obtain ⟨-, rfl⟩ := State.storeSlot_eq_some.mp h
  have hnext : 32 * w'.wordIndex.toNat = 32 * s.w.wordIndex.toNat + 32 := by omega
  rw [State.writtenBit, hnext, hbase, Memory.streamBit_writeWord, Writer.slot]
  split_ifs with _ _ _ hstored
  · omega
  · rw [show n % 32 = n - 32 * s.w.wordIndex.toNat by omega]
  · rw [State.writtenBit_stored hstored]
  · omega
  · omega
  · rfl

/-- A response does not change the stream. -/
@[simp] theorem State.respond_writtenBit (s : State) (st : Status) (data : List Word) (n : Nat) :
    (s.respond st data).writtenBit n = s.writtenBit n := rfl

/-- A ready writer has no bit beyond those it has accepted. -/
theorem State.WriterReady.writtenBit_beyond {s : State} (h : s.WriterReady) {n : Nat}
    (hn : s.w.bitsWritten.toNat ≤ n) : s.writtenBit n = false := by
  obtain ⟨-, -, -, hscratch, -⟩ := h.inv
  have hsync := Writer.sync_iff.mp h.sync
  rw [State.writtenBit_staged (by omega)]
  exact getLsbD_eq_false_of_lt hscratch (by omega)

/-- After `wbits`, stored or not, the stream from the old word index on is the scratch as staged (41_bitwriter.md
R134). -/
theorem State.WriterReady.wbits_writtenBit_staged {s t : State} (h : s.WriterReady) {v : Word} {len : Nat}
    (ht : s.wbits v len = some t) (n : Nat) :
    t.writtenBit n =
      if n < 32 * s.w.wordIndex.toNat then s.writtenBit n
      else (s.w.stage v len).scratch.getLsbD (n - 32 * s.w.wordIndex.toNat) := by
  obtain ⟨-, rfl⟩ | ⟨-, hslot, rfl⟩ := State.wbits_eq_some.mp ht
  · rw [State.writtenBit, Writer.stage_wordIndex]
    split
    · next hn => exact (State.writtenBit_stored hn).symm
    · rfl
  · have hcursor := h.cursor
    have hindex : (s.w.stage v len).shiftOut.wordIndex.toNat = s.w.wordIndex.toNat + 1 :=
      Writer.shiftOut_wordIndex_toNat (by have := s.w.bitsWritten.isLt; rw [Writer.stage_wordIndex]; omega)
    have hstore := State.storeSlot_of_lt hslot ((s.w.stage v len).scratch.setWidth 32) (s.w.stage v len).shiftOut
    rw [State.storeSlot_writtenBit hstore rfl hindex, BitVec.getLsbD_setWidth, Writer.shiftOut_scratch,
      BitVec.getLsbD_ushiftRight]
    split_ifs with hstored hword
    · rfl
    · rw [decide_eq_true (by omega), Bool.true_and]
    · congr 1
      omega

/-- `wbits` supplies the next `len` stream bits and keeps all others (20_memory.md R62, 41_bitwriter.md R134). -/
theorem State.WriterReady.wbits_writtenBit {s t : State} (h : s.WriterReady) {v : Word} {len : Nat} (hl : len ≤ 32)
    (ht : s.wbits v len = some t) (n : Nat) :
    t.writtenBit n =
      if n < s.w.bitsWritten.toNat then s.writtenBit n
      else decide (n - s.w.bitsWritten.toNat < len) && v.getLsbD (n - s.w.bitsWritten.toNat) := by
  obtain ⟨-, -, hstaged, hscratch, -⟩ := h.inv
  have hsync := Writer.sync_iff.mp h.sync
  rw [h.wbits_writtenBit_staged ht, Writer.getLsbD_stage hstaged hscratch v hl,
    show n - 32 * s.w.wordIndex.toNat - s.w.scratchBits.toNat = n - s.w.bitsWritten.toNat by omega]
  split_ifs with hstored
  · rfl
  · omega
  · exact (State.writtenBit_staged (Nat.le_of_not_lt hstored)).symm
  · omega
  · omega
  · rfl

/-- The store of a `W_FLUSH` keeps the stream up to the end of its word: every accepted bit, and the zeros above them
(20_memory.md R71, R79). -/
theorem State.WriterReady.flushPartial_writtenBit {s t : State} (h : s.WriterReady) (ht : s.flushPartial = some t) :
    t.w.wordIndex.toNat = s.w.wordIndex.toNat + 1 ∧
      ∀ n < 32 * s.w.wordIndex.toNat + 32, t.writtenBit n = s.writtenBit n := by
  have hcursor := h.cursor
  have hindex : s.w.close.wordIndex.toNat = s.w.wordIndex.toNat + 1 := by
    have := s.w.bitsWritten.isLt
    rw [Writer.close_wordIndex]
    bv_omega
  constructor
  · obtain ⟨-, rfl⟩ := State.storeSlot_eq_some.mp ht
    exact hindex
  · intro n hn
    rw [State.storeSlot_writtenBit ht rfl hindex, if_pos hn, BitVec.getLsbD_setWidth]
    split
    · rfl
    · next hstored =>
      rw [State.writtenBit_staged (Nat.le_of_not_lt hstored), decide_eq_true (by omega), Bool.true_and]

/-! ## Accepted bits are kept -/

/-- `t` has every stream bit that `s` has accepted, at the same place and with the same value (20_memory.md R77). -/
structure StreamKept (s t : State) : Prop where
  count : s.w.bitsWritten.toNat ≤ t.w.bitsWritten.toNat
  bits : ∀ n < s.w.bitsWritten.toNat, t.writtenBit n = s.writtenBit n

theorem StreamKept.refl (s : State) : StreamKept s s := ⟨le_rfl, fun _ _ => rfl⟩

theorem StreamKept.trans {s t u : State} (h : StreamKept s t) (k : StreamKept t u) : StreamKept s u :=
  ⟨h.count.trans k.count, fun n hn => (k.bits n (hn.trans_le h.count)).trans (h.bits n hn)⟩

/-- A field that fits keeps the stream. -/
theorem State.WriterReady.wbits_kept {s t : State} (h : s.WriterReady) {v : Word} {len : Nat} (hl : len ≤ 32)
    (hfit : s.w.bitsWritten.toNat + len ≤ s.w.numBits.toNat) (ht : s.wbits v len = some t) : StreamKept s t := by
  have hadv : WriterAdvanced s t len := by simpa [ht] using h.wbits v hl hfit
  exact ⟨by rw [hadv.bitsWritten]; omega, fun n hn => by rw [h.wbits_writtenBit hl ht, if_pos hn]⟩

/-- The head and tail phases of a string that fits keep the stream. -/
theorem State.WriterReady.wbytes_kept {s t : State} (h : s.WriterReady) {data : List Byte}
    (hfit : s.w.bitsWritten.toNat + 8 * data.length ≤ s.w.numBits.toNat) (ht : s.wbytes data = some t) :
    StreamKept s t := by
  induction data generalizing s with
  | nil => exact Option.some.inj ht ▸ .refl s
  | cons b rest ih =>
    rw [List.length_cons] at hfit
    obtain ⟨u, hu, ht⟩ := State.wbytes_cons.mp ht
    have hadv : WriterAdvanced s u 8 := by simpa [hu] using h.wbits (b.setWidth 32) (len := 8) (by norm_num) (by omega)
    exact (h.wbits_kept (by norm_num) (by omega) hu).trans
      (ih hadv.ready (by rw [hadv.bitsWritten, hadv.numBits]; omega) ht)

/-- A bulk store at a word boundary keeps the stream: no bit is staged. -/
theorem State.WriterReady.storeSkip_kept {s t : State} (h : s.WriterReady) {v : Word}
    (haligned : s.w.bitsWritten.toNat % 32 = 0) (hfit : s.w.bitsWritten.toNat + 32 ≤ s.w.numBits.toNat)
    (ht : s.storeSlot v s.w.skipWord = some t) : StreamKept s t := by
  have hadv : WriterAdvanced s t 32 := by simpa [ht] using h.storeSkip v hfit
  have hcursor := h.cursor
  have hindex := Writer.skipWord_wordIndex_toNat (w := s.w) (by omega)
  refine ⟨by rw [hadv.bitsWritten]; omega, fun n hn => ?_⟩
  rw [State.storeSlot_writtenBit ht rfl hindex, if_pos (by omega)]

/-- The bulk phase of a string that fits, at a word boundary, keeps the stream (41_bitwriter.md R136). -/
theorem State.WriterReady.wbulk_kept {s t : State} (h : s.WriterReady) {data : List Byte}
    (haligned : 4 ≤ data.length → s.w.bitsWritten.toNat % 32 = 0)
    (hfit : s.w.bitsWritten.toNat + 8 * data.length ≤ s.w.numBits.toNat) (ht : s.wbulk data = some t) :
    StreamKept s t := by
  match data, ht with
  | [], ht | [_], ht | [_, _], ht | [_, _, _], ht => exact Option.some.inj ht ▸ .refl s
  | b0 :: b1 :: b2 :: b3 :: rest, ht =>
    simp only [List.length_cons] at hfit haligned
    have haligned := haligned (by omega)
    obtain ⟨u, hu, ht⟩ := State.wbulk_cons.mp ht
    have hadv : WriterAdvanced s u 32 := by simpa [hu] using h.storeSkip (wordOfBytes b0 b1 b2 b3) (by omega)
    exact (h.storeSkip_kept haligned (by omega) hu).trans
      (hadv.ready.wbulk_kept (fun _ => by rw [hadv.bitsWritten]; omega)
        (by rw [hadv.bitsWritten, hadv.numBits]; omega) ht)

/-- The head phase of an aligned string ends at a word boundary when there is a word for the bulk phase
(41_bitwriter.md R136). -/
theorem headBytes_reaches_boundary {bits : BitVec 32} {data : List Byte} (hbytes : bits.toNat % 8 = 0)
    (hbulk : 4 ≤ (bulkBytes bits data).length) : (bits.toNat + 8 * (headBytes bits data).length) % 32 = 0 := by
  simp only [bulkBytes, headBytes, bulkWords, headCount, List.length_take, List.length_drop] at hbulk ⊢
  omega

/-- The three phases of an aligned string that fits keep the stream (41_bitwriter.md R136). -/
theorem State.WriterReady.phases_kept {s t : State} (h : s.WriterReady) {data : List Byte}
    (hbytes : s.w.bitsWritten.toNat % 8 = 0)
    (hfit : s.w.bitsWritten.toNat + 8 * data.length ≤ s.w.numBits.toNat)
    (ht : (Instr.wBytes data).writerRun s = some t) : StreamKept s t := by
  obtain ⟨hlen, hwhole⟩ := phases_length s.w.bitsWritten data
  obtain ⟨u, v, hu, hv, ht⟩ := phases_eq_some.mp ht
  obtain ⟨u', hu', hhead⟩ := h.wbytes (headBytes s.w.bitsWritten data) (by omega)
  obtain rfl : u = u' := Option.some.inj (hu.symm.trans hu')
  obtain ⟨v', hv', hbulk⟩ := hhead.ready.wbulk (bulkBytes s.w.bitsWritten data)
    (by rw [hhead.bitsWritten, hhead.numBits]; omega)
  obtain rfl : v = v' := Option.some.inj (hv.symm.trans hv')
  have hboth := hhead.trans hbulk
  have hkept := h.wbytes_kept (by omega) hu
  have hkept' := hhead.ready.wbulk_kept
    (fun h4 => hhead.bitsWritten ▸ headBytes_reaches_boundary hbytes h4)
    (by rw [hhead.bitsWritten, hhead.numBits]; omega) hv
  exact (hkept.trans hkept').trans
    (hboth.ready.wbytes_kept (by rw [hboth.bitsWritten, hboth.numBits]; omega) ht)

/-- A writer with staged bits is in sync: a closed one has none (10_state.md R29 (d)). -/
theorem State.Inv.writerReady_of_staged {s : State} (h : s.Inv) (hb : s.w.bound = true) (hs : s.w.scratchBits ≠ 0) :
    s.WriterReady := by
  have hinv := h.writer hb
  refine ⟨h.1.2, hinv, ?_⟩
  obtain ⟨-, -, -, -, -, hsync | ⟨hclosed, -⟩, -⟩ := hinv
  · exact hsync
  · exact absurd hclosed hs

/-- The run of a writer command whose tests all pass keeps the stream. -/
theorem State.Inv.writerRun_kept {i : Instr} (hi : i.isWriterCommand = true) {s t : State} (h : s.Inv)
    (hn : firstRaise (i.writerTests s.w) = none) (ht : i.writerRun s = some t) : StreamKept s t := by
  cases i with
  | wBits value len =>
    obtain ⟨hready, hrest⟩ := h.accept_pass hn
    obtain ⟨hlen, hfit, -⟩ : len.toNat ≤ 32 ∧ s.w.bitsWritten.toNat + len.toNat ≤ s.w.numBits.toNat ∧ _ := by
      simpa [Writer.tooLong] using hrest
    exact hready.wbits_kept hlen hfit ht
  | wFlush =>
    rw [Instr.writerRun] at ht
    split at ht
    · exact Option.some.inj ht ▸ .refl s
    · next hs =>
      have hready := h.writerReady_of_staged (bound_of_writerTests hn) hs
      have hcursor := hready.cursor
      obtain ⟨-, hbits⟩ := hready.flushPartial_writtenBit ht
      obtain ⟨-, rfl⟩ := State.storeSlot_eq_some.mp ht
      exact ⟨le_rfl, fun n hlt => hbits n (by omega)⟩
  | wAlign =>
    obtain ⟨hready, -⟩ := h.accept_pass hn
    rw [Instr.writerRun] at ht
    split at ht
    · exact Option.some.inj ht ▸ .refl s
    · exact hready.wbits_kept ((padding_lt _).le.trans (by norm_num)) hready.padding_fits ht
  | wBytes data =>
    obtain ⟨hready, hrest⟩ := h.accept_pass hn
    obtain ⟨hbytes, hfit, -⟩ :
        s.w.bitsWritten.toNat % 8 = 0 ∧ s.w.bitsWritten.toNat + 8 * data.length ≤ s.w.numBits.toNat ∧ _ := by
      simpa [Writer.tooLong] using hrest
    exact hready.phases_kept hbytes hfit ht
  | wInt value min max =>
    obtain ⟨hready, hrest⟩ := h.accept_pass hn
    obtain ⟨-, hfit, -⟩ : _ ∧ s.w.bitsWritten.toNat + bitsRequired min max ≤ s.w.numBits.toNat ∧ _ := by
      simpa [Writer.tooLong] using hrest
    exact hready.wbits_kept (bitsRequired_le min max) hfit ht
  | cPopcnt | cBitsreq | wNew | rNew | rBits | rAlign | rBytes | rInt => cases hi

/-- Settles O38: a raised status touches the latch at most, and every run keeps the stream. -/
theorem acceptedBitsNeverChange : Obligations.AcceptedBitsNeverChange := by
  intro i s t h hi ht
  rw [exec_writer hi] at ht
  obtain ⟨st, -, rfl⟩ | ⟨hn, he⟩ := guarded_next ht
  · exact ⟨le_rfl, fun _ _ => rfl⟩
  · obtain ⟨u, hu, rfl⟩ := finishWrite_next he
    obtain ⟨hcount, hbits⟩ := h.writerRun_kept hi hn hu
    exact ⟨hcount, hbits⟩

/-! ## What an `OK` says -/

/-- A raised status is the status of one of the tests. -/
theorem firstRaise_mem {tests : List (Bool × Status)} {st : Status} (h : firstRaise tests = some st) :
    (true, st) ∈ tests := by
  obtain ⟨before, rest, rfl, -⟩ := firstRaise_eq_some h
  exact List.mem_append_right _ List.mem_cons_self

/-- No test of a writer command raises `OK`. -/
theorem writerTests_ne_ok (i : Instr) (w : Writer) : ∀ p ∈ i.writerTests w, p.2 ≠ .ok := by
  cases i with
  | wBits | wFlush | wAlign | wBytes | wInt =>
    simp [Instr.writerTests, Writer.bitsTests, Writer.flushTests, Writer.alignTests, Writer.bytesTests,
      Writer.intTests, Writer.waccept, Writer.wadmit]
  | cPopcnt | cBitsreq | wNew | rNew | rBits | rAlign | rBytes | rInt => simp [Instr.writerTests, Writer.wadmit]

/-- No test of a reader command raises `OK`. -/
theorem readerTests_ne_ok (i : Instr) (r : Reader) : ∀ p ∈ i.readerTests r, p.2 ≠ .ok := by
  cases i with
  | rBits | rAlign | rBytes | rInt =>
    simp [Instr.readerTests, Reader.bitsTests, Reader.alignTests, Reader.bytesTests, Reader.intTests, Reader.radmit]
  | cPopcnt | cBitsreq | wNew | wBits | wFlush | wAlign | wBytes | wInt | rNew =>
    simp [Instr.readerTests, Reader.radmit]

/-- A writer command that answers `OK` raised nothing and made its run. -/
theorem exec_writer_ok {i : Instr} (hi : i.isWriterCommand = true) {s t : State} {data : List Word}
    (ht : exec i s = .next t) (hok : t.Answered .ok data) :
    firstRaise (i.writerTests s.w) = none ∧ ∃ u, i.writerRun s = some u ∧ t = u.respond .ok [] := by
  rw [exec_writer hi] at ht
  obtain ⟨st, hst, rfl⟩ | ⟨hn, he⟩ := guarded_next ht
  · obtain ⟨rfl, -⟩ : st = .ok ∧ [] = data := by simpa [State.Answered] using hok
    exact absurd rfl (writerTests_ne_ok i s.w _ (firstRaise_mem hst))
  · exact ⟨hn, finishWrite_next he⟩

/-- A reader command that answers `OK` raised nothing and made its run. -/
theorem exec_reader_ok {i : Instr} (hi : i.isReaderCommand = true) {s t : State} {data : List Word}
    (ht : exec i s = .next t) (hok : t.Answered .ok data) :
    firstRaise (i.readerTests s.r) = none ∧ ∃ u, i.readerRun s = some (⟨.ok, data⟩, u) ∧ t = u.respond .ok data := by
  rw [exec_reader hi] at ht
  obtain ⟨st, hst, rfl⟩ | ⟨hn, he⟩ := guarded_next ht
  · obtain ⟨rfl, -⟩ : st = .ok ∧ [] = data := by simpa [State.Answered] using hok
    exact absurd rfl (readerTests_ne_ok i s.r _ (firstRaise_mem hst))
  · obtain ⟨p, u, hu, rfl⟩ := finishRead_next he
    obtain rfl : p = ⟨.ok, data⟩ := Option.some.inj hok
    exact ⟨hn, u, hu, rfl⟩

/-! ## What `W_BITS` and `W_FLUSH` do to the stream -/

/-- Settles O37, by the stream after `wbits`. -/
theorem wBitsExtendsTheStream : Obligations.WBitsExtendsTheStream := by
  intro value len s t h ht hok
  obtain ⟨hn, u, hu, rfl⟩ := exec_writer_ok rfl ht hok
  obtain ⟨hready, hrest⟩ := h.accept_pass hn
  obtain ⟨hlen, -⟩ : len.toNat ≤ 32 ∧ _ := by simpa using hrest
  have hstream := hready.wbits_writtenBit hlen hu
  simp only [State.respond_writtenBit]
  refine ⟨fun n hlt => by rw [hstream, if_pos hlt], fun j hj => ?_⟩
  rw [hstream, if_neg (by omega), Nat.add_sub_cancel_left, decide_eq_true hj, Bool.true_and]

/-- After the run of a `W_FLUSH` of a writer in sync, `MEM` holds the stream up to the end of the last word that holds
an accepted bit (41_bitwriter.md R133). -/
theorem State.WriterReady.flush_stores {s t : State} (h : s.WriterReady) (ht : Instr.wFlush.writerRun s = some t) :
    t.w.wordIndex.toNat = (s.w.bitsWritten.toNat + 31) / 32 ∧
      ∀ n < 32 * ((s.w.bitsWritten.toNat + 31) / 32), t.mem.streamBit s.w.base.toNat n = s.writtenBit n := by
  have hcursor := h.cursor
  rw [Instr.writerRun] at ht
  split at ht
  · next hs =>
    obtain rfl := Option.some.inj ht
    have hzero : s.w.scratchBits.toNat = 0 := by rw [hs]; rfl
    exact ⟨by omega, fun n hn => (State.writtenBit_stored (by omega)).symm⟩
  · next hs =>
    have hpos : s.w.scratchBits.toNat ≠ 0 := fun h0 => hs (BitVec.eq_of_toNat_eq h0)
    obtain ⟨hindex, hbits⟩ := h.flushPartial_writtenBit ht
    refine ⟨by omega, fun n hn => ?_⟩
    rw [← (State.flushPartial_frame ht).base, ← State.writtenBit_stored (by omega), hbits n (by omega)]

/-- Settles O39: `MEM` holds the stream up to the end of the last word, and there is no bit beyond the accepted ones. -/
theorem flushPutsEveryAcceptedBitInMem : Obligations.FlushPutsEveryAcceptedBitInMem := by
  intro s t h hopen ht hok
  obtain ⟨-, u, hu, rfl⟩ := exec_writer_ok rfl ht hok
  have hready := h.writerReady hopen
  obtain ⟨hindex, hbits⟩ := hready.flush_stores hu
  refine ⟨fun n hn => hbits n (by omega), fun n hn hlast => ?_, hindex⟩
  exact (hbits n hlast).trans (hready.writtenBit_beyond hn)

/-! ## The reader's stream -/

/-- The reader's staged bits are those of its buffer in the memory from its position on (10_state.md R37 (e)). -/
def Reader.FreshIn (r : Reader) (m : Memory) : Prop :=
  ∀ i < r.scratchBits.toNat, r.scratch.getLsbD i = m.streamBit r.base.toNat (r.bitsRead.toNat + i)

theorem State.readerFresh_iff {s : State} : s.readerFresh ↔ s.r.FreshIn s.mem := Iff.rfl

/-- A response does not change the staged bits. -/
@[simp] theorem State.respond_readerFresh (s : State) (st : Status) (data : List Word) :
    (s.respond st data).readerFresh ↔ s.readerFresh := Iff.rfl

/-- A refill from the reader's next word stages the next bits of the buffer (42_bitreader.md R153). -/
theorem Reader.FreshIn.refill {r : Reader} {m : Memory} (h : r.FreshIn m) {memWords : Nat}
    (hinv : r.BoundInv memWords) : (r.refillWith (m.wordAt r.slot)).FreshIn m := by
  obtain ⟨-, -, hs, ha, -, hsync⟩ := hinv
  intro i hi
  rw [Reader.refillWith_scratchBits_toNat hs] at hi
  rw [Reader.getLsbD_refillWith hs ha, Reader.refillWith_base, Reader.refillWith_bitsRead]
  split
  · next hlow => exact h i hlow
  · next hhigh =>
    rw [Memory.streamBit, Reader.slot, show (r.bitsRead.toNat + i) / 32 = r.wordIndex.toNat by omega,
      show (r.bitsRead.toNat + i) % 32 = i - r.scratchBits.toNat by omega]

/-- An extraction from fresh staged bits delivers the next bits of the buffer and leaves the rest fresh
(42_bitreader.md R153). -/
theorem Reader.FreshIn.consume {r : Reader} {m : Memory} (h : r.FreshIn m) {memWords len : Nat} (hl : len ≤ 32)
    (hfilled : r.Filled memWords len) :
    (r.consume len).FreshIn m ∧
      ∀ j, (r.front len).getLsbD j = (decide (j < len) && m.streamBit r.base.toNat (r.bitsRead.toNat + j)) := by
  have henough := hfilled.enough
  constructor
  · intro i hi
    rw [Reader.consume_scratchBits_toNat henough] at hi
    rw [Reader.consume_scratch, BitVec.getLsbD_ushiftRight, h _ (by omega), hfilled.consume.2, Reader.consume_base,
      Nat.add_assoc]
  · intro j
    rw [Reader.getLsbD_front hl]
    by_cases hj : j < len
    · rw [h j (by omega)]
    · simp [hj]

/-- `rbits` of a field that fits, on a fresh reader, delivers the next `len` stream bits and leaves the reader fresh
(42_bitreader.md R152, R153). -/
theorem State.ReaderReady.rbits_stream {s t : State} (h : s.ReaderReady) (hfresh : s.readerFresh) {len : Nat}
    {out : Word} (hl : len ≤ 32) (hfit : s.r.bitsRead.toNat + len ≤ s.r.numBits.toNat)
    (ht : s.rbits len = some (out, t)) :
    t.readerFresh ∧
      ∀ j, out.getLsbD j = (decide (j < len) && s.mem.streamBit s.r.base.toNat (s.r.bitsRead.toNat + j)) := by
  rw [State.readerFresh_iff] at hfresh ⊢
  obtain ⟨hlen, rfl, rfl⟩ | ⟨hlen, -, rfl, rfl⟩ := State.rbits_eq_some.mp ht
  · exact hfresh.consume hl (h.filled hfit hlen)
  · obtain ⟨-, hfilled⟩ := h.filled_refill (s.mem.wordAt s.r.slot) hl hfit hlen
    exact (hfresh.refill h.inv).consume hl hfilled

/-- Settles O46, by the stream `rbits` delivers. -/
theorem rBitsDeliversTheStream : Obligations.RBitsDeliversTheStream := by
  intro len s t out h hfresh ht hok
  obtain ⟨hn, u, hu, rfl⟩ := exec_reader_ok rfl ht hok
  obtain ⟨hready, hrest⟩ := h.deliver_pass hn
  obtain ⟨hlen, hfit, -⟩ : len.toNat ≤ 32 ∧ s.r.bitsRead.toNat + len.toNat ≤ s.r.numBits.toNat ∧ _ := by
    simpa [Reader.tooLong] using hrest
  obtain ⟨⟨out', u'⟩, hrun, he⟩ := Option.map_eq_some_iff.mp hu
  obtain ⟨rfl, rfl⟩ : out' = out ∧ u' = u := by simpa using he
  rw [State.respond_readerFresh]
  exact hready.rbits_stream hfresh hlen hfit hrun

/-- `rbits` of staged bits makes no load, so it does the same whatever `MEM` holds (20_memory.md R72). -/
theorem State.rbits_withMem {s t : State} {len : Nat} {out : Word} (hlen : len ≤ s.r.scratchBits.toNat) (m : Memory)
    (ht : s.rbits len = some (out, t)) : State.rbits len { s with mem := m } = some (out, { t with mem := m }) := by
  refine State.rbits_eq_some.mpr (.inl ?_)
  obtain ⟨-, rfl, rfl⟩ | ⟨hload, -⟩ := State.rbits_eq_some.mp ht
  · exact ⟨hlen, rfl, rfl⟩
  · omega

/-- Settles O47: the tests read registers only, and staged bits are extracted without a load. -/
theorem stagedBitsIgnoreLaterStores : Obligations.StagedBitsIgnoreLaterStores := by
  intro len m s t hlen ht
  rw [exec_reader rfl] at ht ⊢
  refine guarded_next_map (fun t => { t with mem := m }) ht (fun _ => rfl) fun he => ?_
  obtain ⟨p, u, hu, rfl⟩ := finishRead_next he
  obtain ⟨⟨out, v⟩, hrun, hp⟩ := Option.map_eq_some_iff.mp hu
  cases hp
  rw [Instr.readerRun, State.rbits_withMem hlen m hrun]
  rfl

end Sys2Proof.Machine
end

section
/-! PROOFS. O1 to O7: the encoding (30_encoding.md). A row of the opcode map selects a header by its low byte
and the header bits that the row's format keeps zero; a header that selects a row tells how many words the command
takes, and any words of that number assemble to a command. -/

namespace Sys2Proof

/-- Settles O1: the decoder undoes the encoder. -/
theorem decodeEncodeRoundTrip : Obligations.DecodeEncodeRoundTrip := fun _ rest hw => decode_encode_append hw rest

/-! ## What a row selects -/

/-- No two rows have the same `op` (30_encoding.md R96). -/
theorem opRows_op_injective :
    ∀ p ∈ opRows, ∀ q ∈ opRows, p.pattern.setWidth 8 = q.pattern.setWidth 8 → p = q := by decide

/-- Settles O4: two rows that select one header have its low byte in common. -/
theorem opcodeRowsDisjoint : Obligations.OpcodeRowsDisjoint := fun _ p q hp hq hsp hsq =>
  opRows_op_injective p hp q hq ((Laws.selects_low_byte hp hsp).symm.trans (Laws.selects_low_byte hq hsq))

/-- The lowest header bit that a format keeps zero, with all bits above it; none below bit 32 for `N` and `NP`
(30_encoding.md R91). -/
def Format.zeroFrom : Format → Nat
  | .z | .v1 | .v2 | .v3 => 8
  | .l | .lv => 14
  | .n | .np => 32

/-- The mask of a row covers its `op` byte and the bits its format keeps zero; its pattern is the `op` alone
(30_encoding.md R96). -/
theorem opRows_mask_pattern : ∀ r ∈ opRows,
    r.mask = 0xFF ||| (BitVec.allOnes 32 <<< r.format.zeroFrom) ∧ r.pattern.toNat < 2 ^ 8 ∧ 8 ≤ r.format.zeroFrom := by
  decide

/-- Bit `i` of a mask that covers the low byte and everything from bit `k` up. -/
theorem getLsbD_mask_from (k : Nat) {i : Nat} (hi : i < 32) :
    (0xFF ||| (BitVec.allOnes 32 <<< k) : Word).getLsbD i = (decide (i < 8) || decide (k ≤ i)) := by
  have hlow : (0xFF : Word).getLsbD i = decide (i < 8) := by
    rw [show (0xFF : Word) = BitVec.ofNat 32 (2 ^ 8 - 1) from rfl, BitVec.getLsbD_ofNat, Nat.testBit_two_pow_sub_one,
      decide_eq_true hi, Bool.true_and]
  have hlt : i - k < 32 := by omega
  rw [BitVec.getLsbD_or, hlow, BitVec.getLsbD_shiftLeft, BitVec.getLsbD_allOnes]
  simp only [hi, hlt, decide_true, Bool.true_and, Bool.and_true, ← decide_not, Nat.not_lt]

/-- A header under such a mask is a number below 256 exactly when that is its low byte and its bits from `k` up are
zero. -/
theorem and_mask_from_eq_iff {h op : Word} {k : Nat} (hop : op.toNat < 2 ^ 8) (hk : 8 ≤ k) :
    h &&& (0xFF ||| (BitVec.allOnes 32 <<< k)) = op ↔ h.toNat % 2 ^ 8 = op.toNat ∧ h.toNat / 2 ^ k = 0 := by
  have hhigh (i : Nat) (hi : 8 ≤ i) : op.getLsbD i = false :=
    Nat.testBit_lt_two_pow (hop.trans_le (Nat.pow_le_pow_right (by norm_num) hi))
  constructor
  · intro he
    have hbit (i : Nat) (hi : i < 32) : (h.getLsbD i && (decide (i < 8) || decide (k ≤ i))) = op.getLsbD i := by
      rw [← he, BitVec.getLsbD_and, getLsbD_mask_from k hi]
    refine ⟨Nat.eq_of_testBit_eq fun i => ?_, Nat.eq_of_testBit_eq fun i => ?_⟩
    · rw [Nat.testBit_mod_two_pow, BitVec.testBit_toNat, BitVec.testBit_toNat]
      by_cases hi : i < 8
      · simpa [hi] using hbit i (by omega)
      · simp [hi, hhigh i (by omega)]
    · rw [Nat.testBit_div_two_pow, BitVec.testBit_toNat, Nat.zero_testBit]
      by_cases hi : i + k < 32
      · simpa [hhigh (i + k) (by omega)] using hbit (i + k) hi
      · exact BitVec.getLsbD_of_ge _ _ (by omega)
  · rintro ⟨hlow, hzero⟩
    have hfrom (i : Nat) (hi : k ≤ i) : h.getLsbD i = false :=
      Nat.testBit_lt_two_pow ((Nat.lt_of_div_eq_zero (Nat.two_pow_pos k) hzero).trans_le
        (Nat.pow_le_pow_right (by norm_num) hi))
    refine BitVec.eq_of_getLsbD_eq fun i hi => ?_
    rw [BitVec.getLsbD_and, getLsbD_mask_from k hi]
    by_cases h8 : i < 8
    · rw [BitVec.getLsbD, BitVec.getLsbD, ← hlow, Nat.testBit_mod_two_pow]
      simp [h8]
    · rw [hhigh i (by omega)]
      by_cases hki : k ≤ i
      · rw [hfrom i hki, Bool.false_and]
      · simp [h8, hki]

/-- A row selects the headers with its `op` and zeros in the bits its format keeps zero (30_encoding.md R91, R96). -/
theorem selects_iff {r : OpRow} (hr : r ∈ opRows) (h : Word) :
    r.selects h = true ↔ h.toNat % 2 ^ 8 = r.pattern.toNat ∧ h.toNat / 2 ^ r.format.zeroFrom = 0 := by
  obtain ⟨hmask, hop, hfrom⟩ := opRows_mask_pattern r hr
  rw [OpRow.selects, beq_iff_eq, hmask, and_mask_from_eq_iff hop hfrom]

/-- A header selects no row when it fails the conditions of every row (30_encoding.md R97). -/
theorem rowOf_eq_none_iff {h : Word} :
    rowOf h = none ↔ ∀ r ∈ opRows, h.toNat % 2 ^ 8 = r.pattern.toNat → h.toNat / 2 ^ r.format.zeroFrom ≠ 0 := by
  rw [rowOf, List.find?_eq_none]
  exact forall₂_congr fun r hr => by rw [selects_iff hr, not_and]

/-- The row of a header is one of the thirteen. -/
theorem mem_of_rowOf {h : Word} {r : OpRow} (hr : rowOf h = some r) : r ∈ opRows := List.mem_of_find?_eq_some hr

/-! ## Illegal headers -/

theorem decode_of_rowOf_none {h : Word} (hn : rowOf h = none) (rest : List Word) :
    decode (h :: rest) = .error .illegalCommand := by simp only [decode, hn]

theorem commandWords_of_rowOf_none {h : Word} (hn : rowOf h = none) : commandWords h = 1 := by
  simp only [commandWords, hn]

/-- The `op` of a row is listed; it stands in the list of its format's must-be-zero bits and in no other
(30_encoding.md R96, R97). -/
theorem op_of_row : ∀ r ∈ opRows,
    r.pattern.toNat ∈ [0x01, 0x02, 0x10, 0x11, 0x12, 0x13, 0x14, 0x15, 0x20, 0x21, 0x23, 0x24, 0x25] ∧
      (r.pattern.toNat ∈ [0x01, 0x02, 0x10, 0x12, 0x13, 0x15, 0x20, 0x23, 0x25] → r.format.zeroFrom = 8) ∧
      (r.pattern.toNat ∈ [0x11, 0x21] → r.format.zeroFrom = 14) := by decide

/-- Every listed `op` has a row, with the must-be-zero bits of its list (30_encoding.md R96, R97). -/
theorem row_of_op : ∀ op ∈ [0x01, 0x02, 0x10, 0x11, 0x12, 0x13, 0x14, 0x15, 0x20, 0x21, 0x23, 0x24, 0x25],
    ∃ r ∈ opRows, op = r.pattern.toNat ∧
      (op ∈ [0x01, 0x02, 0x10, 0x12, 0x13, 0x15, 0x20, 0x23, 0x25] ∧ r.format.zeroFrom = 8 ∨
        op ∈ [0x11, 0x21] ∧ r.format.zeroFrom = 14 ∨ r.format.zeroFrom = 32) := by decide

/-- Settles O5: a header is illegal when its `op` has no row, or the row of its `op` does not select it. -/
theorem illegalHeadersAreThoseOfTheSpec : Obligations.IllegalHeadersAreThoseOfTheSpec := by
  intro h rest op illegal
  have hnone : rowOf h = none ↔ illegal := by
    rw [rowOf_eq_none_iff]
    constructor
    · intro hno
      by_cases hop : op ∈ [0x01, 0x02, 0x10, 0x11, 0x12, 0x13, 0x14, 0x15, 0x20, 0x21, 0x23, 0x24, 0x25]
      · obtain ⟨r, hr, hpat, hformat⟩ := row_of_op op hop
        have hzero := hno r hr hpat
        obtain ⟨hlist, hk⟩ | ⟨hlist, hk⟩ | hk := hformat <;> rw [hk] at hzero
        · exact .inr (.inl ⟨hlist, hzero⟩)
        · exact .inr (.inr ⟨hlist, hzero⟩)
        · exact absurd (Nat.div_eq_of_lt h.isLt) hzero
      · exact .inl hop
    · intro hill r hr hpat
      obtain ⟨hlisted, h8, h14⟩ := op_of_row r hr
      rw [← hpat] at hlisted h8 h14
      obtain hop | ⟨hlist, hzero⟩ | ⟨hlist, hzero⟩ := hill
      · exact absurd hlisted hop
      · rwa [h8 hlist]
      · rwa [h14 hlist]
  exact ⟨hnone, fun hi => ⟨decode_of_rowOf_none (hnone.mpr hi) rest, commandWords_of_rowOf_none (hnone.mpr hi)⟩⟩

/-! ## Commands and their lengths -/

/-- The format of each operation (30_encoding.md R96). -/
def Op.format : Op → Format
  | .wFlush | .wAlign | .rAlign => .z
  | .rBits => .l
  | .wBits => .lv
  | .cPopcnt => .v1
  | .cBitsreq | .wNew | .rNew | .rInt => .v2
  | .wInt => .v3
  | .rBytes => .n
  | .wBytes => .np

theorem opRows_format : ∀ r ∈ opRows, r.format = r.op.format := by decide

theorem commandWords_of_rowOf {h : Word} {r : OpRow} (hr : rowOf h = some r) :
    commandWords h = 1 + r.format.operandWords h := by simp only [commandWords, hr]

theorem bytesOfWord_length (w : Word) : (bytesOfWord w).length = 4 := rfl

/-- The payload words of a byte count hold that many bytes (30_encoding.md R94). -/
theorem unpackBytes_length {n : Nat} {ws : List Word} (h : ws.length = (n + 3) / 4) :
    (unpackBytes n ws).length = n := by
  have hall : (ws.flatMap bytesOfWord).length = 4 * ws.length := by
    simp [List.length_flatMap, bytesOfWord_length, Nat.mul_comm]
  rw [unpackBytes, List.length_take, hall]
  omega

/-- The right number of operand words assembles to a well-formed command of that length (30_encoding.md R91, R95). -/
theorem assemble_of_length {o : Op} {h : Word} {args : List Word} (hn : args.length = o.format.operandWords h) :
    ∃ i, assemble o h args = some i ∧ i.wellFormed = true ∧ (encode i).length = 1 + o.format.operandWords h := by
  cases o with
  | wFlush | wAlign | rAlign | rBits | rBytes =>
    obtain rfl := List.length_eq_zero_iff.mp hn
    exact ⟨_, rfl, rfl, rfl⟩
  | cPopcnt | wBits =>
    obtain ⟨a, rfl⟩ := List.length_eq_one_iff.mp hn
    exact ⟨_, rfl, rfl, rfl⟩
  | cBitsreq | wNew | rNew | rInt =>
    obtain ⟨a, b, rfl⟩ := List.length_eq_two.mp hn
    exact ⟨_, rfl, rfl, rfl⟩
  | wInt =>
    obtain ⟨a, b, c, rfl⟩ := List.length_eq_three.mp hn
    exact ⟨_, rfl, rfl, rfl⟩
  | wBytes =>
    have hdata : (unpackBytes (headerCount h).toNat args).length = (headerCount h).toNat := unpackBytes_length hn
    refine ⟨_, assemble_wBytes h args, ?_, ?_⟩
    · rw [Instr.wellFormed, hdata, decide_eq_true (headerCount h).isLt]
    · rw [encode, List.length_cons, Laws.packBytes_length, hdata, Nat.add_comm]
      rfl

/-- The decoder on a header that selects a row, its operand words, and any words after them. -/
theorem decode_of_rowOf {h : Word} {args : List Word} {r : OpRow} {i : Instr} (hr : rowOf h = some r)
    (hn : args.length = r.format.operandWords h) (ha : assemble r.op h args = some i) (rest : List Word) :
    decode (h :: args ++ rest) = .ok (i, rest) := by
  have hlen : ¬ (args ++ rest).length < args.length := by simp
  simp only [List.cons_append, decode, hr, ← hn, if_neg hlen, List.take_left, List.drop_left, ha]

/-- The decoder on a header that asks for more words than there are (log 5). -/
theorem decode_incomplete {h : Word} {rest : List Word} {r : OpRow} (hr : rowOf h = some r)
    (hshort : rest.length < r.format.operandWords h) : decode (h :: rest) = .error .incompleteCommand := by
  simp only [decode, hr, if_pos hshort]

/-- Settles O6, by the row of the header and whether its operand words are there. -/
theorem decoderTakesTheHeadersLength : Obligations.DecoderTakesTheHeadersLength := by
  intro h rest
  cases hr : rowOf h with
  | none => exact .inr (.inl ⟨decode_of_rowOf_none hr rest, rfl⟩)
  | some r =>
    have hwords := commandWords_of_rowOf hr
    by_cases hshort : rest.length < r.format.operandWords h
    · exact .inr (.inr ⟨decode_incomplete hr hshort, by omega⟩)
    · have hn : (rest.take (r.format.operandWords h)).length = r.format.operandWords h :=
        List.length_take_of_le (Nat.le_of_not_lt hshort)
      have hformat := opRows_format r (mem_of_rowOf hr)
      obtain ⟨i, ha, hwf, hlen⟩ := assemble_of_length (hn.trans (congrArg (·.operandWords h) hformat))
      have hdecode := decode_of_rowOf hr hn ha (rest.drop (r.format.operandWords h))
      rw [List.cons_append, List.take_append_drop] at hdecode
      refine .inl ⟨i, ?_, hwf, by omega, by rw [hlen, hwords, hformat]⟩
      rw [hdecode, hwords, Nat.add_sub_cancel_left]

/-! ## The payload of `W_BYTES` -/

/-- Byte `4j + k` of a list of words is byte `k` of word `j` (30_encoding.md R94). -/
theorem getD_flatMap_bytesOfWord (ws : List Word) (i : Nat) :
    (ws.flatMap bytesOfWord).getD i 0 = byteOfWord (ws.getD (i / 4) 0) (i % 4) := by
  induction ws generalizing i with
  | nil => simp [byteOfWord]
  | cons w rest ih =>
    match i with
    | 0 | 1 | 2 | 3 => rfl
    | j + 4 =>
      have hj : (j + 4) / 4 = j / 4 + 1 := by omega
      have hk : (j + 4) % 4 = j % 4 := by omega
      rw [hj, hk]
      exact ih j

theorem getD_unpackBytes {n i : Nat} (hi : i < n) (ws : List Word) :
    (unpackBytes n ws).getD i 0 = byteOfWord (ws.getD (i / 4) 0) (i % 4) := by
  rw [← getD_flatMap_bytesOfWord, unpackBytes, List.getD_eq_getElem?_getD, List.getElem?_take_of_lt hi,
    List.getD_eq_getElem?_getD]

/-- Settles O7: the command decoded is the payload unpacked. -/
theorem payloadBytesAreLittleEndian : Obligations.PayloadBytesAreLittleEndian := by
  intro n payload rest hlen
  refine ⟨unpackBytes n.toNat payload, ?_, unpackBytes_length hlen, fun i hi => ?_⟩
  · refine decode_of_rowOf (Laws.rowOf_wBytes n) ?_ ?_ rest
    · rw [Format.operandWords, Laws.headerCount_countHeader, hlen]
    · rw [assemble_wBytes, Laws.headerCount_countHeader]
  · rw [getD_unpackBytes hi, Machine.byteOfWord_eq]

/-! ## Worked encodings -/

/-- Settles O2: the six commands and their words are closed terms. -/
theorem workedEncodingsDecode : Obligations.WorkedEncodingsDecode := by
  unfold Obligations.WorkedEncodingsDecode
  decide

/-- Settles O3: each line stands for one command. -/
theorem assemblerWritesTheWorkedEncodings : Obligations.AssemblerWritesTheWorkedEncodings := by
  simp only [Obligations.AssemblerWritesTheWorkedEncodings, List.forall_mem_cons]
  refine ⟨⟨.wBits 0x2B 6, by decide⟩, ⟨.rBits 32, by decide⟩, ⟨.wBytes [0x68, 0x65, 0x6C, 0x6C, 0x6F], by decide⟩,
    ⟨.wInt (-3) (-5) 10, by decide⟩, ⟨.wNew 0 16, by decide⟩, ⟨.wFlush, by decide⟩, ?_⟩
  exact fun _ hp => absurd hp List.not_mem_nil

end Sys2Proof
end

section
/-! PROOFS. O9, O14, O33, O57: the responses of commands (30_encoding.md R97, R100, R107). A writer command that raises
a status leaves a writer that refuses every further writer command; a status raised by a test is never `OK`. -/

namespace Sys2Proof.Machine

/-! ## Status words and illegal headers -/

/-- A status word is the code, zeros above it (30_encoding.md R100). -/
theorem Status.word_toNat (st : Status) : st.word.toNat = st.code.toNat := by
  rw [Status.word, BitVec.toNat_setWidth, Nat.mod_eq_of_lt (st.code.isLt.trans (by norm_num))]

/-- No status has one of the codes 13 to 15 (60_exceptions.md R181). -/
theorem Status.code_le (st : Status) : st.code.toNat ≤ 12 := by cases st <;> decide

/-- Settles O14, from the table of the codes. -/
theorem statusWordsCarryTheCodes : Obligations.StatusWordsCarryTheCodes :=
  ⟨by decide, fun st _ => ⟨rfl, st.word_toNat ▸ st.code_le⟩⟩

/-- Settles O9: the port offers an illegal header, and its response is all that changes. -/
theorem illegalHeaderChangesNothing : Obligations.IllegalHeaderChangesNothing := by
  intro s h more hrow hs
  have hoffer : offer s.inbox = .illegal := by rw [hs, offer_illegal hrow]
  have hstep : step s = .next ((s.take 1).raise .illegalCommand) := by simp only [step, hoffer, illegalHeader]
  rw [hstep, State.take, hs]
  rfl

/-! ## A writer after a failure -/

/-- The tests of a writer command are those of `wadmit` and then fatal ones (41_bitwriter.md R130, 60_exceptions.md
R184). -/
theorem writerTests_eq_append (i : Instr) (w : Writer) :
    ∃ rest, i.writerTests w = w.wadmit ++ rest ∧ ∀ p ∈ rest, p.2.fatal = true := by
  cases i with
  | wBits | wAlign | wBytes | wInt => exact ⟨_, List.append_assoc _ _ _, by simp [Status.fatal]⟩
  | wFlush => exact ⟨_, rfl, by simp [Status.fatal]⟩
  | cPopcnt | cBitsreq | wNew | rNew | rBits | rAlign | rBytes | rInt =>
    exact ⟨[], (List.append_nil _).symm, fun _ hp => absurd hp List.not_mem_nil⟩

/-- The second test of every writer command is the fault latch (41_bitwriter.md R130). -/
theorem writerTests_faulted (i : Instr) {w : Writer} (hb : w.bound = true) (hf : w.fault ≠ 0) :
    firstRaise (i.writerTests w) = some .faulted := by
  obtain ⟨rest, hrest, -⟩ := writerTests_eq_append i w
  have hadmit : firstRaise w.wadmit = some .faulted := by
    rw [Writer.wadmit, hb, bne_iff_ne.mpr hf]
    rfl
  rw [hrest, firstRaise_append_of_some hadmit]

/-- A status that a bound and unfaulted writer raises is fatal (60_exceptions.md R184). -/
theorem writerTests_fatal {i : Instr} {w : Writer} {st : Status} (hb : w.bound = true) (hf : w.fault = 0)
    (hst : firstRaise (i.writerTests w) = some st) : st.fatal = true := by
  obtain ⟨rest, hrest, hfatal⟩ := writerTests_eq_append i w
  have hadmit : firstRaise w.wadmit = none := by
    rw [Writer.wadmit, hb, hf]
    rfl
  rw [hrest, firstRaise_append, hadmit, Option.none_or] at hst
  exact hfatal _ (firstRaise_mem hst)

theorem Status.code_ne_zero_of_fatal {st : Status} (h : st.fatal = true) : st.code ≠ 0 := by
  cases st with
  | capacityExceeded | misaligned | bitsRange | rangeContract | bufferBounds | desync => decide
  | ok | invalidCapacity | overflow | paddingNonZero | notBound | faulted | illegalCommand => cases h

/-- After a writer command that raised a status, every writer command is refused: the writer is unbound, or its latch
is set (60_exceptions.md R184). -/
theorem writerTests_latch {i : Instr} {w : Writer} {st : Status} (hst : firstRaise (i.writerTests w) = some st)
    (j : Instr) : ∃ st' ∈ [Status.notBound, .faulted], firstRaise (j.writerTests (w.latch st)) = some st' := by
  cases hb : w.bound with
  | false => exact ⟨.notBound, by simp, writerTests_unbound j hb⟩
  | true =>
    refine ⟨.faulted, by simp, writerTests_faulted j hb ?_⟩
    by_cases hf : w.fault = 0
    · have hfatal := writerTests_fatal hb hf hst
      rw [Writer.latch_fault, if_pos hfatal]
      exact Status.code_ne_zero_of_fatal hfatal
    · obtain rfl : .faulted = st := Option.some.inj ((writerTests_faulted i hb hf).symm.trans hst)
      exact hf

/-- A refusal is not latched: only the response changes (60_exceptions.md R184). -/
theorem State.raiseLatched_of_refusal (s : State) {st : Status} (h : st ∈ [Status.notBound, .faulted]) :
    s.raiseLatched st = { s with response := some ⟨st, []⟩ } := by
  obtain rfl | rfl : st = .notBound ∨ st = .faulted := by simpa using h
  · rfl
  · rfl

/-- The padding reaches the next byte boundary (41_bitwriter.md R135). -/
theorem add_padding_mod_eight (bits : BitVec 32) : (bits.toNat + padding bits) % 8 = 0 := by
  rw [padding]
  omega

/-- The run of a `W_ALIGN` accepts the padding (41_bitwriter.md R135). -/
theorem State.WriterReady.align_bitsWritten {s t : State} (h : s.WriterReady)
    (ht : Instr.wAlign.writerRun s = some t) :
    t.w.bitsWritten.toNat = s.w.bitsWritten.toNat + padding s.w.bitsWritten := by
  rw [Instr.writerRun] at ht
  split at ht
  · next h0 => rw [h0, ← Option.some.inj ht, Nat.add_zero]
  · obtain ⟨u, hu, hadv⟩ := h.wbits 0 ((padding_lt _).le.trans (by norm_num)) h.padding_fits
    obtain rfl : u = t := Option.some.inj (hu.symm.trans ht)
    exact hadv.bitsWritten

/-- Settles O33: a failed `W_ALIGN` leaves a writer that refuses; one that completes reaches a byte boundary. -/
theorem alignedByteWriteFailsAsAWhole : Obligations.AlignedByteWriteFailsAsAWhole := by
  intro data s t st ht hst
  refine ⟨rfl, fun hne => ?_, fun hok h => ?_⟩
  · rw [exec_writer rfl] at ht
    obtain ⟨st', hraised, rfl⟩ | ⟨-, he⟩ := guarded_next ht
    · refine ⟨rfl, ?_⟩
      obtain ⟨st'', hmem, hrefused⟩ := writerTests_latch hraised (.wBytes data)
      refine ⟨st'', hmem, ?_⟩
      rw [exec_writer rfl, State.raiseLatched_w, guarded_some hrefused, State.raiseLatched_of_refusal _ hmem]
      rfl
    · obtain ⟨u, -, rfl⟩ := finishWrite_next he
      exact absurd (by simpa [State.Answered] using hst.symm) hne
  · subst hok
    obtain ⟨hn, u, hu, rfl⟩ := exec_writer_ok rfl ht hst
    obtain ⟨hready, -⟩ := h.accept_pass hn
    rw [State.respond_w, hready.align_bitsWritten hu, add_padding_mod_eight]

/-! ## The shape of a response -/

/-- Data words follow only an `OK`, as many as the command's row says (30_encoding.md R100). -/
def Response.HasShape (p : Response) (i : Instr) : Prop := p.data.length = if p.status = .ok then i.dataWords else 0

/-- The response to a status that a test raised has no data words. -/
theorem raised_hasShape {tests : List (Bool × Status)} {st : Status} (hne : ∀ p ∈ tests, p.2 ≠ .ok)
    (hst : firstRaise tests = some st) (i : Instr) : Response.HasShape ⟨st, []⟩ i :=
  (if_neg (hne _ (firstRaise_mem hst))).symm

theorem newTests_ne_ok (base cap : Word) (memWords : Nat) : ∀ p ∈ newTests base cap memWords, p.2 ≠ .ok := by
  simp [newTests]

theorem bitsreqTests_ne_ok (min max : Word) : ∀ p ∈ bitsreqTests min max, p.2 ≠ .ok := by simp [bitsreqTests]

/-- The writer's commands deliver no data words (30_encoding.md R100). -/
theorem dataWords_writer {i : Instr} (hi : i.isWriterCommand = true) : i.dataWords = 0 := by
  cases i with
  | wBits | wFlush | wAlign | wBytes | wInt => rfl
  | cPopcnt | cBitsreq | wNew | rNew | rBits | rAlign | rBytes | rInt => cases hi

/-- The response of a run of the reader's datapath. -/
theorem readerRun_hasShape {i : Instr} {s t : State} {p : Response} (h : i.readerRun s = some (p, t)) :
    p.HasShape i := by
  cases i with
  | rBits | rInt =>
    obtain ⟨⟨out, u⟩, -, he⟩ := Option.map_eq_some_iff.mp h
    cases he
    rfl
  | rAlign =>
    rw [Instr.readerRun] at h
    split at h
    · cases h
      rfl
    · obtain ⟨⟨out, u⟩, -, he⟩ := Option.map_eq_some_iff.mp h
      cases he
      exact (ite_self 0).symm
  | rBytes n =>
    obtain ⟨⟨data, u⟩, hu, he⟩ := Option.map_eq_some_iff.mp h
    cases he
    show (packBytes data).length = (n.toNat + 3) / 4
    rw [Laws.packBytes_length, (State.rbytes_frame hu).2]
  | cPopcnt | cBitsreq | wNew | wBits | wFlush | wAlign | wBytes | wInt | rNew => cases h

/-- Every command that completes gives a response of its shape. -/
theorem exec_hasShape {i : Instr} {s t : State} (h : exec i s = .next t) :
    ∃ p, t.response = some p ∧ p.HasShape i := by
  cases i with
  | cPopcnt =>
    cases h
    exact ⟨_, rfl, rfl⟩
  | cBitsreq =>
    obtain ⟨st, hst, rfl⟩ | ⟨-, he⟩ := guarded_next h
    · exact ⟨_, rfl, raised_hasShape (bitsreqTests_ne_ok _ _) hst _⟩
    · cases he
      exact ⟨_, rfl, rfl⟩
  | wNew | rNew =>
    obtain ⟨st, hst, rfl⟩ | ⟨-, he⟩ := guarded_next h
    · exact ⟨_, rfl, raised_hasShape (newTests_ne_ok _ _ _) hst _⟩
    · cases he
      exact ⟨_, rfl, rfl⟩
  | wBits | wFlush | wAlign | wBytes | wInt =>
    rw [exec_writer rfl] at h
    obtain ⟨st, hst, rfl⟩ | ⟨-, he⟩ := guarded_next h
    · exact ⟨_, rfl, raised_hasShape (writerTests_ne_ok _ _) hst _⟩
    · obtain ⟨u, -, rfl⟩ := finishWrite_next he
      exact ⟨_, rfl, rfl⟩
  | rBits | rAlign | rBytes | rInt =>
    rw [exec_reader rfl] at h
    obtain ⟨st, hst, rfl⟩ | ⟨-, he⟩ := guarded_next h
    · exact ⟨_, rfl, raised_hasShape (readerTests_ne_ok _ _) hst _⟩
    · obtain ⟨p, u, hu, rfl⟩ := finishRead_next he
      exact ⟨p, rfl, readerRun_hasShape hu⟩

/-- Settles O57: a raised status comes without data, and each run answers in its command's shape. -/
theorem responsesHaveTheirShape : Obligations.ResponsesHaveTheirShape := by
  intro i s t h
  obtain ⟨p, hp, hshape⟩ := exec_hasShape h
  exact ⟨p.status, p.data, hp, hshape⟩

end Sys2Proof.Machine
end

section
/-! PROOFS. O15 to O21: the calculator (40_bitmath.md). A population count is a sum over bits; `smear` spreads the
highest bit over all bits below it, which makes `bitlen` the length in binary; the SWAR recipe adds the fields of a word
in pairs, so that each of its steps keeps the sum of all fields. -/

namespace Sys2Proof.Machine

/-! ## The population count -/

theorem popcount_eq_sum (x : Word) : popcount x = ∑ i ∈ Finset.range 32, (x.getLsbD i).toNat := rfl

/-- The population count counts the positions of the one bits (40_bitmath.md R120). -/
theorem popcount_eq_card (x : Word) : popcount x = (Finset.univ.filter fun i : Fin 32 => x.getLsbD i = true).card := by
  rw [popcount_eq_sum, Finset.sum_range, Finset.card_filter]
  exact Finset.sum_congr rfl fun _ _ => Bool.cond_eq_ite ..

theorem popcount_le (x : Word) : popcount x ≤ 32 := sum_bits_le x 32

/-- Settles O15. -/
theorem popcountCountsTheOnes : Obligations.PopcountCountsTheOnes := fun x => ⟨popcount_eq_card x, popcount_le x⟩

/-- Settles O20: the response carries `popcount`, which counts the one bits. -/
theorem popcntCommandAnswersTheCount : Obligations.PopcntCommandAnswersTheCount := by
  intro x s
  rw [← popcount_eq_card]
  rfl

/-- A word whose one bits are the lowest `k` has `k` of them. -/
theorem popcount_of_low_ones {x : Word} {k : Nat} (hk : k ≤ 32) (hx : ∀ i, x.getLsbD i = decide (i < k)) :
    popcount x = k := by
  rw [popcount_eq_card]
  simp only [hx, decide_eq_true_eq, Fin.card_filter_val_lt, Nat.min_eq_right hk]

/-! ## The smear -/

/-- Bit `i` of `y` says whether one of the `n` bits of `x` from bit `i` on is set. -/
def SmearsBy (n : Nat) (x y : Word) : Prop := ∀ i, y.getLsbD i = true ↔ ∃ j < n, x.getLsbD (i + j) = true

theorem smearsBy_one (x : Word) : SmearsBy 1 x x := fun i => by simp

/-- One step of the recipe doubles the distance over which bits are spread (40_bitmath.md R121). -/
theorem SmearsBy.double {n : Nat} {x y : Word} (h : SmearsBy n x y) : SmearsBy (n + n) x (y ||| (y >>> n)) := by
  intro i
  rw [BitVec.getLsbD_or, BitVec.getLsbD_ushiftRight, Bool.or_eq_true, h, h]
  constructor
  · rintro (⟨j, hj, hx⟩ | ⟨j, hj, hx⟩)
    · exact ⟨j, by omega, hx⟩
    · exact ⟨n + j, by omega, by rwa [← Nat.add_assoc, Nat.add_comm i]⟩
  · rintro ⟨j, hj, hx⟩
    obtain hlow | hhigh := Nat.lt_or_ge j n
    · exact .inl ⟨j, hlow, hx⟩
    · exact .inr ⟨j - n, by omega, by rwa [show n + i + (j - n) = i + j by omega]⟩

theorem smearsBy_smear (x : Word) : SmearsBy 32 x (smear x) := (smearsBy_one x).double.double.double.double.double

/-- `k` is the index of the highest set bit of `x`. -/
def IsHighestBit (x : Word) (k : Nat) : Prop := x.getLsbD k = true ∧ ∀ j, k < j → x.getLsbD j = false

theorem IsHighestBit.lt {x : Word} {k : Nat} (h : IsHighestBit x k) : k < 32 := BitVec.lt_of_getLsbD h.1

/-- The smear sets exactly the bits up to the highest set one (40_bitmath.md R121). -/
theorem IsHighestBit.getLsbD_smear {x : Word} {k : Nat} (h : IsHighestBit x k) (i : Nat) :
    (smear x).getLsbD i = decide (i < k + 1) := by
  obtain ⟨hset, habove⟩ := h
  rw [Bool.eq_iff_iff, decide_eq_true_eq, smearsBy_smear x i]
  constructor
  · rintro ⟨j, -, hx⟩
    by_contra hi
    exact Bool.noConfusion ((habove (i + j) (by omega)).symm.trans hx)
  · intro hi
    have hk := BitVec.lt_of_getLsbD hset
    exact ⟨k - i, by omega, by rwa [Nat.add_sub_of_le (by omega)]⟩

/-- Settles O17. -/
theorem smearFillsBelowTheHighestBit : Obligations.SmearFillsBelowTheHighestBit := by
  refine ⟨by decide, fun x k hset habove => Nat.eq_of_testBit_eq fun i => ?_⟩
  rw [Nat.testBit_two_pow_sub_one]
  exact IsHighestBit.getLsbD_smear ⟨hset, habove⟩ i

/-! ## The bit length -/

/-- The highest set bit of a non-zero word is the logarithm of its value. -/
theorem isHighestBit_log {d : Word} (hd : d ≠ 0) : IsHighestBit d (Nat.log 2 d.toNat) := by
  have hne : d.toNat ≠ 0 := fun h => hd (BitVec.eq_of_toNat_eq h)
  obtain ⟨k, hset, habove⟩ := Nat.exists_most_significant_bit hne
  have hlog : Nat.log 2 d.toNat = k :=
    Nat.log_eq_of_pow_le_of_lt_pow (Nat.ge_two_pow_of_testBit hset)
      (Nat.lt_pow_two_of_testBit _ fun i hi => habove i hi)
  rw [hlog]
  exact ⟨hset, habove⟩

/-- The recipe for the rounded-down logarithm (40_bitmath.md R122). -/
theorem popcount_smear_shift {d : Word} (hd : d ≠ 0) : popcount (smear d >>> 1) = Nat.log 2 d.toNat := by
  have h := isHighestBit_log hd
  refine popcount_of_low_ones h.lt.le fun i => ?_
  rw [BitVec.getLsbD_ushiftRight, h.getLsbD_smear, decide_eq_decide]
  omega

theorem bitlen_zero : bitlen 0 = 0 := if_pos rfl

theorem bitlen_of_ne_zero {d : Word} (hd : d ≠ 0) : bitlen d = Nat.log 2 d.toNat + 1 := by
  rw [bitlen, if_neg hd, popcount_smear_shift hd]

/-- Settles O18. -/
theorem bitlenIsTheBinaryLength : Obligations.BitlenIsTheBinaryLength :=
  ⟨bitlen_zero, by decide, fun _ hd => ⟨bitlen_of_ne_zero hd, popcount_smear_shift hd⟩⟩

/-! ## The bits of a range -/

/-- A non-zero number below `2^y` is one whose successor is at most `2^y`: both count its binary digits (40_bitmath.md
R125). -/
theorem clog_succ_eq_log_add_one {d : Nat} (hd : d ≠ 0) : Nat.clog 2 (d + 1) = Nat.log 2 d + 1 := by
  refine eq_of_forall_ge_iff fun y => ?_
  calc Nat.clog 2 (d + 1) ≤ y
      ↔ d < 2 ^ y := Nat.clog_le_iff_le_pow (by norm_num)
    _ ↔ Nat.log 2 d + 1 ≤ y := (Nat.log_lt_iff_lt_pow (by norm_num) hd).symm

/-- The signed reading of a word by its top bit (00_scope.md R8). -/
theorem s32_cases (v : Word) :
    v.toNat < 2 ^ 31 ∧ s32 v = v.toNat ∨ 2 ^ 31 ≤ v.toNat ∧ s32 v = v.toNat - 2 ^ 32 := by
  rw [s32]
  split
  · next hv => exact .inl ⟨hv, rfl⟩
  · next hv => exact .inr ⟨Nat.le_of_not_lt hv, rfl⟩

/-- On an ordered range the wrapping difference of the words is the difference of the integers (40_bitmath.md R124). -/
theorem toNat_sub_of_s32_le {min max : Word} (h : s32 min ≤ s32 max) :
    (max - min).toNat = (s32 max - s32 min).toNat := by
  have := min.isLt
  have := max.isLt
  have := s32_cases min
  have := s32_cases max
  rw [BitVec.toNat_sub]
  omega

/-- `bits_required` is the bit length of the difference, for equal bounds too (40_bitmath.md R125). -/
theorem bitsRequired_eq_bitlen (min max : Word) : bitsRequired min max = bitlen (max - min) := by
  rw [bitsRequired]
  split
  · next h => rw [h, BitVec.sub_self]; exact bitlen_zero.symm
  · rfl

/-- `bits_required` by the rounded-down logarithm (40_bitmath.md R125). -/
theorem bitsRequired_eq_log {min max : Word} (h : s32 min ≤ s32 max) :
    bitsRequired min max =
      if (s32 max - s32 min).toNat = 0 then 0 else Nat.log 2 (s32 max - s32 min).toNat + 1 := by
  rw [bitsRequired_eq_bitlen, ← toNat_sub_of_s32_le h]
  split
  · next hd => rw [BitVec.eq_of_toNat_eq hd (y := 0)]; exact bitlen_zero
  · next hd => exact bitlen_of_ne_zero fun h0 => hd (congrArg BitVec.toNat h0)

/-- `bits_required` by the rounded-up logarithm (40_bitmath.md R125). -/
theorem bitsRequired_eq_clog {min max : Word} (h : s32 min ≤ s32 max) :
    bitsRequired min max = Nat.clog 2 ((s32 max - s32 min).toNat + 1) := by
  rw [bitsRequired_eq_log h]
  split
  · next hd => rw [hd]; exact (Nat.clog_one_right 2).symm
  · next hd => exact (clog_succ_eq_log_add_one hd).symm

/-- A range takes all 32 bits exactly when it holds more than `2^31` integers (40_bitmath.md R125). -/
theorem bitsRequired_eq_32_iff {min max : Word} (h : s32 min ≤ s32 max) :
    bitsRequired min max = 32 ↔ 2 ^ 31 ≤ (s32 max - s32 min).toNat := by
  have hle := bitsRequired_le min max
  have hmore : 31 < bitsRequired min max ↔ 2 ^ 31 < (s32 max - s32 min).toNat + 1 := by
    rw [bitsRequired_eq_clog h]
    exact Nat.lt_clog_iff_pow_lt (by norm_num)
  omega

/-- Settles O19. -/
theorem bitsRequiredIsTheCeilingLog : Obligations.BitsRequiredIsTheCeilingLog := fun min max h =>
  ⟨bitsRequired_eq_clog h, bitsRequired_eq_log h, bitsRequired_le min max, bitsRequired_eq_32_iff h⟩

/-- Settles O21: the one test raises exactly on a reversed range, and otherwise the response carries `bits_required`. -/
theorem bitsreqCommandAnswersTheCeilingLog : Obligations.BitsreqCommandAnswersTheCeilingLog := by
  intro min max s
  constructor
  · intro h
    have htests : firstRaise (bitsreqTests min max) = none := by simp [bitsreqTests, firstRaise_nil, h]
    rw [← bitsRequired_eq_clog h]
    exact guarded_none htests _ _
  · intro h
    have htests : firstRaise (bitsreqTests min max) = some .rangeContract := by simp [bitsreqTests, h]
    exact guarded_some htests _ _

/-! ## The SWAR recipe -/

/-- A word cut into fields of `w` bits, the lowest one first: the value of field `i` (40_bitmath.md R126). -/
def field (w : Nat) (x : Word) (i : Nat) : Nat := x.toNat / 2 ^ (w * i) % 2 ^ w

theorem field_lt (w : Nat) (x : Word) (i : Nat) : field w x i < 2 ^ w := Nat.mod_lt _ (by positivity)

theorem field_one (x : Word) (i : Nat) : field 1 x i = (x.getLsbD i).toNat := by
  rw [field, Nat.one_mul, pow_one, BitVec.getLsbD, Nat.toNat_testBit]

theorem popcount_eq_sum_field (x : Word) : popcount x = ∑ i ∈ Finset.range 32, field 1 x i := by
  simp only [popcount_eq_sum, field_one]

/-- A right shift by one field renumbers the fields. -/
theorem field_shift (w : Nat) (x : Word) (i : Nat) : field w (x >>> w) i = field w x (i + 1) := by
  rw [field, field, BitVec.toNat_ushiftRight, Nat.shiftRight_eq_div_pow, Nat.div_div_eq_div_mul, ← pow_add,
    Nat.mul_add, Nat.mul_one, Nat.add_comm]

/-- The lower half of a double field is a field. -/
theorem field_double_mod (w : Nat) (x : Word) (i : Nat) : field (2 * w) x i % 2 ^ w = field w x (2 * i) := by
  rw [field, field, Nat.mod_mod_of_dvd _ (pow_dvd_pow 2 (Nat.le_mul_of_pos_left w two_pos)), Nat.mul_assoc,
    Nat.mul_left_comm]

/-- A double field holds two neighbours. -/
theorem field_double (w : Nat) (x : Word) (i : Nat) :
    field (2 * w) x i = field w x (2 * i) + 2 ^ w * field w x (2 * i + 1) := by
  have hhigh : field (2 * w) x i / 2 ^ w = field w x (2 * i + 1) := by
    rw [field, field, Nat.two_mul, pow_add, Nat.mod_mul_right_div_self, Nat.div_div_eq_div_mul, ← pow_add]
    congr 3
    ring
  rw [← field_double_mod, ← hhigh, Nat.mod_add_div]

/-- A mask whose double fields are full in their lower halves keeps the lower half of each. -/
theorem field_and {w : Nat} {m : Word} {i : Nat} (hm : field (2 * w) m i = 2 ^ w - 1) (x : Word) :
    field (2 * w) (x &&& m) i = field w x (2 * i) := by
  have hand : field (2 * w) (x &&& m) i = field (2 * w) x i &&& field (2 * w) m i := by
    rw [field, BitVec.toNat_and, Nat.and_div_two_pow, Nat.and_mod_two_pow]
    rfl
  rw [hand, hm, Nat.and_two_pow_sub_one_eq_mod, field_double_mod]

/-- Addition without a carry out of any field below is field by field. -/
theorem field_add {w : Nat} {x y : Word} {i : Nat} (hi : w * (i + 1) ≤ 32)
    (hcarry : ∀ j ≤ i, field w x j + field w y j < 2 ^ w) : field w (x + y) i = field w x i + field w y i := by
  have hdiv (j : Nat) (hj : j ≤ i) :
      (x.toNat + y.toNat) / 2 ^ (w * j) = x.toNat / 2 ^ (w * j) + y.toNat / 2 ^ (w * j) := by
    induction j with
    | zero => simp
    | succ j ih =>
      have hlt := hcarry j (by omega)
      rw [field, field] at hlt
      rw [Nat.mul_succ, pow_add, ← Nat.div_div_eq_div_mul, ih (by omega), Nat.add_div (by positivity),
        if_neg (Nat.not_le.mpr hlt), Nat.div_div_eq_div_mul, Nat.div_div_eq_div_mul, Nat.add_zero]
  have hinside : w * i + w ≤ 32 := hi
  have hwidth : (2 : Nat) ^ 32 = 2 ^ (w * i) * 2 ^ (32 - w * i) := by
    rw [← pow_add, Nat.add_sub_of_le (by omega)]
  have hdvd : 2 ^ w ∣ 2 ^ (32 - w * i) := pow_dvd_pow 2 (by omega)
  rw [field, BitVec.toNat_add, hwidth, Nat.mod_mul_right_div_self, Nat.mod_mod_of_dvd _ hdvd, hdiv i le_rfl,
    Nat.add_mod]
  exact Nat.mod_eq_of_lt (hcarry i le_rfl)

/-- Quotients and remainders subtract when the remainders need no borrow. -/
theorem sub_div_mod_of_mod_le {a b n : Nat} (hn : 0 < n) (hle : b ≤ a) (hmod : b % n ≤ a % n) :
    (a - b) / n = a / n - b / n ∧ (a - b) % n = a % n - b % n := by
  have ha := Nat.mod_add_div a n
  have hb := Nat.mod_add_div b n
  have hdiv : n * (b / n) ≤ n * (a / n) := Nat.mul_le_mul_left n (Nat.div_le_div_right hle)
  have hlt := Nat.mod_lt a hn
  refine (Nat.div_mod_unique hn).mpr ⟨?_, by omega⟩
  rw [Nat.mul_sub]
  omega

/-- Subtraction without a borrow from any field below is field by field. -/
theorem field_sub {w : Nat} {x y : Word} {i : Nat} (hle : y.toNat ≤ x.toNat)
    (hborrow : ∀ j ≤ i, field w y j ≤ field w x j) : field w (x - y) i = field w x i - field w y i := by
  have hparts (j : Nat) (hj : j ≤ i) := sub_div_mod_of_mod_le (n := 2 ^ w) (by positivity)
    (Nat.div_le_div_right (c := 2 ^ (w * j)) hle) (hborrow j hj)
  have hdiv (j : Nat) (hj : j ≤ i) :
      (x.toNat - y.toNat) / 2 ^ (w * j) = x.toNat / 2 ^ (w * j) - y.toNat / 2 ^ (w * j) := by
    induction j with
    | zero => simp
    | succ j ih =>
      rw [Nat.mul_succ, pow_add, ← Nat.div_div_eq_div_mul, ih (by omega), (hparts j (by omega)).1,
        Nat.div_div_eq_div_mul, Nat.div_div_eq_div_mul]
  rw [field, BitVec.toNat_sub_of_le hle, hdiv i le_rfl]
  exact (hparts i le_rfl).2

/-- The field of width `2 * w` at each place holds the sum of the two fields of width `w` that stood there. -/
def PairSums (w : Nat) (x y : Word) : Prop :=
  ∀ i, 2 * w * (i + 1) ≤ 32 → field (2 * w) y i = field w x (2 * i) + field w x (2 * i + 1)

/-- The mask keeps the lower half of every double field. -/
def LowerHalves (w : Nat) (m : Word) : Prop := ∀ i, 2 * w * (i + 1) ≤ 32 → field (2 * w) m i = 2 ^ w - 1

theorem lowerHalves_one : LowerHalves 1 0x55555555 := fun i hi =>
  (by decide : ∀ i < 16, field 2 0x55555555 i = 1) i (by omega)

theorem lowerHalves_two : LowerHalves 2 0x33333333 := fun i hi =>
  (by decide : ∀ i < 8, field 4 0x33333333 i = 3) i (by omega)

theorem lowerHalves_four : LowerHalves 4 0x0F0F0F0F := fun i hi =>
  (by decide : ∀ i < 4, field 8 0x0F0F0F0F i = 15) i (by omega)

/-- Adding the lower and the upper halves of the double fields adds the fields in pairs: no sum of two fields leaves
its double field. -/
theorem pairSums_masked {w : Nat} {m : Word} (hw : 0 < w) (hm : LowerHalves w m) (x : Word) :
    PairSums w x ((x &&& m) + ((x >>> w) &&& m)) := by
  intro i hi
  have hhalves (j : Nat) (hj : j ≤ i) : field (2 * w) (x &&& m) j = field w x (2 * j) ∧
      field (2 * w) ((x >>> w) &&& m) j = field w x (2 * j + 1) := by
    have hmj := hm j (le_trans (Nat.mul_le_mul_left _ (by omega)) hi)
    exact ⟨field_and hmj x, by rw [field_and hmj, field_shift]⟩
  obtain ⟨hlow, hhigh⟩ := hhalves i le_rfl
  rw [field_add hi, hlow, hhigh]
  intro j hj
  obtain ⟨hlow, hhigh⟩ := hhalves j hj
  rw [hlow, hhigh]
  calc field w x (2 * j) + field w x (2 * j + 1)
      < 2 ^ w + 2 ^ w := Nat.add_lt_add (field_lt ..) (field_lt ..)
    _ = 2 ^ (w + 1) := by rw [pow_succ, Nat.mul_two]
    _ ≤ 2 ^ (2 * w) := Nat.pow_le_pow_right two_pos (by omega)

/-- The fields up to the upper half of a double field lie in the word when the double field does. -/
theorem field_inside {w i j : Nat} (hi : 2 * w * (i + 1) ≤ 32) (hj : j ≤ 2 * i + 1) : w * (j + 1) ≤ 32 :=
  calc w * (j + 1) ≤ w * (2 * (i + 1)) := Nat.mul_le_mul_left _ (by omega)
    _ = 2 * w * (i + 1) := by ring
    _ ≤ 32 := hi

/-- When no two neighbours carry, they may be added before the mask is applied. -/
theorem pairSums_masked_sum {w : Nat} {m x : Word} (hm : LowerHalves w m)
    (hcarry : ∀ i, w * (i + 1) ≤ 32 → 2 * field w x i < 2 ^ w) : PairSums w x ((x + (x >>> w)) &&& m) := by
  intro i hi
  rw [field_and (hm i hi), field_add (field_inside hi (by omega)), field_shift]
  intro j hj
  have := hcarry j (field_inside hi (by omega))
  have := hcarry (j + 1) (field_inside hi (by omega))
  rw [field_shift]
  omega

/-- Adding in pairs doubles a bound on the fields. -/
theorem PairSums.le {w B : Nat} {x y : Word} (h : PairSums w x y)
    (hx : ∀ i, w * (i + 1) ≤ 32 → field w x i ≤ B) (i : Nat) (hi : 2 * w * (i + 1) ≤ 32) :
    field (2 * w) y i ≤ 2 * B := by
  have hlow := hx (2 * i) (field_inside hi (by omega))
  have hhigh := hx (2 * i + 1) (field_inside hi le_rfl)
  rw [h i hi]
  omega

/-- Adding in pairs keeps the sum of the fields. -/
theorem PairSums.sum {w : Nat} {x y : Word} (h : PairSums w x y) (n : Nat) (hn : 2 * w * n ≤ 32) :
    ∑ i ∈ Finset.range n, field (2 * w) y i = ∑ i ∈ Finset.range (2 * n), field w x i := by
  induction n with
  | zero => rfl
  | succ n ih =>
    rw [Finset.sum_range_succ, ih (le_trans (Nat.mul_le_mul_left _ n.le_succ) hn), h n hn, Nat.mul_succ,
      Finset.sum_range_succ, Finset.sum_range_succ, Nat.add_assoc]

/-- The first step of the recipe: of the two bits `2 * high + low` of a field it takes `high` away, which leaves their
sum. -/
theorem pairSums_sub (x : Word) : PairSums 1 x (x - ((x >>> 1) &&& 0x55555555)) := by
  intro i hi
  have hhigh (j : Nat) (hj : j ≤ i) : field (2 * 1) ((x >>> 1) &&& 0x55555555) j = field 1 x (2 * j + 1) := by
    rw [field_and (lowerHalves_one j (by omega)), field_shift]
  have hle : ((x >>> 1) &&& 0x55555555).toNat ≤ x.toNat := by
    rw [BitVec.toNat_and, BitVec.toNat_ushiftRight, Nat.shiftRight_eq_div_pow]
    exact Nat.and_le_left.trans (Nat.div_le_self ..)
  rw [field_sub hle, hhigh i le_rfl, field_double]
  · omega
  · intro j hj
    rw [hhigh j hj, field_double]
    omega

/-- Three additions in pairs leave the population count spread over the four bytes. -/
theorem sum_bytes_of_pairSums {x a b c : Word} (hxa : PairSums 1 x a) (hab : PairSums 2 a b) (hbc : PairSums 4 b c) :
    ∑ i ∈ Finset.range 4, field 8 c i = popcount x :=
  calc ∑ i ∈ Finset.range 4, field 8 c i
      = ∑ i ∈ Finset.range 8, field 4 b i := hbc.sum 4 (by norm_num)
    _ = ∑ i ∈ Finset.range 16, field 2 a i := hab.sum 8 (by norm_num)
    _ = ∑ i ∈ Finset.range 32, field 1 x i := hxa.sum 16 (by norm_num)
    _ = popcount x := (popcount_eq_sum_field x).symm

/-- The byte at bit 24 of the product collects all four digits, and nothing carries into it. -/
theorem mul_ones_byte {p q r t : Nat} (h : p + q + r + t < 256) :
    (p + 2 ^ 8 * q + 2 ^ 16 * r + 2 ^ 24 * t) * 0x01010101 % 2 ^ 32 / 2 ^ 24 = p + q + r + t := by
  have hsplit : (p + 2 ^ 8 * q + 2 ^ 16 * r + 2 ^ 24 * t) * 0x01010101 =
      2 ^ 32 * (q + r + t + 2 ^ 8 * (r + t) + 2 ^ 16 * t) +
        (2 ^ 24 * (p + q + r + t) + (p + 2 ^ 8 * (p + q) + 2 ^ 16 * (p + q + r))) := by ring
  rw [hsplit, Nat.mul_add_mod, Nat.mod_eq_of_lt (by omega), Nat.mul_add_div (by norm_num), Nat.div_eq_of_lt (by omega),
    Nat.add_zero]

/-- A word is made of its four bytes. -/
theorem toNat_eq_bytes (c : Word) :
    c.toNat = field 8 c 0 + 2 ^ 8 * field 8 c 1 + 2 ^ 16 * field 8 c 2 + 2 ^ 24 * field 8 c 3 := by
  have := c.isLt
  simp only [field]
  omega

/-- The last step of the recipe: the top byte of the product is the sum of the four bytes. -/
theorem toNat_mul_shift {c : Word} (hc : ∑ i ∈ Finset.range 4, field 8 c i < 256) :
    ((c * 0x01010101) >>> 24).toNat = ∑ i ∈ Finset.range 4, field 8 c i := by
  have hones : (0x01010101 : Word).toNat = 0x01010101 := rfl
  simp only [Finset.sum_range_succ, Finset.sum_range_zero, Nat.zero_add] at hc ⊢
  rw [BitVec.toNat_ushiftRight, BitVec.toNat_mul, Nat.shiftRight_eq_div_pow, hones, toNat_eq_bytes, mul_ones_byte hc]

/-- Settles O16: each step of the recipe adds the fields of the word before it in pairs, and the product adds the last
four. -/
theorem swarRecipeComputesPopcount : Obligations.SwarRecipeComputesPopcount := by
  intro x
  have hxa := pairSums_sub x
  have hab := pairSums_masked two_pos lowerHalves_two (x - ((x >>> 1) &&& 0x55555555))
  have hbits (i : Nat) (_ : 1 * (i + 1) ≤ 32) : field 1 x i ≤ 1 := Nat.le_of_lt_succ (field_lt 1 x i)
  have hnibbles := hab.le (hxa.le hbits)
  have hbc := pairSums_masked_sum lowerHalves_four fun i hi => lt_of_le_of_lt (Nat.mul_le_mul_left 2 (hnibbles i hi))
    (by norm_num)
  have hcount := sum_bytes_of_pairSums hxa hab hbc
  have hbyte : popcount x < 256 := lt_of_le_of_lt (popcount_le x) (by norm_num)
  rw [← hcount] at hbyte ⊢
  exact toNat_mul_shift hbyte

end Sys2Proof.Machine
end

section
/-! PROOFS. O23 to O28: the commands of the BitWriter (41_bitwriter.md). What a run appends is one number: staging a
field and flushing the word it completes append it, and appending one number after another appends both. The three
phases of an aligned `W_BYTES` are the byte writes of its string, because four byte writes at a word boundary are one
bulk store. -/

namespace Sys2Proof.Machine

/-! ## The two NEW commands -/

/-- Settles O23: no test holds, and the capacity fits its registers. -/
theorem wNewBindsAFreshWriter : Obligations.WNewBindsAFreshWriter := by
  intro base cap s hm hwhole hfit
  have hpass : firstRaise (newTests base cap s.memWords) = none := by
    simp [newTests, hwhole, Nat.not_lt.mpr hfit, firstRaise_nil]
  have hmax : Config.maxMemWords = 134217727 := rfl
  refine ⟨_, guarded_none hpass _ _, rfl, rfl, ?_, ?_, rfl, rfl, rfl, rfl, rfl, rfl⟩
  · simp only [State.respond_w, Writer.fresh_numWords, BitVec.toNat_ofNat]
    omega
  · simp only [State.respond_w, Writer.fresh_numBits, BitVec.toNat_ofNat]
    omega

/-- A NEW command whose tests raise a status answers it and changes nothing else (60_exceptions.md R184). -/
theorem exec_new_raised {base cap : Word} {s : State} {st : Status} {i : Instr}
    (hi : i ∈ [Instr.wNew base cap, .rNew base cap]) (hst : firstRaise (newTests base cap s.memWords) = some st) :
    exec i s = .next { s with response := some ⟨st, []⟩ } := by
  obtain rfl | rfl : i = .wNew base cap ∨ i = .rNew base cap := by simpa using hi
  · exact guarded_some hst _ _
  · exact guarded_some hst _ _

/-- Settles O24: the two tests in their order. -/
theorem newFailuresChangeNothing : Obligations.NewFailuresChangeNothing := by
  intro base cap s i hi
  refine ⟨fun hodd => exec_new_raised hi ?_, fun hwhole hout => exec_new_raised hi ?_⟩
  · simp [newTests, hodd]
  · simp [newTests, hwhole, hout]

/-! ## Commands whose tests pass -/

/-- A writer command none of whose tests holds makes its run and answers `OK`. -/
theorem exec_writer_of_run {i : Instr} (hi : i.isWriterCommand = true) {s t : State}
    (hn : firstRaise (i.writerTests s.w) = none) (ht : i.writerRun s = some t) :
    exec i s = .next (t.respond .ok []) := by
  rw [exec_writer hi, guarded_none hn, ht, finishWrite_some]

/-- An open writer passes the tests of a command that accepts bits when those after `waccept` do not hold. -/
theorem Writer.Open.accept_pass {w : Writer} (h : w.Open) {tests : List (Bool × Status)}
    (hrest : ∀ p ∈ tests, p.1 = false) : firstRaise (w.waccept ++ tests) = none := by
  rw [firstRaise_append, Writer.firstRaise_waccept.mpr h, Option.none_or, firstRaise_eq_none.mpr hrest]

/-- A field that fits passes the tests of `W_BITS` (41_bitwriter.md R132). -/
theorem State.WriterReady.bitsTests_pass {s : State} (h : s.WriterReady) (ho : s.w.Open) {len : Nat} (hl : len ≤ 32)
    (hfit : s.w.bitsWritten.toNat + len ≤ s.w.numBits.toNat) : firstRaise (s.w.bitsTests len) = none :=
  ho.accept_pass (by simp [hl, h.noSlot hfit, Writer.tooLong, hfit])

/-- The padding passes the tests of `W_ALIGN` (41_bitwriter.md R135). -/
theorem State.WriterReady.alignTests_pass {s : State} (h : s.WriterReady) (ho : s.w.Open) :
    firstRaise s.w.alignTests = none :=
  ho.accept_pass (by simp [h.noSlot h.padding_fits, Writer.tooLong, h.padding_fits])

/-- A string that fits an aligned writer passes the tests of `W_BYTES` (41_bitwriter.md R136). -/
theorem State.WriterReady.bytesTests_pass {s : State} (h : s.WriterReady) (ho : s.w.Open) {n : Nat}
    (halign : s.w.bitsWritten.toNat % 8 = 0) (hfit : s.w.bitsWritten.toNat + 8 * n ≤ s.w.numBits.toNat) :
    firstRaise (s.w.bytesTests n) = none := by
  have hcursor := h.cursor
  have hslots : s.w.wordIndex.toNat + (s.w.scratchBits.toNat + 8 * n) / 32 ≤ s.w.numWords.toNat := by omega
  exact ho.accept_pass (by simp [halign, Writer.tooLong, hfit, hslots])

/-- An open writer without room for the bits raises `CapacityExceeded` when the test before it does not hold
(41_bitwriter.md R132, R136). -/
theorem Writer.Open.raises_capacityExceeded {w : Writer} (h : w.Open) {a : Bool} {st : Status} {len : Nat}
    (ha : a = false) (hover : w.numBits.toNat < w.bitsWritten.toNat + len) (rest : List (Bool × Status)) :
    firstRaise (w.waccept ++ (a, st) :: (w.tooLong len, .capacityExceeded) :: rest) = some .capacityExceeded := by
  rw [firstRaise_append, Writer.firstRaise_waccept.mpr h, Option.none_or, ha, Writer.tooLong, decide_eq_true hover]
  rfl

/-! ## The cursor as numbers -/

/-- A writer whose cursor registers hold the given numbers, all else as in `w` (41_bitwriter.md R134). -/
theorem Writer.eq_withCursor {w w' : Writer} {scratch scratchBits wordIndex bitsWritten : Nat}
    (hw : w' = { w with
      scratch := w'.scratch, scratchBits := w'.scratchBits, wordIndex := w'.wordIndex, bitsWritten := w'.bitsWritten })
    (hscratch : w'.scratch.toNat = scratch) (hstaged : w'.scratchBits.toNat = scratchBits)
    (hindex : w'.wordIndex.toNat = wordIndex) (hwritten : w'.bitsWritten.toNat = bitsWritten) :
    w' = w.withCursor scratch scratchBits wordIndex bitsWritten := by
  subst hscratch hstaged hindex hwritten
  simpa [Writer.withCursor] using hw

@[simp] theorem Writer.withCursor_withCursor (w : Writer) (a b c d a' b' c' d' : Nat) :
    (w.withCursor a b c d).withCursor a' b' c' d' = w.withCursor a' b' c' d' := rfl

/-! ## `W_FLUSH` -/

/-- Byte `j` of the low word of a scratch. -/
theorem byteOfWord_setWidth (x : BitVec 64) {j : Nat} (hj : j < 4) :
    byteOfWord (x.setWidth 32) j = BitVec.ofNat 8 (x.toNat / 2 ^ (8 * j)) := by
  apply BitVec.eq_of_toNat_eq
  rw [byteOfWord_toNat, BitVec.toNat_setWidth, BitVec.toNat_ofNat]
  interval_cases j <;> omega

/-- The bytes of `MEM` after the low word of a scratch is stored (20_memory.md R61). -/
theorem Memory.byteAt_writeWord_scratch (m : Memory) (i : Nat) (x : BitVec 64) (a : Nat) :
    (m.writeWord i (x.setWidth 32)).byteAt a =
      if 4 * i ≤ a ∧ a < 4 * i + 4 then BitVec.ofNat 8 (x.toNat / 2 ^ (8 * (a - 4 * i))) else m.byteAt a := by
  rw [Memory.byteAt_writeWord]
  split
  · exact byteOfWord_setWidth x (by omega)
  · rfl

/-- A `W_FLUSH` with nothing staged does nothing (41_bitwriter.md R133). -/
theorem exec_wFlush_of_empty {s : State} (hb : s.w.bound = true) (hf : s.w.fault = 0) (hs : s.w.scratchBits = 0) :
    exec .wFlush s = .next (s.respond .ok []) := by
  refine exec_writer_of_run rfl ?_ (if_pos hs)
  simp [Instr.writerTests, Writer.flushTests, Writer.wadmit, hb, hf, hs, firstRaise_nil]

/-- Settles O26: the staged bits are a number below `2^31`, stored as one word; nothing is then staged. -/
theorem wFlushStoresThePartialWord : Obligations.WFlushStoresThePartialWord := by
  refine fun s h hb hf => ⟨exec_wFlush_of_empty hb hf, fun hs => ?_⟩
  obtain ⟨hroom, hslot⟩ := Writer.BoundInv.staged_slot (h.writer hb) hs
  have hpass : firstRaise s.w.flushTests = none := by
    simp [Writer.flushTests, Writer.wadmit, hb, hf, hroom, firstRaise_nil]
  have hrun : Instr.wFlush.writerRun s = some _ := (if_neg hs).trans (State.storeSlot_of_lt hslot _ _)
  refine ⟨_, exec_writer_of_run rfl hpass hrun, ?_, Memory.byteAt_writeWord_scratch _ _ _, ?_⟩
  · obtain ⟨-, -, -, hempty, -⟩ := Writer.BoundInv.close (h.writer hb) hs
    have hready := h.writerReady_of_staged hb hs
    obtain ⟨hindex, -⟩ := hready.flushPartial_writtenBit (State.storeSlot_of_lt hslot _ _)
    have hclose : s.w.close = s.w.withCursor 0 0 (s.w.wordIndex.toNat + 1) s.w.bitsWritten.toNat :=
      Writer.eq_withCursor rfl (Nat.lt_one_iff.mp hempty) rfl hindex rfl
    rw [← hclose]
    rfl
  · exact exec_wFlush_of_empty hb hf rfl

/-! ## Appending as arithmetic -/

/-- The gathered number has as many bits as are staged and new. -/
theorem State.WriterReady.gathered_lt {s : State} (h : s.WriterReady) (v len : Nat) :
    s.gathered v len < 2 ^ (s.w.scratchBits.toNat + len) := by
  obtain ⟨-, -, -, hscratch, -⟩ := h.inv
  exact staged_lt hscratch

/-- A run of the writer's datapath appends a number when the cursor and the bytes say so: its frame gives the rest. -/
theorem Appended.of_frame {s t : State} {v len : Nat} (hf : WriterFrame s t)
    (hscratch : t.w.scratch.toNat = s.gathered v len / 2 ^ (32 * s.w.completes len))
    (hstaged : t.w.scratchBits.toNat = s.w.scratchBits.toNat + len - 32 * s.w.completes len)
    (hindex : t.w.wordIndex.toNat = s.w.wordIndex.toNat + s.w.completes len)
    (hwritten : t.w.bitsWritten.toNat = s.w.bitsWritten.toNat + len)
    (hbytes : ∀ a, t.byteAt a =
      if 4 * s.w.slot ≤ a ∧ a < 4 * (s.w.slot + s.w.completes len) then
        BitVec.ofNat 8 (s.gathered v len / 2 ^ (8 * (a - 4 * s.w.slot)))
      else s.byteAt a) : Appended s t v len := by
  refine ⟨hf.r, hf.memWords, hf.inbox, Writer.eq_withCursor ?_ hscratch hstaged hindex hwritten, hbytes⟩
  rw [← hf.base, ← hf.numWords, ← hf.numBits, ← hf.bound, ← hf.fault]

/-- The response is no part of what is appended. -/
theorem Appended.respond {s t : State} {v len : Nat} (h : Appended s t v len) (st : Status) (data : List Word) :
    Appended s (t.respond st data) v len := ⟨h.reader, h.memWords, h.inbox, h.writer, h.bytes⟩

/-- Appending no bits changes nothing. -/
theorem Appended.refl {s : State} (h : s.WriterReady) (v : Nat) : Appended s s v 0 := by
  have hcursor := h.cursor
  have hnone : s.w.completes 0 = 0 := by
    rw [Writer.completes]
    omega
  refine .of_frame (.refl s) ?_ ?_ ?_ rfl fun a => ?_
  · simp [hnone, State.gathered, Nat.mod_one]
  · simp [hnone]
  · simp [hnone]
  · rw [if_neg (by omega)]

/-- `wbits` appends the low `len` bits of its value (41_bitwriter.md R134). -/
theorem State.WriterReady.wbits_appended {s t : State} (h : s.WriterReady) {v : Word} {len : Nat} (hl : len ≤ 32)
    (hfit : s.w.bitsWritten.toNat + len ≤ s.w.numBits.toNat) (ht : s.wbits v len = some t) :
    Appended s t v.toNat len := by
  obtain ⟨-, -, -, -, hstaged, -⟩ := h.cursor
  obtain ⟨-, -, -, hlow, -⟩ := h.inv
  have hwritten : t.w.bitsWritten.toNat = s.w.bitsWritten.toNat + len := by
    have hadv : WriterAdvanced s t len := by simpa [ht] using h.wbits v hl hfit
    exact hadv.bitsWritten
  have hscratch : (s.w.stage v len).scratch.toNat = s.gathered v.toNat len := Writer.stage_scratch_toNat hstaged hlow hl
  have hcount := Writer.stage_scratchBits_toNat (v := v) hstaged hl
  have hframe := State.wbits_frame ht
  obtain ⟨hpart, rfl⟩ | ⟨hfull, -, rfl⟩ := State.wbits_eq_some.mp ht
  · have hnone : s.w.completes len = 0 := Nat.div_eq_of_lt (by omega)
    refine .of_frame hframe ?_ ?_ ?_ hwritten fun a => ?_
    · simpa [hnone] using hscratch
    · simpa [hnone] using hcount
    · simp [hnone]
    · rw [hnone, if_neg (by omega)]
      rfl
  · have hone : s.w.completes len = 1 := by
      rw [Writer.completes]
      omega
    refine .of_frame hframe ?_ ?_ ?_ hwritten fun a => ?_
    · rw [Writer.shiftOut_scratch_toNat, hscratch, hone]
    · rw [Writer.shiftOut_scratchBits_toNat hfull, hcount, hone]
    · have hcursor := h.cursor
      rw [Writer.shiftOut_wordIndex_toNat (by rw [Writer.stage_wordIndex]; omega), hone]
      rfl
    · rw [hone, ← hscratch]
      exact Memory.byteAt_writeWord_scratch _ _ _ a

/-- Settles O25: the tests pass, and `wbits` appends. -/
theorem wBitsAppendsItsField : Obligations.WBitsAppendsItsField := by
  intro value len s h ho hl hfit
  have hready := h.writerReady ho
  obtain ⟨t, ht, -⟩ := hready.wbits value hl hfit
  exact ⟨_, exec_writer_of_run rfl (hready.bitsTests_pass ho hl hfit) ht, rfl,
    (hready.wbits_appended hl hfit ht).respond _ _⟩

/-- Settles O27: the run is `wbits` of zeros, or nothing at a byte boundary. -/
theorem wAlignAppendsZeroPadding : Obligations.WAlignAppendsZeroPadding := by
  intro s h ho
  have hready := h.writerReady ho
  have hl : padding s.w.bitsWritten ≤ 32 := (padding_lt _).le.trans (by norm_num)
  obtain ⟨t, ht, happ⟩ : ∃ t, Instr.wAlign.writerRun s = some t ∧ Appended s t 0 (padding s.w.bitsWritten) := by
    by_cases h0 : padding s.w.bitsWritten = 0
    · exact ⟨s, if_pos h0, h0 ▸ .refl hready 0⟩
    · obtain ⟨t, ht, -⟩ := hready.wbits 0 hl hready.padding_fits
      exact ⟨t, (if_neg h0).trans ht, hready.wbits_appended hl hready.padding_fits ht⟩
  refine ⟨_, exec_writer_of_run rfl (hready.alignTests_pass ho) ht, rfl, happ.respond _ _, ?_⟩
  rw [State.respond_w, hready.align_bitsWritten ht, add_padding_mod_eight]

/-! ## Appending one number after another -/

/-- The cursor after appending, as numbers: nothing wraps when the bits fit. -/
theorem Appended.cursor {s t : State} {v len : Nat} (h : Appended s t v len) (hs : s.WriterReady)
    (hfit : s.w.bitsWritten.toNat + len ≤ s.w.numBits.toNat) :
    t.w.scratch.toNat = s.gathered v len / 2 ^ (32 * s.w.completes len) ∧
      t.w.scratchBits.toNat = s.w.scratchBits.toNat + len - 32 * s.w.completes len ∧
      t.w.wordIndex.toNat = s.w.wordIndex.toNat + s.w.completes len ∧
      t.w.bitsWritten.toNat = s.w.bitsWritten.toNat + len ∧ t.w.base = s.w.base := by
  have hcursor := hs.cursor
  have hdiv : s.w.completes len = (s.w.scratchBits.toNat + len) / 32 := rfl
  have hlow : s.gathered v len / 2 ^ (32 * s.w.completes len) < 2 ^ 64 := by
    refine Nat.div_lt_of_lt_mul ((hs.gathered_lt v len).trans_le ?_)
    rw [← Nat.pow_add]
    exact Nat.pow_le_pow_right two_pos (by omega)
  rw [h.writer]
  refine ⟨BitVec.toNat_ofNat _ _ ▸ Nat.mod_eq_of_lt hlow, ?_, ?_, ?_, rfl⟩ <;>
    (simp only [Writer.withCursor, BitVec.toNat_ofNat]; omega)

/-- Of a number and a multiple of `2^p` above it, the bytes below bit `p` are those of the number. -/
theorem ofNat_add_mul_pow_div {x y p j : Nat} (hj : 8 * j + 8 ≤ p) :
    BitVec.ofNat 8 ((x + y * 2 ^ p) / 2 ^ (8 * j)) = BitVec.ofNat 8 (x / 2 ^ (8 * j)) := by
  obtain ⟨d, rfl⟩ := Nat.exists_eq_add_of_le hj
  have hsplit : x + y * 2 ^ (8 * j + 8 + d) = x + 2 ^ (8 * j) * (2 ^ 8 * (y * 2 ^ d)) := by ring
  apply BitVec.eq_of_toNat_eq
  rw [hsplit, Nat.add_mul_div_left _ _ (Nat.two_pow_pos _), BitVec.toNat_ofNat, BitVec.toNat_ofNat,
    Nat.add_mul_mod_self_left]

/-- Two strings of bits gathered one after the other: the second stands above the first. -/
theorem State.gathered_append (s : State) {v m : Nat} (hv : v < 2 ^ m) (v' n : Nat) :
    s.gathered (v + 2 ^ m * v') (m + n) = s.gathered v m + v' % 2 ^ n * 2 ^ (s.w.scratchBits.toNat + m) := by
  rw [State.gathered, State.gathered, Nat.pow_add, Nat.mod_mul, Nat.add_mul_mod_self_left,
    Nat.add_mul_div_left _ _ (Nat.two_pow_pos _), Nat.mod_eq_of_lt hv, Nat.div_eq_of_lt hv, Nat.zero_add]
  ring

/-- What is staged after the first string, with the second gathered above it, is the number of both strings without
the words the first completed. -/
theorem Appended.gathered {s t : State} {v m : Nat} (h : Appended s t v m) (hs : s.WriterReady)
    (hfit : s.w.bitsWritten.toNat + m ≤ s.w.numBits.toNat) (hv : v < 2 ^ m) (v' n : Nat) :
    t.gathered v' n = s.gathered (v + 2 ^ m * v') (m + n) / 2 ^ (32 * s.w.completes m) := by
  obtain ⟨hscratch, hstaged, -⟩ := h.cursor hs hfit
  have hle : 32 * s.w.completes m ≤ s.w.scratchBits.toNat + m := Nat.mul_div_le _ _
  have habove : v' % 2 ^ n * 2 ^ (s.w.scratchBits.toNat + m) =
      2 ^ (32 * s.w.completes m) * (v' % 2 ^ n * 2 ^ t.w.scratchBits.toNat) := by
    rw [hstaged, Nat.mul_left_comm, ← Nat.pow_add, Nat.add_sub_cancel' hle]
  rw [s.gathered_append hv, habove, Nat.add_mul_div_left _ _ (Nat.two_pow_pos _), ← hscratch]
  rfl

/-- Appending one number and then another appends both, the second above the first. -/
theorem Appended.trans {s t u : State} {v v' m n : Nat} (h : Appended s t v m) (k : Appended t u v' n)
    (hs : s.WriterReady) (hfit : s.w.bitsWritten.toNat + m ≤ s.w.numBits.toNat) (hv : v < 2 ^ m) :
    Appended s u (v + 2 ^ m * v') (m + n) := by
  have hgathered := h.gathered hs hfit hv v' n
  obtain ⟨-, hstaged, hindex, hwritten, hbase⟩ := h.cursor hs hfit
  have hfirst : s.w.completes m = (s.w.scratchBits.toNat + m) / 32 := rfl
  have hboth : s.w.completes (m + n) = s.w.completes m + t.w.completes n := by
    simp only [Writer.completes]
    omega
  have hslot : t.w.slot = s.w.slot + s.w.completes m := by
    rw [Writer.slot, Writer.slot, hbase, hindex, Nat.add_assoc]
  refine ⟨k.reader.trans h.reader, k.memWords.trans h.memWords, k.inbox.trans h.inbox, ?_, fun a => ?_⟩
  · rw [k.writer, h.writer, Writer.withCursor_withCursor, ← h.writer, hgathered, Nat.div_div_eq_div_mul, ← Nat.pow_add,
      ← Nat.mul_add, hboth, hstaged, hindex, hwritten]
    congr 1 <;> omega
  · rw [k.bytes, h.bytes, hgathered, hslot, hboth, Nat.div_div_eq_div_mul, ← Nat.pow_add]
    split_ifs with hsecond hall hfst hall
    · rw [show 32 * s.w.completes m + 8 * (a - 4 * (s.w.slot + s.w.completes m)) = 8 * (a - 4 * s.w.slot) by omega]
    · omega
    · rw [s.gathered_append hv, ofNat_add_mul_pow_div (by omega)]
    · omega
    · omega
    · rfl

/-- Byte writes append the byte string, the first byte lowest (41_bitwriter.md R136). -/
theorem State.WriterReady.wbytes_appended {s t : State} (h : s.WriterReady) {data : List Byte}
    (hfit : s.w.bitsWritten.toNat + 8 * data.length ≤ s.w.numBits.toNat) (ht : s.wbytes data = some t) :
    Appended s t (leNat data) (8 * data.length) := by
  induction data generalizing s with
  | nil => exact Option.some.inj ht ▸ .refl h 0
  | cons b rest ih =>
    rw [List.length_cons] at hfit ⊢
    obtain ⟨u, hu, ht⟩ := State.wbytes_cons.mp ht
    have hadv : WriterAdvanced s u 8 := by simpa [hu] using h.wbits (b.setWidth 32) (len := 8) (by norm_num) (by omega)
    have hbyte := h.wbits_appended (by norm_num) (by omega) hu
    have hrest := ih hadv.ready (by rw [hadv.bitsWritten, hadv.numBits]; omega) ht
    rw [BitVec.toNat_setWidth, Nat.mod_eq_of_lt (b.isLt.trans (by norm_num))] at hbyte
    rw [Nat.mul_succ, Nat.add_comm]
    exact hbyte.trans hrest h (by omega) b.isLt

/-! ## The three phases of `W_BYTES` are byte writes -/

/-- Staging a byte on a scratch of `k` bits that holds the number `n` (41_bitwriter.md R134). -/
theorem Writer.stage_byte {w : Writer} {n k : Nat} (hstaged : w.scratchBits.toNat = k) (hscratch : w.scratch.toNat = n)
    (hn : n < 2 ^ k) (hk : k ≤ 24) (b : Byte) :
    (w.stage (b.setWidth 32) 8).scratchBits.toNat = k + 8 ∧
      (w.stage (b.setWidth 32) 8).scratch.toNat = n + b.toNat * 2 ^ k := by
  subst hstaged hscratch
  refine ⟨Writer.stage_scratchBits_toNat (by omega) (by norm_num), ?_⟩
  rw [Writer.stage_scratch_toNat (by omega) hn (by norm_num), BitVec.toNat_setWidth,
    Nat.mod_eq_of_lt (b.isLt.trans (by norm_num)), Nat.mod_eq_of_lt b.isLt]

/-- Four bytes staged on an empty scratch are their word, and the writer without that word is past a bulk store
(41_bitwriter.md R136). -/
theorem Writer.stage_word {w : Writer} (hstaged : w.scratchBits = 0) (hscratch : w.scratch = 0) (b0 b1 b2 b3 : Byte) :
    let w1 := w.stage (b0.setWidth 32) 8
    let w2 := w1.stage (b1.setWidth 32) 8
    let w3 := w2.stage (b2.setWidth 32) 8
    let w4 := w3.stage (b3.setWidth 32) 8
    (w1.scratchBits.toNat = 8 ∧ w2.scratchBits.toNat = 16 ∧ w3.scratchBits.toNat = 24 ∧ w4.scratchBits.toNat = 32) ∧
      w4.scratch.setWidth 32 = wordOfBytes b0 b1 b2 b3 ∧ w4.shiftOut = w.skipWord := by
  have := b0.isLt
  have := b1.isLt
  have := b2.isLt
  have := b3.isLt
  have hstaged0 : w.scratchBits.toNat = 0 := by rw [hstaged]; rfl
  have hscratch0 : w.scratch.toNat = 0 := by rw [hscratch]; rfl
  obtain ⟨hstaged1, hscratch1⟩ := Writer.stage_byte hstaged0 hscratch0 (by norm_num) (by norm_num) b0
  obtain ⟨hstaged2, hscratch2⟩ := Writer.stage_byte hstaged1 hscratch1 (by omega) (by norm_num) b1
  obtain ⟨hstaged3, hscratch3⟩ := Writer.stage_byte hstaged2 hscratch2 (by omega) (by norm_num) b2
  obtain ⟨hstaged4, hscratch4⟩ := Writer.stage_byte hstaged3 hscratch3 (by omega) (by norm_num) b3
  refine ⟨⟨hstaged1, hstaged2, hstaged3, hstaged4⟩, BitVec.eq_of_toNat_eq ?_,
    Writer.ext ?_ ?_ rfl ?_ rfl rfl rfl rfl rfl⟩
  · rw [BitVec.toNat_setWidth, hscratch4, wordOfBytes_toNat]
    simp only [leNat]
    omega
  · apply BitVec.eq_of_toNat_eq
    rw [Writer.shiftOut_scratch_toNat, hscratch4, Writer.skipWord_scratch, hscratch0]
    omega
  · apply BitVec.eq_of_toNat_eq
    rw [Writer.shiftOut_scratchBits_toNat (by omega), hstaged4, Writer.skipWord_scratchBits, hstaged0]
  · simp only [Writer.shiftOut_bitsWritten, Writer.stage_bitsWritten, Writer.skipWord_bitsWritten, BitVec.add_assoc]
    rfl

/-- A store to the next word slot depends on the writer's slot only. -/
theorem State.storeSlot_withWriter (s : State) (v : Word) (w' : Writer) {w : Writer} (h : w.slot = s.w.slot) :
    State.storeSlot v w' { s with w := w } = s.storeSlot v w' := by
  simp only [State.storeSlot, State.storeWord, h]
  split <;> rfl

/-- Four byte writes at a word boundary store the word of the four bytes: a bulk store (41_bitwriter.md R136). -/
theorem State.wbytes_word {s : State} (hstaged : s.w.scratchBits = 0) (hscratch : s.w.scratch = 0)
    (b0 b1 b2 b3 : Byte) :
    s.wbytes [b0, b1, b2, b3] = s.storeSlot (wordOfBytes b0 b1 b2 b3) s.w.skipWord := by
  obtain ⟨⟨hpart1, hpart2, hpart3, hfull⟩, hword, hnext⟩ := Writer.stage_word hstaged hscratch b0 b1 b2 b3
  simp only [State.wbytes, State.wbits, hpart1, hpart2, hpart3, hfull, Nat.reduceLeDiff, if_true, if_false,
    Option.bind_some, Option.bind_fun_some, State.flushWord, hword, hnext]
  exact s.storeSlot_withWriter _ _ rfl

/-- The bulk phase at a word boundary is byte writes (41_bitwriter.md R136). -/
theorem State.wbulk_eq_wbytes {s : State} (hstaged : s.w.scratchBits = 0) (hscratch : s.w.scratch = 0)
    {data : List Byte} (hwhole : data.length = 4 * (data.length / 4)) : s.wbulk data = s.wbytes data := by
  match data with
  | [] => rfl
  | [_] | [_, _] | [_, _, _] => exact absurd hwhole (by simp)
  | b0 :: b1 :: b2 :: b3 :: rest =>
    rw [show b0 :: b1 :: b2 :: b3 :: rest = [b0, b1, b2, b3] ++ rest from rfl, State.wbytes_append,
      State.wbytes_word hstaged hscratch]
    cases hu : s.storeSlot (wordOfBytes b0 b1 b2 b3) s.w.skipWord with
    | none => simp [State.wbulk, hu]
    | some u =>
      obtain ⟨-, rfl⟩ := State.storeSlot_eq_some.mp hu
      simp only [List.length_cons] at hwhole
      simp only [List.cons_append, List.nil_append, State.wbulk, hu, Option.bind_some]
      refine State.wbulk_eq_wbytes (data := rest) ?_ ?_ (by omega)
      · exact hstaged
      · exact hscratch

/-- The phases of `W_BYTES` split the string (41_bitwriter.md R136). -/
theorem phases_append (bits : BitVec 32) (data : List Byte) :
    headBytes bits data ++ bulkBytes bits data ++ tailBytes bits data = data := by
  rw [headBytes, bulkBytes, tailBytes, List.append_assoc, ← List.drop_drop, List.take_append_drop,
    List.take_append_drop]

/-- The run of an aligned `W_BYTES` that fits is the byte writes of its string (41_bitwriter.md R137). -/
theorem State.WriterReady.wBytes_run {s : State} (h : s.WriterReady) {data : List Byte}
    (halign : s.w.bitsWritten.toNat % 8 = 0) (hfit : s.w.bitsWritten.toNat + 8 * data.length ≤ s.w.numBits.toNat) :
    (Instr.wBytes data).writerRun s = s.wbytes data := by
  obtain ⟨hlen, hwhole⟩ := phases_length s.w.bitsWritten data
  obtain ⟨u, hu, hhead⟩ := h.wbytes (headBytes s.w.bitsWritten data) (by omega)
  have hbulk : u.wbulk (bulkBytes s.w.bitsWritten data) = u.wbytes (bulkBytes s.w.bitsWritten data) := by
    by_cases h4 : 4 ≤ (bulkBytes s.w.bitsWritten data).length
    · have hboundary := headBytes_reaches_boundary halign h4
      have hcursor := hhead.ready.cursor
      obtain ⟨-, -, -, hlow, -⟩ := hhead.ready.inv
      have hnone : u.w.scratchBits.toNat = 0 := by
        have := hhead.bitsWritten
        omega
      rw [hnone] at hlow
      exact State.wbulk_eq_wbytes (BitVec.eq_of_toNat_eq hnone) (BitVec.eq_of_toNat_eq (Nat.lt_one_iff.mp hlow)) hwhole
    · have hempty : bulkBytes s.w.bitsWritten data = [] := List.length_eq_zero_iff.mp (by omega)
      rw [hempty]
      rfl
  conv_rhs => rw [← phases_append s.w.bitsWritten data, State.wbytes_append, State.wbytes_append, hu, Option.bind_some,
    ← hbulk]
  simp only [Instr.writerRun, hu, Option.bind_some]

/-- Settles O28: the three phases are byte writes, which append. -/
theorem wBytesAppendsTheByteString : Obligations.WBytesAppendsTheByteString := by
  intro data s h ho halign hfit
  have hready := h.writerReady ho
  obtain ⟨t, ht, -⟩ := hready.wbytes data hfit
  exact ⟨_, exec_writer_of_run rfl (hready.bytesTests_pass ho halign hfit) ((hready.wBytes_run halign hfit).trans ht),
    rfl, (hready.wbytes_appended hfit ht).respond _ _⟩

end Sys2Proof.Machine
end

section
/-! PROOFS. O35, O36: sessions of writes (41_bitwriter.md R137, R139). Fields that fit all answer `OK`; the first that
does not fit answers `CapacityExceeded`, and the latch refuses every writer command after it. -/

namespace Sys2Proof.Machine

/-! ## Sessions -/

theorem trace_cons {i : Instr} {s t : State} (h : exec i s = .next t) (rest : List Instr) :
    trace (i :: rest) s = (trace rest t).map (t :: ·) := by
  rw [trace, h]

/-- A command that starts a session that completes has completed. -/
theorem trace_cons_eq_some {i : Instr} {rest : List Instr} {s : State} {ts : List State}
    (h : trace (i :: rest) s = some ts) : ∃ t us, exec i s = .next t ∧ trace rest t = some us ∧ ts = t :: us := by
  cases he : exec i s with
  | next t =>
    rw [trace_cons he] at h
    obtain ⟨us, hus, rfl⟩ := Option.map_eq_some_iff.mp h
    exact ⟨t, us, rfl, hus, rfl⟩
  | fault f => simp [trace, he] at h
  | refused f => simp [trace, he] at h

/-- A session of two parts: the second starts where the first ends. -/
theorem trace_append {a b : List Instr} {s : State} {ts us : List State} (ha : trace a s = some ts)
    (hb : trace b (ts.getLastD s) = some us) : trace (a ++ b) s = some (ts ++ us) := by
  induction a generalizing s ts with
  | nil =>
    cases ha
    exact hb
  | cons i rest ih =>
    obtain ⟨t, vs, ht, hvs, rfl⟩ := trace_cons_eq_some ha
    rw [List.getLastD_cons] at hb
    rw [List.cons_append, trace_cons ht, ih hvs hb]
    rfl

/-- A faulted writer answers `Faulted` to every command of a session (60_exceptions.md R184). -/
theorem trace_faulted {s : State} (hb : s.w.bound = true) (hf : s.w.fault ≠ 0) {cmds : List Instr}
    (hcmds : ∀ i ∈ cmds, i.isWriterCommand = true) :
    trace cmds s = some (List.replicate cmds.length (s.respond .faulted [])) := by
  induction cmds generalizing s with
  | nil => rfl
  | cons i rest ih =>
    obtain ⟨hi, hrest⟩ := List.forall_mem_cons.mp hcmds
    have hexec : exec i s = .next (s.respond .faulted []) := by
      rw [exec_writer hi, guarded_some (writerTests_faulted i hb hf), s.raiseLatched_of_refusal (by simp)]
      rfl
    rw [trace_cons hexec, ih (s := s.respond .faulted []) hb hf hrest]
    rfl

/-- The bits of a list of fields. -/
def fieldBits (fields : List (Word × BitVec 6)) : Nat := (fields.map fun f => f.2.toNat).sum

/-- A response does not move the writer. -/
theorem WriterAdvanced.respond {s t : State} {n : Nat} (h : WriterAdvanced s t n) (st : Status) (data : List Word) :
    WriterAdvanced s (t.respond st data) n :=
  ⟨⟨h.ready.memWords, h.ready.inv, h.ready.sync⟩, h.numBits, h.bitsWritten⟩

/-- Fields that fit are all written (41_bitwriter.md R132, R139). -/
theorem State.WriterReady.trace_fields {s : State} (h : s.WriterReady) (ho : s.w.Open)
    {fields : List (Word × BitVec 6)} (hlens : ∀ f ∈ fields, f.2.toNat ≤ 32)
    (hfit : s.w.bitsWritten.toNat + fieldBits fields ≤ s.w.numBits.toNat) :
    ∃ ts, trace (fields.map fun f => .wBits f.1 f.2) s = some ts ∧ ts.length = fields.length ∧
      (∀ u ∈ ts, u.Answered .ok []) ∧ WriterAdvanced s (ts.getLastD s) (fieldBits fields) ∧ (ts.getLastD s).w.Open := by
  induction fields generalizing s with
  | nil => exact ⟨[], rfl, rfl, by simp, .refl h, ho⟩
  | cons f rest ih =>
    obtain ⟨hlen, hlens⟩ := List.forall_mem_cons.mp hlens
    have hsum : fieldBits (f :: rest) = f.2.toNat + fieldBits rest := by simp [fieldBits]
    obtain ⟨t, ht, hadv⟩ := h.wbits f.1 hlen (by omega)
    have hexec : exec (.wBits f.1 f.2) s = .next (t.respond .ok []) :=
      exec_writer_of_run rfl (h.bitsTests_pass ho hlen (by omega)) ht
    have hframe := State.wbits_frame ht
    have hadv := hadv.respond .ok []
    obtain ⟨hb, hf, -⟩ := ho
    have ho : (t.respond .ok []).w.Open := ⟨hframe.bound.trans hb, hframe.fault.trans hf, hadv.ready.sync⟩
    obtain ⟨ts, hts, hlength, hok, hrest, hopen⟩ := ih hadv.ready ho hlens
      (by rw [hadv.bitsWritten, hadv.numBits]; omega)
    refine ⟨t.respond .ok [] :: ts, ?_, by simp [hlength], List.forall_mem_cons.mpr ⟨rfl, hok⟩, ?_, ?_⟩
    · rw [List.map_cons, trace_cons hexec, hts]
      rfl
    · rw [List.getLastD_cons, hsum]
      exact hadv.trans hrest
    · rwa [List.getLastD_cons]

/-- Answers that are all `OK`, as a list of statuses. -/
theorem map_status_of_ok {ts : List State} (h : ∀ u ∈ ts, u.Answered .ok []) :
    ts.map State.status = List.replicate ts.length (some .ok) := by
  refine List.eq_replicate_iff.mpr ⟨List.length_map _, fun st hst => ?_⟩
  obtain ⟨u, hu, rfl⟩ := List.mem_map.mp hst
  rw [State.status, h u hu]
  rfl

/-- Fields that fit, one that does not, and any writer commands after it: `OK` for the first, then `CapacityExceeded`,
then `Faulted` (41_bitwriter.md R139 (2), 60_exceptions.md R184). -/
theorem State.WriterReady.trace_overflow {s : State} (h : s.WriterReady) (ho : s.w.Open)
    {fields : List (Word × BitVec 6)} (hlens : ∀ f ∈ fields, f.2.toNat ≤ 32)
    (hfit : s.w.bitsWritten.toNat + fieldBits fields ≤ s.w.numBits.toNat) (value : Word) {len : BitVec 6}
    (hlen : len.toNat ≤ 32) (hover : s.w.numBits.toNat < s.w.bitsWritten.toNat + fieldBits fields + len.toNat)
    {after : List Instr} (hafter : ∀ i ∈ after, i.isWriterCommand = true) :
    ∃ ts, trace ((fields.map fun f => .wBits f.1 f.2) ++ .wBits value len :: after) s = some ts ∧
      ts.map State.status =
        List.replicate fields.length (some .ok) ++ some .capacityExceeded ::
          List.replicate after.length (some .faulted) := by
  obtain ⟨ts, hts, hlength, hok, hadv, hopen⟩ := h.trace_fields ho hlens hfit
  have hraised : firstRaise ((ts.getLastD s).w.bitsTests len.toNat) = some .capacityExceeded :=
    hopen.raises_capacityExceeded (decide_eq_false (by omega)) (by rwa [hadv.numBits, hadv.bitsWritten]) _
  have hexec : exec (.wBits value len) (ts.getLastD s) = .next ((ts.getLastD s).raiseLatched .capacityExceeded) :=
    guarded_some hraised _ _
  have hfaulted := trace_faulted (s := (ts.getLastD s).raiseLatched .capacityExceeded) hopen.1
    (Status.code_ne_zero_of_fatal (st := .capacityExceeded) rfl) hafter
  refine ⟨_, trace_append hts ((trace_cons hexec after).trans (congrArg _ hfaulted)), ?_⟩
  simp [map_status_of_ok hok, hlength]

/-- Settles O36: a fresh writer is open, with no bit written. -/
theorem overflowFailsAtItsOwnField : Obligations.OverflowFailsAtItsOwnField := by
  intro s base cap fields value len after h hfresh hlens hlen hfit hover hafter
  have ho : s.w.Open := by
    rw [hfresh]
    exact ⟨rfl, rfl, rfl⟩
  have hzero : s.w.bitsWritten.toNat = 0 := by
    rw [hfresh]
    rfl
  exact (h.writerReady ho).trace_overflow ho hlens (by rwa [hzero, Nat.zero_add]) value hlen
    (by rwa [hzero, Nat.zero_add]) hafter

/-! ## `W_BYTES` and byte-wise `W_BITS` -/

/-- A response is no input of `wbits`. -/
theorem State.wbits_withResponse {v : Word} {len : Nat} {s t : State} (p : Option Response)
    (h : s.wbits v len = some t) : State.wbits v len { s with response := p } = some { t with response := p } := by
  refine State.wbits_eq_some.mpr ?_
  obtain ⟨hpart, rfl⟩ | ⟨hfull, hslot, rfl⟩ := State.wbits_eq_some.mp h
  · exact .inl ⟨hpart, rfl⟩
  · exact .inr ⟨hfull, hslot, rfl⟩

/-- A response is no input of the byte writes. -/
theorem State.wbytes_withResponse {data : List Byte} {s t : State} (p : Option Response)
    (h : s.wbytes data = some t) : State.wbytes data { s with response := p } = some { t with response := p } := by
  induction data generalizing s with
  | nil => exact Option.some.inj h ▸ rfl
  | cons b rest ih =>
    obtain ⟨u, hu, ht⟩ := State.wbytes_cons.mp h
    exact State.wbytes_cons.mpr ⟨_, State.wbits_withResponse p hu, ih ht⟩

/-- The eight-bit write of one byte (41_bitwriter.md R137). -/
abbrev byteWrite (b : Byte) : Instr := .wBits (b.setWidth 32) 8

/-- The fields of the byte-wise write of a string (41_bitwriter.md R137). -/
def byteFields (data : List Byte) : List (Word × BitVec 6) := data.map fun b => (b.setWidth 32, 8)

theorem fieldBits_byteFields (data : List Byte) : fieldBits (byteFields data) = 8 * data.length := by
  induction data with
  | nil => rfl
  | cons b rest ih =>
    simp only [byteFields, fieldBits, List.map_cons, List.sum_cons, List.length_cons] at ih ⊢
    rw [ih, Nat.mul_succ, Nat.add_comm]
    rfl

theorem byteFields_len_le {data : List Byte} : ∀ f ∈ byteFields data, f.2.toNat ≤ 32 := by
  intro f hf
  obtain ⟨b, -, rfl⟩ := List.mem_map.mp hf
  exact (by decide : (8 : BitVec 6).toNat ≤ 32)

theorem map_byteFields (data : List Byte) :
    (byteFields data).map (fun f => Instr.wBits f.1 f.2) = data.map byteWrite :=
  List.map_map

/-- A session of byte writes that all answer `OK` ends as the byte writes of `W_BYTES` do, but for the response. -/
theorem wbytes_of_trace {data : List Byte} {s : State} {ts : List State}
    (h : trace (data.map byteWrite) s = some ts) (hok : ∀ u ∈ ts, u.Answered .ok []) :
    ∃ t, s.wbytes data = some t ∧ (ts.getLastD s).respond .ok [] = t.respond .ok [] := by
  induction data generalizing s ts with
  | nil =>
    cases h
    exact ⟨s, rfl, rfl⟩
  | cons b rest ih =>
    obtain ⟨x, us, hx, hus, rfl⟩ := trace_cons_eq_some h
    obtain ⟨hxok, husok⟩ := List.forall_mem_cons.mp hok
    obtain ⟨-, u, hu, rfl⟩ := exec_writer_ok rfl hx hxok
    obtain ⟨t, ht, hlast⟩ := ih hus husok
    have ht' := State.wbytes_withResponse u.response ht
    refine ⟨_, State.wbytes_cons.mpr ⟨u, hu, ht'⟩, ?_⟩
    rw [List.getLastD_cons, hlast]
    rfl

/-- The byte-wise write of a string that fits answers `OK` throughout and ends as `W_BYTES` does (41_bitwriter.md
R137). -/
theorem State.WriterReady.bytewise_eq_wBytes {s t : State} (h : s.WriterReady) (ho : s.w.Open) {data : List Byte}
    (halign : s.w.bitsWritten.toNat % 8 = 0) (hfit : s.w.bitsWritten.toNat + 8 * data.length ≤ s.w.numBits.toNat)
    (ht : (Instr.wBytes data).writerRun s = some t) :
    ∃ ts, trace (data.map byteWrite) s = some ts ∧ (∀ u ∈ ts, u.Answered .ok []) ∧
      (ts.getLastD s).respond .ok [] = t.respond .ok [] := by
  obtain ⟨ts, hts, -, hok, -⟩ := h.trace_fields ho (fields := byteFields data) byteFields_len_le
    (by rwa [fieldBits_byteFields])
  rw [map_byteFields] at hts
  obtain ⟨t', ht', hlast⟩ := wbytes_of_trace hts hok
  rw [h.wBytes_run halign hfit, ht'] at ht
  exact ⟨ts, hts, hok, Option.some.inj ht ▸ hlast⟩

/-- The byte-wise write of a string that does not fit fails at its first byte that does not (41_bitwriter.md R137). -/
theorem State.WriterReady.bytewise_overflow {s : State} (h : s.WriterReady) (ho : s.w.Open) {data : List Byte}
    {fitting : Nat} (hfitting : fitting = (s.w.numBits.toNat - s.w.bitsWritten.toNat) / 8)
    (hover : s.w.numBits.toNat < s.w.bitsWritten.toNat + 8 * data.length) :
    ∃ ts, trace (data.map byteWrite) s = some ts ∧
      ts.map State.status = List.replicate fitting (some .ok) ++ some .capacityExceeded ::
        List.replicate (data.length - fitting - 1) (some .faulted) := by
  have hcursor := h.cursor
  have hlt : fitting < data.length := by omega
  have hbits : fieldBits (byteFields (data.take fitting)) = 8 * fitting := by
    rw [fieldBits_byteFields, List.length_take, Nat.min_eq_left hlt.le]
  obtain ⟨ts, hts, hstatus⟩ := h.trace_overflow ho (fields := byteFields (data.take fitting)) byteFields_len_le
    (by rw [hbits]; omega) (data[fitting].setWidth 32) (len := 8) (by decide)
    (after := (data.drop (fitting + 1)).map byteWrite)
    (by rw [hbits]; show _ < _ + 8; omega) (List.forall_mem_map.mpr fun _ _ => rfl)
  refine ⟨ts, ?_, ?_⟩
  · rw [← hts, map_byteFields, ← List.map_cons (f := byteWrite), ← List.map_append, List.getElem_cons_drop,
      List.take_append_drop]
  · rw [hstatus]
    simp [byteFields, Nat.min_eq_left hlt.le, Nat.sub_sub]

/-- Settles O35: the phases are byte writes, and a byte that does not fit is a field that does not fit. -/
theorem wBytesEqualsBytewiseWBits : Obligations.WBytesEqualsBytewiseWBits := by
  refine fun data s h => ⟨fun t ht hok => ?_, fun ho halign hover => ⟨?_, ?_⟩⟩
  · obtain ⟨hn, u, hu, rfl⟩ := exec_writer_ok rfl ht hok
    rw [Instr.writerTests, Writer.bytesTests, firstRaise_append, Option.or_eq_none_iff] at hn
    obtain ⟨haccept, hrest⟩ := hn
    have ho := Writer.firstRaise_waccept.mp haccept
    obtain ⟨halign, hfit, -⟩ :
        s.w.bitsWritten.toNat % 8 = 0 ∧ s.w.bitsWritten.toNat + 8 * data.length ≤ s.w.numBits.toNat ∧ _ := by
      simpa [Writer.tooLong] using firstRaise_eq_none.mp hrest
    obtain ⟨ts, hts, htsok, hlast⟩ := (h.writerReady ho).bytewise_eq_wBytes ho halign hfit hu
    exact ⟨ts, hts, htsok, (congrArg State.w hlast :), (congrArg State.r hlast :), (congrArg State.mem hlast :)⟩
  · have hraised : firstRaise (s.w.bytesTests data.length) = some .capacityExceeded :=
      ho.raises_capacityExceeded (by rw [halign]; rfl) hover _
    exact guarded_some hraised _ _
  · exact (h.writerReady ho).bytewise_overflow ho rfl hover

end Sys2Proof.Machine
end

section
/-! PROOFS. O40 to O43, O48: the commands of the BitReader (42_bitreader.md). What a run delivers is one number, the low
bits of the staged ones with the fetched words above them: refilling and extracting deliver it, and delivering twice
delivers the two numbers as one. -/

namespace Sys2Proof.Machine

/-! ## `R_NEW` -/

/-- The tests of a NEW command pass when its buffer is a whole number of words inside `MEM` (42_bitreader.md R151). -/
theorem newTests_none {base cap : Word} {memWords : Nat} (hwhole : cap.toNat % 4 = 0)
    (hfit : base.toNat + cap.toNat / 4 ≤ memWords) : firstRaise (newTests base cap memWords) = none := by
  simp [newTests, hwhole, Nat.not_lt.mpr hfit, firstRaise_nil]

/-- Settles O40: no test holds, and the capacity fits its registers. -/
theorem rNewBindsAFreshReader : Obligations.RNewBindsAFreshReader := by
  intro base cap s hm hwhole hfit
  have hmax : Config.maxMemWords = 134217727 := rfl
  refine ⟨_, guarded_none (newTests_none hwhole hfit) _ _, rfl, rfl, ?_, ?_, rfl, rfl, rfl, rfl, rfl⟩
  · simp only [State.respond_r, Reader.fresh_numWords, BitVec.toNat_ofNat]
    omega
  · simp only [State.respond_r, Reader.fresh_numBits, BitVec.toNat_ofNat]
    omega

/-! ## Commands whose tests pass -/

/-- A reader command none of whose tests holds makes its run and gives the run's response. -/
theorem exec_reader_of_run {i : Instr} (hi : i.isReaderCommand = true) {s t : State} {p : Response}
    (hn : firstRaise (i.readerTests s.r) = none) (ht : i.readerRun s = some (p, t)) :
    exec i s = .next (t.respond p.status p.data) := by
  rw [exec_reader hi, guarded_none hn, ht, finishRead]

/-- A bound reader passes the tests of a command when those after `radmit` do not hold. -/
theorem Reader.deliver_pass {r : Reader} (hb : r.bound = true) {tests : List (Bool × Status)}
    (hrest : ∀ p ∈ tests, p.1 = false) : firstRaise (r.radmit ++ tests) = none := by
  rw [firstRaise_append, Reader.firstRaise_radmit.mpr hb, Option.none_or, firstRaise_eq_none.mpr hrest]

section Tests

variable {s : State} (h : s.ReaderReady) (hb : s.r.bound = true)
include h hb

/-- A field that fits passes the tests of `R_BITS` (42_bitreader.md R152). -/
theorem State.ReaderReady.bitsTests_pass {len : Nat} (hl : len ≤ 32)
    (hfit : s.r.bitsRead.toNat + len ≤ s.r.numBits.toNat) : firstRaise (s.r.bitsTests len) = none :=
  Reader.deliver_pass hb (by simp [hl, h.noSlot hfit, Reader.tooLong, hfit])

/-- The padding passes the tests of `R_ALIGN` (42_bitreader.md R154). -/
theorem State.ReaderReady.alignTests_pass : firstRaise s.r.alignTests = none :=
  Reader.deliver_pass hb (by simp [h.noSlot h.padding_fits, Reader.tooLong, h.padding_fits])

/-- A string that fits an aligned reader passes the tests of `R_BYTES` (42_bitreader.md R155). -/
theorem State.ReaderReady.bytesTests_pass {n : Nat} (halign : s.r.bitsRead.toNat % 8 = 0)
    (hfit : s.r.bitsRead.toNat + 8 * n ≤ s.r.numBits.toNat) : firstRaise (s.r.bytesTests n) = none :=
  Reader.deliver_pass hb (by simp [halign, Reader.tooLong, hfit, h.bytesLoads_fit hfit])

end Tests

/-! ## Delivering as arithmetic -/

/-- A reader whose cursor registers hold the given numbers, all else as in `r` (42_bitreader.md R153). -/
theorem Reader.eq_withCursor {r r' : Reader} {scratch scratchBits wordIndex bitsRead : Nat}
    (hr : r' = { r with
      scratch := r'.scratch, scratchBits := r'.scratchBits, wordIndex := r'.wordIndex, bitsRead := r'.bitsRead })
    (hscratch : r'.scratch.toNat = scratch) (hstaged : r'.scratchBits.toNat = scratchBits)
    (hindex : r'.wordIndex.toNat = wordIndex) (hread : r'.bitsRead.toNat = bitsRead) :
    r' = r.withCursor scratch scratchBits wordIndex bitsRead := by
  subst hscratch hstaged hindex hread
  simpa [Reader.withCursor] using hr

@[simp] theorem Reader.withCursor_withCursor (r : Reader) (a b c d a' b' c' d' : Nat) :
    (r.withCursor a b c d).withCursor a' b' c' d' = r.withCursor a' b' c' d' := rfl

/-- The response is no part of what is delivered. -/
theorem Delivered.respond {s t : State} {len : Nat} (h : Delivered s t len) (st : Status) (data : List Word) :
    Delivered s (t.respond st data) len := ⟨h.writer, h.mem, h.memWords, h.inbox, h.reader⟩

/-- The four bytes of a word of `MEM` (20_memory.md R61). -/
theorem State.bytesFrom_word (s : State) (i : Nat) : s.bytesFrom (4 * i) 4 = bytesOfWord (s.mem.wordAt i) := by
  rw [Memory.wordAt, bytesOfWord_wordOfBytes]
  rfl

/-- A word of `MEM` is the number its four bytes hold (20_memory.md R61). -/
theorem State.leNat_bytesFrom_word (s : State) (i : Nat) :
    leNat (s.bytesFrom (4 * i) 4) = (s.mem.wordAt i).toNat := (Memory.wordAt_toNat s.mem i).symm

theorem State.bytesFrom_length (s : State) (a n : Nat) : (s.bytesFrom a n).length = n := by
  rw [State.bytesFrom, List.length_map, List.length_range]

theorem State.bytesFrom_append (s : State) (a m n : Nat) :
    s.bytesFrom a (m + n) = s.bytesFrom a m ++ s.bytesFrom (a + m) n := by
  simp only [State.bytesFrom, List.range_add, List.map_append, List.map_map, Function.comp_def, Nat.add_assoc]

/-- A delivery fetches as many words as it needs and no more: fewer than 32 bits stay staged (10_state.md R37). -/
theorem Reader.fetches_bounds {r : Reader} (hs : r.scratchBits.toNat ≤ 31) (len : Nat) :
    len ≤ r.scratchBits.toNat + 32 * r.fetches len ∧ r.scratchBits.toNat + 32 * r.fetches len ≤ len + 31 := by
  rw [Reader.fetches]
  split <;> omega

/-- Enough staged bits are read as they are. -/
theorem State.readable_staged {s : State} {len : Nat} (hlen : len ≤ s.r.scratchBits.toNat) :
    s.r.fetches len = 0 ∧ s.readable len = s.r.scratch.toNat := by
  have hnone : s.r.fetches len = 0 := if_pos hlen
  exact ⟨hnone, by simp [State.readable, hnone, State.bytesFrom, leNat]⟩

/-- Too few staged bits are read with the next word above them. -/
theorem State.readable_refill {s : State} {len : Nat} (hl : len ≤ 32) (hlen : s.r.scratchBits.toNat < len) :
    s.r.fetches len = 1 ∧
      s.readable len = s.r.scratch.toNat + (s.mem.wordAt s.r.slot).toNat * 2 ^ s.r.scratchBits.toNat := by
  have hone : s.r.fetches len = 1 := by
    rw [Reader.fetches, if_neg (Nat.not_le.mpr hlen)]
    omega
  exact ⟨hone, by rw [State.readable, hone, Nat.mul_one, State.leNat_bytesFrom_word]⟩

/-- The readable number has as many bits as are staged and fetched. -/
theorem State.ReaderReady.readable_lt {s : State} (h : s.ReaderReady) (len : Nat) :
    s.readable len < 2 ^ (s.r.scratchBits.toNat + 32 * s.r.fetches len) := by
  obtain ⟨-, -, -, hscratch, -⟩ := h.inv
  have hwords := leNat_lt (s.bytesFrom (4 * s.r.slot) (4 * s.r.fetches len))
  rw [State.bytesFrom_length, ← Nat.mul_assoc] at hwords
  rw [State.readable, ← Nat.mod_eq_of_lt hwords]
  exact staged_lt hscratch

/-- The extraction from a reader filled with the readable number delivers its low bits (42_bitreader.md R153). -/
theorem Delivered.of_filled {s : State} {r : Reader} {memWords len : Nat} (hl : len ≤ 32)
    (h : r.Filled memWords len)
    (hrest : r = { s.r with scratch := r.scratch, scratchBits := r.scratchBits, wordIndex := r.wordIndex })
    (hscratch : r.scratch.toNat = s.readable len)
    (hstaged : r.scratchBits.toNat = s.r.scratchBits.toNat + 32 * s.r.fetches len)
    (hindex : r.wordIndex.toNat = s.r.wordIndex.toNat + s.r.fetches len) :
    Delivered s { s with r := r.consume len } len ∧ (r.front len).toNat = s.readable len % 2 ^ len := by
  refine ⟨⟨rfl, rfl, rfl, rfl, Reader.eq_withCursor ?_ ?_ ?_ hindex ?_⟩, by rw [Reader.front_toNat hl, hscratch]⟩
  · simp only [Reader.consume]
    rw [hrest]
  · rw [Reader.consume_scratch_toNat, hscratch]
  · rw [Reader.consume_scratchBits_toNat h.enough, hstaged]
  · rw [h.consume.2, hrest]

/-- `rbits` delivers the low `len` bits of the readable number (42_bitreader.md R153). -/
theorem State.ReaderReady.rbits_delivered {s t : State} (h : s.ReaderReady) {len : Nat} {out : Word} (hl : len ≤ 32)
    (hfit : s.r.bitsRead.toNat + len ≤ s.r.numBits.toNat) (ht : s.rbits len = some (out, t)) :
    Delivered s t len ∧ out.toNat = s.readable len % 2 ^ len := by
  obtain ⟨hlen, rfl, rfl⟩ | ⟨hlen, -, rfl, rfl⟩ := State.rbits_eq_some.mp ht
  · obtain ⟨hnone, hread⟩ := State.readable_staged hlen
    exact Delivered.of_filled hl (h.filled hfit hlen) rfl hread.symm (by rw [hnone]; rfl) (by rw [hnone]; rfl)
  · have hcursor := h.cursor
    obtain ⟨-, -, hstaged, hlow, -⟩ := h.inv
    obtain ⟨hone, hread⟩ := State.readable_refill hl hlen
    obtain ⟨-, hfilled⟩ := h.filled_refill (s.mem.wordAt s.r.slot) hl hfit hlen
    refine Delivered.of_filled hl hfilled rfl ?_ ?_ ?_
    · rw [Reader.refillWith_scratch_toNat hstaged hlow, hread]
    · rw [Reader.refillWith_scratchBits_toNat hstaged, hone]
    · rw [Reader.refillWith_wordIndex_toNat (by omega), hone]

/-- Settles O41: the tests pass, and `rbits` delivers. -/
theorem rBitsDeliversItsField : Obligations.RBitsDeliversItsField := by
  intro len s h hb hl hfit
  have hready := h.readerReady hb
  obtain ⟨out, t, ht, -⟩ := hready.rbits hl hfit
  obtain ⟨hdel, hout⟩ := hready.rbits_delivered hl hfit ht
  have hrun : (Instr.rBits len).readerRun s = some (⟨.ok, [out]⟩, t) := by rw [Instr.readerRun, ht]; rfl
  refine ⟨_, exec_reader_of_run rfl (hready.bitsTests_pass hb hl hfit) hrun, hdel.respond _ _, ?_⟩
  rw [← hout, BitVec.ofNat_toNat, BitVec.setWidth_eq]
  rfl

/-! ## `R_ALIGN` -/

/-- Delivering no bits changes nothing. -/
theorem Delivered.refl (s : State) : Delivered s s 0 := by
  obtain ⟨hnone, hread⟩ := s.readable_staged (Nat.zero_le _)
  refine ⟨rfl, rfl, rfl, rfl, Reader.eq_withCursor rfl ?_ ?_ ?_ rfl⟩
  · rw [hread, Nat.pow_zero, Nat.div_one]
  · rw [hnone]
    rfl
  · rw [hnone]
    rfl

/-- The run of an `R_ALIGN` is the extraction of the staged padding, nothing at a byte boundary; its status is `OK` when
the padding is zero (42_bitreader.md R154). -/
theorem State.ReaderReady.align_run {s : State} (h : s.ReaderReady) :
    ∃ t, Instr.rAlign.readerRun s =
        some (⟨if s.r.scratch.toNat % 2 ^ padding s.r.bitsRead = 0 then .ok else .paddingNonZero, []⟩, t) ∧
      Delivered s t (padding s.r.bitsRead) ∧ ReaderAdvanced s t (padding s.r.bitsRead) ∧
      t.r.wordIndex = s.r.wordIndex := by
  have hl : padding s.r.bitsRead ≤ 32 := (padding_lt _).le.trans (by norm_num)
  rw [Instr.readerRun]
  split
  · next h0 =>
    rw [h0, Nat.pow_zero, Nat.mod_one, if_pos rfl]
    exact ⟨s, rfl, .refl s, ⟨h, rfl, rfl⟩, rfl⟩
  · obtain ⟨hinv, hread⟩ := (h.filled h.padding_fits h.padding_staged).consume
    rw [h.rbits_padding, Option.map_some]
    simp only [Reader.front_eq_zero hl]
    exact ⟨_, rfl, (h.rbits_delivered hl h.padding_fits h.rbits_padding).1, ⟨⟨h.memWords, hinv⟩, rfl, hread⟩, rfl⟩

/-- Settles O42: the padding is staged, and the status is judged on its bits. -/
theorem rAlignConsumesThePadding : Obligations.RAlignConsumesThePadding := by
  intro s h hb
  have hready := h.readerReady hb
  obtain ⟨t, hrun, hdel, hadv, hindex⟩ := hready.align_run
  refine ⟨_, exec_reader_of_run rfl (hready.alignTests_pass hb) hrun, hdel.respond _ _, hindex, ?_, rfl⟩
  rw [State.respond_r, hadv.bitsRead, add_padding_mod_eight]

/-! ## Delivering one number after another -/

/-- The cursor after a delivery, as numbers: nothing wraps when the bits fit. -/
theorem Delivered.cursor {s t : State} {len : Nat} (h : Delivered s t len) (hs : s.ReaderReady)
    (hfit : s.r.bitsRead.toNat + len ≤ s.r.numBits.toNat) :
    t.r.scratch.toNat = s.readable len / 2 ^ len ∧
      t.r.scratchBits.toNat = s.r.scratchBits.toNat + 32 * s.r.fetches len - len ∧
      t.r.wordIndex.toNat = s.r.wordIndex.toNat + s.r.fetches len ∧
      t.r.bitsRead.toNat = s.r.bitsRead.toNat + len ∧ t.r.base = s.r.base := by
  have hcursor := hs.cursor
  obtain ⟨-, -, -, -, hpart, -⟩ := hs.cursor
  have hleft := Reader.fetches_bounds hpart len
  have hlow : s.readable len / 2 ^ len < 2 ^ 64 := by
    refine Nat.div_lt_of_lt_mul ((hs.readable_lt len).trans_le ?_)
    rw [← Nat.pow_add]
    exact Nat.pow_le_pow_right two_pos (by omega)
  rw [h.reader]
  refine ⟨BitVec.toNat_ofNat _ _ ▸ Nat.mod_eq_of_lt hlow, ?_, ?_, ?_, rfl⟩ <;>
    (simp only [Reader.withCursor, BitVec.toNat_ofNat]; omega)

/-- Two deliveries fetch what one delivery of all their bits does; the words of the second stand above those of the
first. -/
theorem Delivered.readable_add {s t : State} {m : Nat} (h : Delivered s t m) (hs : s.ReaderReady)
    (hfit : s.r.bitsRead.toNat + m ≤ s.r.numBits.toNat) (n : Nat) :
    s.r.fetches (m + n) = s.r.fetches m + t.r.fetches n ∧
      s.readable (m + n) % 2 ^ m = s.readable m % 2 ^ m ∧ s.readable (m + n) / 2 ^ m = t.readable n := by
  obtain ⟨hscratch, hstaged, hindex, -, hbase⟩ := h.cursor hs hfit
  obtain ⟨-, -, -, -, hpart, -⟩ := hs.cursor
  have hleft := Reader.fetches_bounds hpart m
  have hfetches : s.r.fetches (m + n) = s.r.fetches m + t.r.fetches n := by
    simp only [Reader.fetches] at hstaged ⊢
    split_ifs at hstaged ⊢ <;> omega
  have hslot : 4 * t.r.slot = 4 * s.r.slot + 4 * s.r.fetches m := by
    rw [Reader.slot, Reader.slot, hbase, hindex]
    ring
  have hbytes : ∀ a k, t.bytesFrom a k = s.bytesFrom a k := fun a k => by
    simp only [State.bytesFrom, State.byteAt, h.mem]
  have hread : s.readable (m + n) =
      s.readable m + 2 ^ m * (leNat (t.bytesFrom (4 * t.r.slot) (4 * t.r.fetches n)) * 2 ^ t.r.scratchBits.toNat) := by
    have hpow : 2 ^ m * 2 ^ t.r.scratchBits.toNat = 2 ^ s.r.scratchBits.toNat * 2 ^ (8 * (4 * s.r.fetches m)) := by
      rw [← Nat.pow_add, ← Nat.pow_add, hstaged]
      congr 1
      omega
    rw [Nat.mul_left_comm, hpow, State.readable, hfetches, Nat.mul_add, State.bytesFrom_append, leNat_append,
      State.bytesFrom_length, hbytes, hslot, State.readable]
    ring
  refine ⟨hfetches, by rw [hread, Nat.add_mul_mod_self_left], ?_⟩
  rw [hread, Nat.add_mul_div_left _ _ (Nat.two_pow_pos _), ← hscratch]
  rfl

/-- Delivering some bits and then more delivers them all. -/
theorem Delivered.trans {s t u : State} {m n : Nat} (h : Delivered s t m) (k : Delivered t u n) (hs : s.ReaderReady)
    (hfit : s.r.bitsRead.toNat + m ≤ s.r.numBits.toNat) : Delivered s u (m + n) := by
  obtain ⟨hfetches, -, hread⟩ := h.readable_add hs hfit n
  obtain ⟨-, hstaged, hindex, hcount, -⟩ := h.cursor hs hfit
  refine ⟨k.writer.trans h.writer, k.mem.trans h.mem, k.memWords.trans h.memWords, k.inbox.trans h.inbox, ?_⟩
  obtain ⟨-, -, -, -, hpart, -⟩ := hs.cursor
  have hleft := Reader.fetches_bounds hpart m
  rw [k.reader, h.reader, Reader.withCursor_withCursor, ← h.reader, ← hread, Nat.div_div_eq_div_mul, ← Nat.pow_add,
    hfetches, hstaged, hindex, hcount]
  congr 1 <;> omega

/-- Byte extractions deliver the byte string, the first byte lowest (42_bitreader.md R155). -/
theorem State.ReaderReady.rbytes_delivered {s t : State} (h : s.ReaderReady) {n : Nat} {data : List Byte}
    (hfit : s.r.bitsRead.toNat + 8 * n ≤ s.r.numBits.toNat) (ht : s.rbytes n = some (data, t)) :
    Delivered s t (8 * n) ∧ leNat data = s.readable (8 * n) % 2 ^ (8 * n) := by
  induction n generalizing s data with
  | zero =>
    cases ht
    exact ⟨.refl _, (Nat.mod_one _).symm⟩
  | succ n ih =>
    obtain ⟨v, u, rest, hu, hrun, rfl⟩ := State.rbytes_succ.mp ht
    have hfit8 : s.r.bitsRead.toNat + 8 ≤ s.r.numBits.toNat := by omega
    have hadv : ReaderAdvanced s u 8 := by simpa [hu] using h.rbits (len := 8) (by norm_num) hfit8
    obtain ⟨hbyte, hv⟩ := h.rbits_delivered (by norm_num) hfit8 hu
    obtain ⟨hrest, hdata⟩ := ih hadv.ready (by rw [hadv.bitsRead, hadv.numBits]; omega) hrun
    obtain ⟨-, hlow, hhigh⟩ := hbyte.readable_add h hfit8 (8 * n)
    rw [Nat.mul_succ, Nat.add_comm]
    refine ⟨hbyte.trans hrest h hfit8, ?_⟩
    rw [leNat, BitVec.toNat_setWidth, hv, hdata, Nat.mod_mod, Nat.pow_add, Nat.mod_mul, hlow, hhigh]

/-- Settles O43: the tests pass, and the byte extractions deliver. -/
theorem rBytesDeliversTheByteString : Obligations.RBytesDeliversTheByteString := by
  intro n s h hb halign hfit
  have hready := h.readerReady hb
  obtain ⟨data, t, ht⟩ := hready.rbytes hfit
  obtain ⟨hdel, hdata⟩ := hready.rbytes_delivered hfit ht
  have hrun : (Instr.rBytes n).readerRun s = some (⟨.ok, packBytes data⟩, t) := by rw [Instr.readerRun, ht]; rfl
  exact ⟨_, data, exec_reader_of_run rfl (hready.bytesTests_pass hb halign hfit) hrun, hdel.respond _ _, rfl,
    (State.rbytes_frame ht).2, hdata⟩

/-! ## Byte extractions from staged bits -/

theorem Reader.consume_zero (r : Reader) : r.consume 0 = r := by
  simp [Reader.consume]

/-- Two extractions consume what one of all their bits does. -/
theorem Reader.consume_consume (r : Reader) (a b : Nat) : (r.consume a).consume b = r.consume (a + b) := by
  simp only [Reader.consume, BitVec.shiftRight_add, BitVec.ofNat_add, BitVec.add_assoc, BitVec.sub_sub]

/-- Byte extractions from staged bits deliver the bytes of the scratch, the lowest first, without a load
(42_bitreader.md R155). -/
theorem State.rbytes_staged {s : State} {n : Nat} (hn : 8 * n ≤ s.r.scratchBits.toNat) :
    s.rbytes n =
      some ((List.range n).map fun j => BitVec.ofNat 8 (s.r.scratch.toNat / 2 ^ (8 * j)),
        { s with r := s.r.consume (8 * n) }) := by
  induction n generalizing s with
  | zero => rw [Nat.mul_zero, Reader.consume_zero]; rfl
  | succ n ih =>
    have hbyte : s.rbits 8 = some (s.r.front 8, { s with r := s.r.consume 8 }) :=
      State.rbits_eq_some.mpr (.inl ⟨by omega, rfl, rfl⟩)
    have hleft : 8 * n ≤ (s.r.consume 8).scratchBits.toNat := by
      rw [Reader.consume_scratchBits_toNat (by omega)]
      omega
    rw [show 8 * (n + 1) = 8 + 8 * n by ring, ← Reader.consume_consume]
    refine State.rbytes_succ.mpr ⟨_, _, _, hbyte, ih hleft, ?_⟩
    rw [List.range_succ_eq_map, List.map_cons, List.map_map]
    congr 1
    · apply BitVec.eq_of_toNat_eq
      simp [Reader.front_toNat]
    · refine List.map_congr_left fun j _ => ?_
      rw [Function.comp_apply, Reader.consume_scratch_toNat, Nat.div_div_eq_div_mul, ← Nat.pow_add, Nat.mul_succ,
        Nat.add_comm]

/-- With nothing staged, byte extractions are those from the refilled reader (42_bitreader.md R153). -/
theorem State.rbytes_refill {s : State} (hs : s.r.scratchBits = 0) (hslot : s.r.slot < s.memWords) (n : Nat) :
    s.rbytes (n + 1) = State.rbytes (n + 1) { s with r := s.r.refillWith (s.mem.wordAt s.r.slot) } := by
  have hrefill : s.refill 8 = some { s with r := s.r.refillWith (s.mem.wordAt s.r.slot) } := by
    rw [State.refill, hs, if_pos (by decide), State.loadWord_eq_some.mpr ⟨hslot, rfl⟩]
    rfl
  have hstaged : State.refill 8 { s with r := s.r.refillWith (s.mem.wordAt s.r.slot) } = s.refill 8 := by
    rw [hrefill, State.refill, Reader.refillWith_scratchBits, hs]
    rfl
  simp only [State.rbytes, State.rbits, hstaged]

/-- Settles O48: the refill stages the word, and the four extractions deliver its bytes. -/
theorem fourByteReadsEqualOneWordLoad : Obligations.FourByteReadsEqualOneWordLoad := by
  intro s hscratch hs hslot
  have hword : (s.r.refillWith (s.mem.wordAt s.r.slot)).scratch.toNat = (s.mem.wordAt s.r.slot).toNat := by
    rw [Reader.refillWith_scratch_toNat (by rw [hs]; decide) (by rw [hscratch, hs]; decide), hscratch, hs]
    simp
  have hbits : (s.r.refillWith (s.mem.wordAt s.r.slot)).scratchBits = 32 := by
    rw [Reader.refillWith_scratchBits, hs]
    rfl
  have hcursor : (s.r.refillWith (s.mem.wordAt s.r.slot)).consume 32 =
      s.r.withCursor 0 0 (s.r.wordIndex.toNat + 1) (s.r.bitsRead.toNat + 32) := by
    refine Reader.ext ?_ ?_ ?_ ?_ rfl rfl rfl rfl
    · apply BitVec.eq_of_toNat_eq
      rw [Reader.consume_scratch_toNat, hword, Nat.div_eq_of_lt (BitVec.isLt _)]
      rfl
    · rw [Reader.consume_scratchBits, hbits]
      rfl
    · simp [Reader.withCursor, BitVec.ofNat_add]
    · simp [Reader.withCursor, BitVec.ofNat_add]
  rw [State.rbytes_refill hs hslot, State.rbytes_staged (n := 4) (by rw [hbits]; decide), hword, hcursor,
    State.bytesFrom_word]
  simp only [← byteOfWord_eq]
  rfl

end Sys2Proof.Machine
end

section
/-! PROOFS. O51: the round trip of a session (42_bitreader.md R158). A field is a number and a width. A write that
answers `OK` supplies the number's bits to the stream, and later writes keep them; after the flush `MEM` holds the
stream. A reader at the same place of the same buffer then delivers the number, and stands where the writer stood. -/

namespace Sys2Proof.Machine

/-! ## Fields as numbers -/

/-- How many bits a field takes at stream position `bits` (42_bitreader.md R158). -/
def Field.width (f : Field) (bits : BitVec 32) : Nat :=
  match f with
  | .bits _ len => len.toNat
  | .align => padding bits
  | .bytes data => 8 * data.length
  | .int _ min max => bitsRequired min max

/-- The number whose low bits a field stands for in the stream. -/
def Field.number : Field → Nat
  | .bits value _ => value.toNat
  | .align => 0
  | .bytes data => leNat data
  | .int value min _ => (rangeEncode value min).toNat

/-- The conditions, besides room, under which a writer at stream position `bits` accepts a field (41_bitwriter.md R132,
R136; 43_stream_integer.md R171). -/
def Field.Legal (f : Field) (bits : BitVec 32) : Prop :=
  match f with
  | .bits _ len => len.toNat ≤ 32
  | .align => True
  | .bytes _ => bits.toNat % 8 = 0
  | .int value min max => s32 min < s32 max ∧ s32 min ≤ s32 value ∧ s32 value ≤ s32 max

theorem Field.write_isWriterCommand (f : Field) : f.write.isWriterCommand = true := by cases f <;> rfl

theorem Field.read_isReaderCommand (f : Field) : f.read.isReaderCommand = true := by cases f <;> rfl

/-! ## Writing a field -/

/-- `t` is `s` with the low `len` bits of the number `v` supplied to the stream; the writer is ready again, over the
same buffer (20_memory.md R62). -/
structure StreamSupplied (s t : State) (v len : Nat) : Prop where
  advanced : WriterAdvanced s t len
  base : t.w.base = s.w.base
  memWords : t.memWords = s.memWords
  bits : ∀ n, t.writtenBit n =
    if n < s.w.bitsWritten.toNat then s.writtenBit n
    else decide (n - s.w.bitsWritten.toNat < len) && v.testBit (n - s.w.bitsWritten.toNat)

theorem StreamSupplied.refl {s : State} (h : s.WriterReady) (v : Nat) : StreamSupplied s s v 0 := by
  refine ⟨.refl h, rfl, rfl, fun n => ?_⟩
  split
  · rfl
  · next hn => rw [h.writtenBit_beyond (Nat.le_of_not_lt hn), decide_eq_false (Nat.not_lt_zero _), Bool.false_and]

/-- Supplying one number and then another supplies both, the second above the first. -/
theorem StreamSupplied.trans {s t u : State} {v v' m n : Nat} (h : StreamSupplied s t v m)
    (k : StreamSupplied t u v' n) (hv : v < 2 ^ m) : StreamSupplied s u (2 ^ m * v' + v) (m + n) := by
  refine ⟨h.advanced.trans k.advanced, k.base.trans h.base, k.memWords.trans h.memWords, fun i => ?_⟩
  rw [k.bits, h.bits, h.advanced.bitsWritten, Nat.testBit_two_pow_mul_add _ hv, Nat.sub_add_eq]
  split_ifs with hfirst hold hlow hold hlow
  · rfl
  · rw [decide_eq_true (by omega), decide_eq_true (by omega)]
  · omega
  · omega
  · omega
  · congr 1
    exact decide_eq_decide.mpr (by omega)

theorem StreamSupplied.respond {s t : State} {v len : Nat} (h : StreamSupplied s t v len) (st : Status)
    (data : List Word) : StreamSupplied s (t.respond st data) v len :=
  ⟨h.advanced.respond st data, h.base, h.memWords, h.bits⟩

/-- `wbits` of a field that fits supplies the low bits of its value (41_bitwriter.md R134). -/
theorem State.WriterReady.wbits_supplied {s t : State} (h : s.WriterReady) {v : Word} {len : Nat} (hl : len ≤ 32)
    (hfit : s.w.bitsWritten.toNat + len ≤ s.w.numBits.toNat) (ht : s.wbits v len = some t) :
    StreamSupplied s t v.toNat len := by
  have hadv : WriterAdvanced s t len := by simpa [ht] using h.wbits v hl hfit
  have hframe := State.wbits_frame ht
  exact ⟨hadv, hframe.base, hframe.memWords, h.wbits_writtenBit hl ht⟩

/-- Byte writes of a string that fits supply its number (41_bitwriter.md R136). -/
theorem State.WriterReady.wbytes_supplied {s t : State} (h : s.WriterReady) {data : List Byte}
    (hfit : s.w.bitsWritten.toNat + 8 * data.length ≤ s.w.numBits.toNat) (ht : s.wbytes data = some t) :
    StreamSupplied s t (leNat data) (8 * data.length) := by
  induction data generalizing s with
  | nil => exact Option.some.inj ht ▸ .refl h 0
  | cons b rest ih =>
    rw [List.length_cons] at hfit ⊢
    obtain ⟨u, hu, ht⟩ := State.wbytes_cons.mp ht
    have hbyte := h.wbits_supplied (by norm_num) (by omega) hu
    have hrest := ih hbyte.advanced.ready (by rw [hbyte.advanced.bitsWritten, hbyte.advanced.numBits]; omega) ht
    rw [BitVec.toNat_setWidth, Nat.mod_eq_of_lt (b.isLt.trans (by norm_num))] at hbyte
    rw [leNat, Nat.mul_succ, Nat.add_comm, Nat.add_comm (8 * rest.length)]
    exact hbyte.trans hrest b.isLt

/-- The tests after those of `waccept` did not hold either. -/
theorem Writer.tests_after_waccept {w : Writer} {tests : List (Bool × Status)}
    (hn : firstRaise (w.waccept ++ tests) = none) : ∀ p ∈ tests, p.1 = false := by
  rw [firstRaise_append, Option.or_eq_none_iff] at hn
  exact firstRaise_eq_none.mp hn.2

/-- The run of a field's writer command whose tests all pass supplies the field (42_bitreader.md R158). -/
theorem State.WriterReady.field_supplied {s t : State} (h : s.WriterReady) {f : Field}
    (hn : firstRaise (f.write.writerTests s.w) = none) (ht : f.write.writerRun s = some t) :
    f.Legal s.w.bitsWritten ∧ StreamSupplied s t f.number (f.width s.w.bitsWritten) := by
  cases f with
  | bits value len =>
    obtain ⟨hlen, hfit, -⟩ : len.toNat ≤ 32 ∧ s.w.bitsWritten.toNat + len.toNat ≤ s.w.numBits.toNat ∧ _ := by
      simpa [Writer.tooLong] using Writer.tests_after_waccept hn
    exact ⟨hlen, h.wbits_supplied hlen hfit ht⟩
  | align =>
    refine ⟨trivial, ?_⟩
    rw [Field.write, Instr.writerRun] at ht
    split at ht
    · next h0 =>
      rw [Field.width, h0, ← Option.some.inj ht]
      exact .refl h _
    · exact h.wbits_supplied ((padding_lt _).le.trans (by norm_num)) h.padding_fits ht
  | bytes data =>
    obtain ⟨halign, hfit, -⟩ :
        s.w.bitsWritten.toNat % 8 = 0 ∧ s.w.bitsWritten.toNat + 8 * data.length ≤ s.w.numBits.toNat ∧ _ := by
      simpa [Writer.tooLong] using Writer.tests_after_waccept hn
    exact ⟨halign, h.wbytes_supplied hfit ((h.wBytes_run halign hfit).symm.trans ht)⟩
  | int value min max =>
    obtain ⟨hrange, hfit, -⟩ : (s32 min < s32 max ∧ s32 min ≤ s32 value ∧ s32 value ≤ s32 max) ∧
        s.w.bitsWritten.toNat + bitsRequired min max ≤ s.w.numBits.toNat ∧ _ := by
      simpa [Writer.tooLong, rangeHolds_eq, -Bool.decide_and] using Writer.tests_after_waccept hn
    exact ⟨hrange, h.wbits_supplied (bitsRequired_le min max) hfit ht⟩

/-- A field's writer command that answers `OK` supplies the field (42_bitreader.md R158). -/
theorem State.WriterReady.write_supplied {s t : State} (h : s.WriterReady) {f : Field}
    (ht : exec f.write s = .next t) (hok : t.Answered .ok []) :
    f.Legal s.w.bitsWritten ∧ StreamSupplied s t f.number (f.width s.w.bitsWritten) := by
  obtain ⟨hn, u, hu, rfl⟩ := exec_writer_ok f.write_isWriterCommand ht hok
  obtain ⟨hlegal, hsupplied⟩ := h.field_supplied hn hu
  exact ⟨hlegal, hsupplied.respond _ _⟩

/-! ## A write session -/

/-- The writer of `t` is ready, over the buffer of `s`, and has kept the stream of `s` (20_memory.md R77). -/
structure SessionKept (s t : State) : Prop where
  ready : t.WriterReady
  base : t.w.base = s.w.base
  memWords : t.memWords = s.memWords
  stream : StreamKept s t

theorem StreamSupplied.sessionKept {s t : State} {v len : Nat} (h : StreamSupplied s t v len) : SessionKept s t := by
  have hcount := h.advanced.bitsWritten
  exact ⟨h.advanced.ready, h.base, h.memWords, by omega, fun n hn => by rw [h.bits, if_pos hn]⟩

theorem SessionKept.trans {s t u : State} (h : SessionKept s t) (k : SessionKept t u) : SessionKept s u :=
  ⟨k.ready, k.base.trans h.base, k.memWords.trans h.memWords, h.stream.trans k.stream⟩

/-- A session of writes that all answer `OK` keeps the stream (42_bitreader.md R158). -/
theorem State.WriterReady.trace_writes {s : State} (h : s.WriterReady) {fields : List Field} {ts : List State}
    (hts : trace (fields.map Field.write) s = some ts) (hok : ∀ t ∈ ts, t.Answered .ok []) :
    ts.length = fields.length ∧ SessionKept s (ts.getLastD s) := by
  induction fields generalizing s ts with
  | nil =>
    cases hts
    exact ⟨rfl, h, rfl, rfl, .refl s⟩
  | cons f rest ih =>
    obtain ⟨t, us, ht, hus, rfl⟩ := trace_cons_eq_some hts
    obtain ⟨htok, husok⟩ := List.forall_mem_cons.mp hok
    obtain ⟨-, hsupplied⟩ := h.write_supplied ht htok
    obtain ⟨hlength, hkept⟩ := ih hsupplied.advanced.ready hus husok
    rw [List.getLastD_cons]
    exact ⟨congrArg Nat.succ hlength, hsupplied.sessionKept.trans hkept⟩

/-! ## Reading a field -/

/-- The buffer holds the low `len` bits of the number `v` from stream position `p` on (20_memory.md R62). -/
def Memory.Holds (m : Memory) (base p v len : Nat) : Prop := ∀ j < len, m.streamBit base (p + j) = v.testBit j

/-- A number held in two parts. -/
theorem Memory.Holds.split {m : Memory} {base p v v' k n : Nat} (h : m.Holds base p (2 ^ k * v' + v) (k + n))
    (hv : v < 2 ^ k) : m.Holds base p v k ∧ m.Holds base (p + k) v' n := by
  constructor
  · intro j hj
    rw [h j (by omega), Nat.testBit_two_pow_mul_add _ hv, if_pos hj]
  · intro j hj
    rw [Nat.add_assoc, h (k + j) (by omega), Nat.testBit_two_pow_mul_add _ hv, if_neg (by omega),
      Nat.add_sub_cancel_left]

theorem ReaderAdvanced.refl {s : State} (h : s.ReaderReady) : ReaderAdvanced s s 0 := ⟨h, rfl, rfl⟩

theorem ReaderAdvanced.trans {s t u : State} {m n : Nat} (h : ReaderAdvanced s t m) (k : ReaderAdvanced t u n) :
    ReaderAdvanced s u (m + n) :=
  ⟨k.ready, k.numBits.trans h.numBits, by rw [k.bitsRead, h.bitsRead, Nat.add_assoc]⟩

section Read

variable {s : State} (h : s.ReaderReady) (hfresh : s.readerFresh)
include h hfresh

/-- `rbits` on a fresh reader delivers the number that the buffer holds (42_bitreader.md R152). -/
theorem State.ReaderReady.rbits_holds {v len : Nat} (hl : len ≤ 32)
    (hfit : s.r.bitsRead.toNat + len ≤ s.r.numBits.toNat)
    (hv : s.mem.Holds s.r.base.toNat s.r.bitsRead.toNat v len) :
    ∃ out t, s.rbits len = some (out, t) ∧ out.toNat = v % 2 ^ len ∧ t.readerFresh ∧ ReaderAdvanced s t len := by
  obtain ⟨out, t, ht, hadv⟩ := h.rbits hl hfit
  obtain ⟨hkeep, hbits⟩ := h.rbits_stream hfresh hl hfit ht
  refine ⟨out, t, ht, Nat.eq_of_testBit_eq fun j => ?_, hkeep, hadv⟩
  rw [Nat.testBit_mod_two_pow, BitVec.testBit_toNat, hbits j]
  by_cases hj : j < len
  · rw [hv j hj]
  · simp [hj]

/-- Byte extractions on a fresh reader deliver the byte string that the buffer holds (42_bitreader.md R155). -/
theorem State.ReaderReady.rbytes_holds {data : List Byte}
    (hfit : s.r.bitsRead.toNat + 8 * data.length ≤ s.r.numBits.toNat)
    (hdata : s.mem.Holds s.r.base.toNat s.r.bitsRead.toNat (leNat data) (8 * data.length)) :
    ∃ t, s.rbytes data.length = some (data, t) ∧ t.readerFresh ∧ ReaderAdvanced s t (8 * data.length) := by
  induction data generalizing s with
  | nil => exact ⟨s, rfl, hfresh, .refl h⟩
  | cons b rest ih =>
    have hlen : 8 * (b :: rest).length = 8 + 8 * rest.length := by rw [List.length_cons]; ring
    rw [hlen] at hfit hdata ⊢
    rw [leNat, Nat.add_comm b.toNat] at hdata
    obtain ⟨hbyte, hrest⟩ := Memory.Holds.split (k := 8) hdata b.isLt
    obtain ⟨out, u, hu, hout, hkeep, hadv⟩ := h.rbits_holds hfresh (by norm_num) (by omega) hbyte
    have hframe := State.rbits_frame hu
    obtain ⟨t, ht, hend, hadv'⟩ := ih hadv.ready hkeep (by rw [hadv.bitsRead, hadv.numBits]; omega)
      (by rwa [hframe.mem, hframe.base, hadv.bitsRead])
    have hb : b = out.setWidth 8 := by
      apply BitVec.eq_of_toNat_eq
      rw [BitVec.toNat_setWidth, hout, Nat.mod_mod, Nat.mod_eq_of_lt b.isLt]
    exact ⟨t, State.rbytes_succ.mpr ⟨out, u, rest, hu, ht, by rw [← hb]⟩, hend, hadv.trans hadv'⟩

end Read

/-- A field of an ordered range that fits passes the tests of `R_INT` (43_stream_integer.md R172). -/
theorem State.ReaderReady.intTests_pass {s : State} (h : s.ReaderReady) (hb : s.r.bound = true) {min max : Word}
    (hrange : s32 min < s32 max) (hfit : s.r.bitsRead.toNat + bitsRequired min max ≤ s.r.numBits.toNat) :
    firstRaise (s.r.intTests min max) = none :=
  Reader.deliver_pass hb (by simp [rangeOk, hrange, h.noSlot hfit, Reader.tooLong, hfit])

/-- The offset of a value in its range fits the field (43_stream_integer.md R170). -/
theorem rangeEncode_lt {value min max : Word} (hlow : s32 min ≤ s32 value) (hhigh : s32 value ≤ s32 max) :
    (rangeEncode value min).toNat < 2 ^ bitsRequired min max := by
  rw [rangeEncode, toNat_sub_of_s32_le hlow, bitsRequired_eq_clog (hlow.trans hhigh)]
  refine Nat.lt_of_lt_of_le ?_ (Nat.le_pow_clog (by norm_num) _)
  omega

/-- The mirror command of a field that the buffer holds passes its tests, and its run delivers the field
(42_bitreader.md R158). -/
theorem State.ReaderReady.field_delivered {s : State} (h : s.ReaderReady) (hb : s.r.bound = true)
    (hfresh : s.readerFresh) {f : Field} (hwf : f.write.wellFormed = true) (hlegal : f.Legal s.r.bitsRead)
    (hfit : s.r.bitsRead.toNat + f.width s.r.bitsRead ≤ s.r.numBits.toNat)
    (hheld : s.mem.Holds s.r.base.toNat s.r.bitsRead.toNat f.number (f.width s.r.bitsRead)) :
    firstRaise (f.read.readerTests s.r) = none ∧
      ∃ t, f.read.readerRun s = some (⟨.ok, f.readBack⟩, t) ∧ t.readerFresh ∧
        ReaderAdvanced s t (f.width s.r.bitsRead) := by
  cases f with
  | bits value len =>
    refine ⟨h.bitsTests_pass hb hlegal hfit, ?_⟩
    obtain ⟨out, t, ht, hout, hkeep, hadv⟩ := h.rbits_holds hfresh hlegal hfit hheld
    have hval : out = (value.setWidth 64 &&& mask len.toNat).setWidth 32 := by
      apply BitVec.eq_of_toNat_eq
      rw [BitVec.toNat_setWidth, and_mask_toNat _ hlegal, BitVec.toNat_setWidth_of_le (by norm_num),
        Nat.mod_eq_of_lt ((Nat.mod_le _ _).trans_lt value.isLt), hout]
      rfl
    exact ⟨t, Option.map_eq_some_iff.mpr ⟨_, ht, by rw [hval]; rfl⟩, hkeep, hadv⟩
  | align =>
    refine ⟨h.alignTests_pass hb, ?_⟩
    rw [Field.read, Instr.readerRun]
    split
    · next h0 =>
      rw [Field.width, h0]
      exact ⟨s, rfl, hfresh, .refl h⟩
    · obtain ⟨out, t, ht, hout, hkeep, hadv⟩ :=
        h.rbits_holds hfresh ((padding_lt _).le.trans (by norm_num)) h.padding_fits hheld
      have hzero : out = 0 := BitVec.eq_of_toNat_eq (hout.trans (Nat.zero_mod _))
      exact ⟨t, Option.map_eq_some_iff.mpr ⟨_, ht, by rw [hzero]; rfl⟩, hkeep, hadv⟩
  | bytes data =>
    have hcount : (BitVec.ofNat 24 data.length).toNat = data.length := by
      rw [BitVec.toNat_ofNat, Nat.mod_eq_of_lt (of_decide_eq_true hwf)]
    obtain ⟨t, ht, hkeep, hadv⟩ := h.rbytes_holds hfresh hfit hheld
    rw [Field.read, Instr.readerTests, Instr.readerRun, hcount]
    exact ⟨h.bytesTests_pass hb hlegal hfit, t, Option.map_eq_some_iff.mpr ⟨_, ht, rfl⟩, hkeep, hadv⟩
  | int value min max =>
    obtain ⟨hrange, hlow, hhigh⟩ := hlegal
    refine ⟨h.intTests_pass hb hrange hfit, ?_⟩
    obtain ⟨out, t, ht, hout, hkeep, hadv⟩ := h.rbits_holds hfresh (bitsRequired_le min max) hfit hheld
    have hval : out = rangeEncode value min :=
      BitVec.eq_of_toNat_eq (hout.trans (Nat.mod_eq_of_lt (rangeEncode_lt hlow hhigh)))
    have hdecode : rangeDecode out min = value := by rw [hval, rangeDecode, rangeEncode, BitVec.sub_add_cancel]
    exact ⟨t, Option.map_eq_some_iff.mpr ⟨_, ht, by rw [hdecode]; rfl⟩, hkeep, hadv⟩

/-! ## The mirror session -/

/-- The reader of `q` stands where the writer of `s` stands, over the same buffer (42_bitreader.md R158). -/
structure Mirrors (q s : State) : Prop where
  ready : q.ReaderReady
  bound : q.r.bound = true
  fresh : q.readerFresh
  base : q.r.base = s.w.base
  numBits : q.r.numBits = s.w.numBits
  bitsRead : q.r.bitsRead = s.w.bitsWritten

/-- The mirror command of a field that was supplied and is held by the buffer delivers it, and the reader stands where
the writer stood after it (42_bitreader.md R158). -/
theorem Mirrors.read {q s t : State} (hq : Mirrors q s) {f : Field} (hwf : f.write.wellFormed = true)
    (hlegal : f.Legal s.w.bitsWritten) (ht : StreamSupplied s t f.number (f.width s.w.bitsWritten))
    (hmem : ∀ n < t.w.bitsWritten.toNat, q.mem.streamBit s.w.base.toNat n = t.writtenBit n) :
    ∃ u, exec f.read q = .next u ∧ u.response = some ⟨.ok, f.readBack⟩ ∧ u.mem = q.mem ∧ Mirrors u t := by
  have hcount := ht.advanced.bitsWritten
  have hfit : t.w.bitsWritten.toNat ≤ s.w.numBits.toNat := by
    obtain ⟨-, hwritten, -⟩ := ht.advanced.ready.inv
    rwa [← ht.advanced.numBits]
  have hheld : q.mem.Holds s.w.base.toNat s.w.bitsWritten.toNat f.number (f.width s.w.bitsWritten) := by
    intro j hj
    rw [hmem _ (by omega), ht.bits, if_neg (by omega), Nat.add_sub_cancel_left, decide_eq_true hj, Bool.true_and]
  rw [← hq.bitsRead] at hlegal hcount hheld
  rw [← hq.base] at hheld
  obtain ⟨hn, u, hu, hkeep, hadv⟩ := hq.ready.field_delivered hq.bound hq.fresh hwf hlegal
    (by rw [hq.numBits, ← hcount]; exact hfit) hheld
  have hframe := readerRun_frame hu
  refine ⟨_, exec_reader_of_run f.read_isReaderCommand hn hu, rfl, hframe.mem, ⟨hadv.ready.memWords, hadv.ready.inv⟩,
    hframe.bound.trans hq.bound, hkeep, ?_, ?_, BitVec.eq_of_toNat_eq (hadv.bitsRead.trans hcount.symm)⟩
  · exact hframe.base.trans (hq.base.trans ht.base.symm)
  · exact hframe.numBits.trans (hq.numBits.trans ht.advanced.numBits.symm)

/-- The mirror reads of a write session that answered `OK` throughout, over a memory that holds its whole stream
(42_bitreader.md R158). -/
theorem Mirrors.trace_reads {q s : State} (hq : Mirrors q s) (hs : s.WriterReady) {fields : List Field}
    {ts : List State} (hwf : ∀ f ∈ fields, f.write.wellFormed = true)
    (hts : trace (fields.map Field.write) s = some ts) (hok : ∀ t ∈ ts, t.Answered .ok [])
    (hmem : ∀ n < (ts.getLastD s).w.bitsWritten.toNat,
      q.mem.streamBit s.w.base.toNat n = (ts.getLastD s).writtenBit n) :
    ∃ rs, trace (fields.map Field.read) q = some rs ∧
      rs.map State.response = fields.map (fun f => some ⟨.ok, f.readBack⟩) ∧
      rs.map (fun t => t.r.bitsRead) = ts.map (fun t => t.w.bitsWritten) := by
  induction fields generalizing q s ts with
  | nil =>
    cases hts
    exact ⟨[], rfl, rfl, rfl⟩
  | cons f rest ih =>
    obtain ⟨hf, hwf⟩ := List.forall_mem_cons.mp hwf
    obtain ⟨t, us, ht, hus, rfl⟩ := trace_cons_eq_some hts
    obtain ⟨htok, husok⟩ := List.forall_mem_cons.mp hok
    obtain ⟨hlegal, hsupplied⟩ := hs.write_supplied ht htok
    have hready := hsupplied.advanced.ready
    obtain ⟨-, hkept⟩ := hready.trace_writes hus husok
    rw [List.getLastD_cons] at hmem
    obtain ⟨u, hu, hresponse, humem, hmirror⟩ := hq.read hf hlegal hsupplied fun n hn => by
      rw [hmem n (hn.trans_le hkept.stream.count), hkept.stream.bits n hn]
    obtain ⟨rs, hrs, hresponses, hpositions⟩ := ih hmirror hready hwf hus husok (by rwa [humem, hsupplied.base])
    refine ⟨u :: rs, ?_, ?_, ?_⟩
    · rw [List.map_cons, trace_cons hu, hrs]
      rfl
    · rw [List.map_cons, List.map_cons, hresponse, hresponses]
    · rw [List.map_cons, List.map_cons, hmirror.bitsRead, hpositions]

/-! ## The round trip -/

/-- A session of two parts that completes: both parts do. -/
theorem trace_append_eq_some {a b : List Instr} {s : State} {us : List State} (h : trace (a ++ b) s = some us) :
    ∃ ts vs, trace a s = some ts ∧ trace b (ts.getLastD s) = some vs ∧ us = ts ++ vs := by
  induction a generalizing s us with
  | nil => exact ⟨[], us, rfl, h, rfl⟩
  | cons i rest ih =>
    obtain ⟨t, us, ht, hus, rfl⟩ := trace_cons_eq_some h
    obtain ⟨ts, vs, hts, hvs, rfl⟩ := ih hus
    refine ⟨t :: ts, vs, by rw [trace_cons ht, hts]; rfl, ?_, rfl⟩
    rwa [List.getLastD_cons]

/-- A `W_NEW` that answers `OK` raised nothing and bound a fresh writer (41_bitwriter.md R131). -/
theorem exec_wNew_ok {base cap : Word} {s t : State} (hm : s.memWords ≤ Config.maxMemWords)
    (ht : exec (.wNew base cap) s = .next t) (hok : t.Answered .ok []) :
    firstRaise (newTests base cap s.memWords) = none ∧ t.memWords = s.memWords ∧ t.w = Writer.fresh base cap ∧
      t.WriterReady := by
  obtain ⟨st, hst, rfl⟩ | ⟨hn, he⟩ := guarded_next ht
  · obtain rfl : st = .ok := by simpa [State.Answered] using hok
    exact absurd rfl (newTests_ne_ok _ _ _ _ (firstRaise_mem hst))
  · cases he
    exact ⟨hn, rfl, rfl, hm, Writer.BoundInv.fresh hm hn, by simp [Writer.sync]⟩

/-- A `W_FLUSH` that answers `OK` leaves every accepted bit in `MEM` (20_memory.md R71). -/
theorem State.WriterReady.flush_ok {s t : State} (h : s.WriterReady) (ht : exec .wFlush s = .next t)
    (hok : t.Answered .ok []) :
    t.memWords = s.memWords ∧
      ∀ n < s.w.bitsWritten.toNat, t.mem.streamBit s.w.base.toNat n = s.writtenBit n := by
  obtain ⟨-, u, hu, rfl⟩ := exec_writer_ok rfl ht hok
  obtain ⟨-, hstored⟩ := h.flush_stores hu
  exact ⟨(writerRun_frame hu).memWords, fun n hn => hstored n (by omega)⟩

/-- An `R_NEW` over the buffer of a fresh writer binds a reader that mirrors it (42_bitreader.md R151). -/
theorem exec_rNew_mirrors {base cap : Word} {e s : State} (hm : e.memWords ≤ Config.maxMemWords)
    (hn : firstRaise (newTests base cap e.memWords) = none) (hs : s.w = Writer.fresh base cap) :
    ∃ q, exec (.rNew base cap) e = .next q ∧ q.response = some ⟨.ok, []⟩ ∧ q.mem = e.mem ∧ Mirrors q s := by
  refine ⟨_, guarded_none hn _ _, rfl, rfl, ⟨hm, Reader.BoundInv.fresh hm hn⟩, rfl,
    fun i hi => absurd hi (Nat.not_lt_zero i), ?_, ?_, ?_⟩ <;>
  · rw [hs]
    rfl

/-- Settles O51: after the flush `MEM` holds the stream of the session, and a fresh reader over the same buffer mirrors
the fresh writer the session began with. -/
theorem sessionRoundTrips : Obligations.SessionRoundTrips := by
  intro base cap fields s ws hm hwf hws hok
  obtain ⟨a, us, ha, hrest, rfl⟩ := trace_cons_eq_some hws
  obtain ⟨ts, vs, hts, hvs, rfl⟩ := trace_append_eq_some hrest
  obtain ⟨e, es, he, hes, rfl⟩ := trace_cons_eq_some hvs
  cases hes
  obtain ⟨haok, htsok, heok⟩ : a.Answered .ok [] ∧ (∀ t ∈ ts, t.Answered .ok []) ∧ e.Answered .ok [] := by
    simpa [or_imp, forall_and] using hok
  obtain ⟨hn, hwords, hfresh, hready⟩ := exec_wNew_ok hm ha haok
  obtain ⟨hlength, hkept⟩ := hready.trace_writes hts htsok
  obtain ⟨hewords, hstored⟩ := hkept.ready.flush_ok he heok
  rw [← hwords, ← hkept.memWords, ← hewords] at hn hm
  obtain ⟨q, hq, hresponse, hmem, hmirror⟩ := exec_rNew_mirrors hm hn hfresh
  obtain ⟨rs, hrs, hresponses, hpositions⟩ := hmirror.trace_reads hready hwf hts htsok (by rwa [hmem, ← hkept.base])
  refine ⟨q :: rs, ?_, ?_, ?_⟩
  · rw [List.getLastD_cons, List.getLastD_concat, trace_cons hq, hrs]
    rfl
  · rw [List.map_cons, hresponse, hresponses]
  · rw [List.take_succ_cons, List.take_left' hlength, List.map_cons, List.map_cons, hmirror.bitsRead, hpositions]

end Sys2Proof.Machine
end

section
/-! PROOFS. O29, O44, O49, O50: range-encoded integers (43_stream_integer.md). The field of a value is its offset in
the range, a number that fits the field's length; writing appends it, reading delivers it and adds the minimum. The
round trip is that of one field of a session (42_bitreader.md R158), read by any reader at the field's place. -/

namespace Sys2Proof.Machine

/-! ## The range encoding -/

/-- The field of a value at or above the minimum is its offset: the subtraction does not wrap (43_stream_integer.md
R170). -/
theorem rangeEncode_toNat {value min : Word} (hlow : s32 min ≤ s32 value) :
    (rangeEncode value min).toNat = (s32 value - s32 min).toNat := toNat_sub_of_s32_le hlow

/-- Decoding undoes encoding for all words: both are modulo `2^32` (43_stream_integer.md R170). -/
theorem rangeDecode_rangeEncode (value min : Word) : rangeDecode (rangeEncode value min) min = value :=
  BitVec.sub_add_cancel value min

/-- A range of more than one integer takes at least one bit (43_stream_integer.md R170). -/
theorem bitsRequired_pos {min max : Word} (hrange : s32 min < s32 max) : 1 ≤ bitsRequired min max := by
  rw [bitsRequired_eq_clog hrange.le]
  exact Nat.clog_pos (by norm_num) (by omega)

/-- Settles O49. -/
theorem rangeEncodingRoundTrips : Obligations.RangeEncodingRoundTrips := by
  intro value min max hrange hlow hhigh
  refine ⟨bitsRequired_pos hrange, bitsRequired_le min max, ?_, rangeEncode_lt hlow hhigh,
    rangeDecode_rangeEncode value min⟩
  rw [rangeEncode_toNat hlow]
  exact Int.toNat_of_nonneg (sub_nonneg.mpr hlow)

/-! ## `W_INT` -/

/-- A value inside its range whose field fits passes the tests of `W_INT` (43_stream_integer.md R171). -/
theorem State.WriterReady.intTests_pass {s : State} (h : s.WriterReady) (ho : s.w.Open) {value min max : Word}
    (hrange : s32 min < s32 max) (hlow : s32 min ≤ s32 value) (hhigh : s32 value ≤ s32 max)
    (hfit : s.w.bitsWritten.toNat + bitsRequired min max ≤ s.w.numBits.toNat) :
    firstRaise (s.w.intTests value min max) = none :=
  ho.accept_pass (by simp [rangeHolds, rangeOk, hrange, hlow, hhigh, h.noSlot hfit, Writer.tooLong, hfit])

/-- Settles O29: the tests pass, and `wbits` appends the offset. -/
theorem wIntAppendsTheOffset : Obligations.WIntAppendsTheOffset := by
  intro value min max s h ho hrange hlow hhigh hfit
  rw [← bitsRequired_eq_clog hrange.le] at hfit ⊢
  have hready := h.writerReady ho
  obtain ⟨t, ht, -⟩ := hready.wbits (rangeEncode value min) (bitsRequired_le min max) hfit
  have happ := hready.wbits_appended (bitsRequired_le min max) hfit ht
  rw [rangeEncode_toNat hlow] at happ
  exact ⟨_, exec_writer_of_run rfl (hready.intTests_pass ho hrange hlow hhigh hfit) ht, rfl, happ.respond _ _⟩

/-! ## `R_INT` -/

/-- Settles O44: the tests pass, and `rbits` delivers the field. -/
theorem rIntDeliversTheOffsetPlusMin : Obligations.RIntDeliversTheOffsetPlusMin := by
  intro min max s h hb hrange
  dsimp only
  rw [← bitsRequired_eq_clog hrange.le]
  intro hfit
  have hready := h.readerReady hb
  obtain ⟨out, t, ht, -⟩ := hready.rbits (bitsRequired_le min max) hfit
  obtain ⟨hdel, hout⟩ := hready.rbits_delivered (bitsRequired_le min max) hfit ht
  have hrun : (Instr.rInt min max).readerRun s = some (⟨.ok, [rangeDecode out min]⟩, t) := by
    rw [Instr.readerRun, ht]
    rfl
  have hsum : rangeDecode out min = BitVec.ofNat 32 (out.toNat + min.toNat) := by
    rw [BitVec.ofNat_add, BitVec.ofNat_toNat, BitVec.ofNat_toNat, BitVec.setWidth_eq, BitVec.setWidth_eq]
    rfl
  refine ⟨_, exec_reader_of_run rfl (hready.intTests_pass hb hrange hfit) hrun, hdel.respond _ _, ?_⟩
  rw [← hout, ← hsum]
  rfl

/-! ## The round trip -/

/-- A fresh reader over the buffer of the writer of `s`, at its place, mirrors it (42_bitreader.md R158). -/
theorem Mirrors.of_same_buffer {q s : State} (hs : s.WriterReady) (hq : q.ReaderReady) (hb : q.r.bound = true)
    (hfresh : q.readerFresh) (hbase : q.r.base = s.w.base) (hwords : q.r.numWords = s.w.numWords)
    (hplace : q.r.bitsRead = s.w.bitsWritten) : Mirrors q s := by
  obtain ⟨-, -, hqbits, -⟩ := hq.cursor
  obtain ⟨-, -, hsbits, -⟩ := hs.cursor
  exact ⟨hq, hb, hfresh, hbase, BitVec.eq_of_toNat_eq (by rw [hqbits, hsbits, hwords]), hplace⟩

/-- Settles O50: `W_INT` is a field of width `bits_required`, the flush leaves it in `MEM`, and the reader mirrors the
writer that wrote it. -/
theorem rangeIntegerRoundTrips : Obligations.RangeIntegerRoundTrips := by
  intro value min max s t u q h ht htok hu huok hb hq hbase hwords hplace hfresh
  obtain ⟨hpass, -⟩ := exec_writer_ok rfl ht htok
  obtain ⟨hready, -⟩ := h.accept_pass hpass
  obtain ⟨hlegal, hsupplied⟩ := hready.write_supplied (f := .int value min max) ht htok
  obtain ⟨-, hstored⟩ := hsupplied.advanced.ready.flush_ok hu huok
  obtain ⟨hwidth, hwriter, -, hmem⟩ := exec_keeps_inv (exec_keeps_inv h ht) hu
  have hreader : State.Inv { u with r := q } := ⟨hwidth, hwriter, hq, hmem⟩
  have hmirror : Mirrors { u with r := q } s :=
    .of_same_buffer hready (hreader.readerReady hb) hb hfresh hbase hwords hplace
  obtain ⟨z, hz, hanswer, -, hend⟩ := hmirror.read rfl hlegal hsupplied (by rwa [← hsupplied.base])
  exact ⟨hsupplied.advanced.bitsWritten, z, hz, hanswer, hend.bitsRead⟩

end Sys2Proof.Machine
end

section
/-! PROOFS. O11, O30, O34, O45, O56: exceptions (60_exceptions.md). A command that answers a failure raised it in its
tests, because the runs answer `OK`, or `PaddingNonZero` for an `R_ALIGN`; so a failure is an entry of a list of tests,
and what it changes is what `raise` changes. -/

namespace Sys2Proof.Machine

/-! ## Failures of the writer -/

/-- A writer command that answers a failure raised it (60_exceptions.md R183, R184). -/
theorem exec_writer_raised {i : Instr} (hi : i.isWriterCommand = true) {s t : State} {st : Status} {data : List Word}
    (ht : exec i s = .next t) (hst : t.Answered st data) (hne : st ≠ .ok) :
    firstRaise (i.writerTests s.w) = some st ∧ data = [] ∧ t = s.raiseLatched st := by
  rw [exec_writer hi] at ht
  obtain ⟨st', hraised, rfl⟩ | ⟨-, he⟩ := guarded_next ht
  · obtain ⟨rfl, rfl⟩ : st' = st ∧ [] = data := by simpa [State.Answered] using hst
    exact ⟨hraised, rfl, rfl⟩
  · obtain ⟨u, -, rfl⟩ := finishWrite_next he
    obtain ⟨rfl, -⟩ : .ok = st ∧ [] = data := by simpa [State.Answered] using hst
    exact absurd rfl hne

/-- A writer command raises a refusal of `wadmit`, or a fatal status while the latch is clear (60_exceptions.md R184,
R189). -/
theorem writerTests_refused_or_fatal {i : Instr} {w : Writer} {st : Status}
    (hst : firstRaise (i.writerTests w) = some st) :
    st ∈ [Status.notBound, .faulted] ∨ w.fault = 0 ∧ st.fatal = true := by
  cases hb : w.bound with
  | false =>
    obtain rfl : .notBound = st := Option.some.inj ((writerTests_unbound i hb).symm.trans hst)
    exact .inl (by simp)
  | true =>
    by_cases hf : w.fault = 0
    · exact .inr ⟨hf, writerTests_fatal hb hf hst⟩
    · obtain rfl : .faulted = st := Option.some.inj ((writerTests_faulted i hb hf).symm.trans hst)
      exact .inl (by simp)

/-- The fatal statuses, as the rule lists them (60_exceptions.md R184). -/
theorem Status.fatal_iff {st : Status} :
    st.fatal = true ↔
      st ∈ [Status.capacityExceeded, .misaligned, .bitsRange, .rangeContract, .bufferBounds, .desync] := by
  cases st <;> decide

/-- A fatal status is latched, and nothing else changes (60_exceptions.md R184). -/
theorem State.raiseLatched_of_fatal (s : State) {st : Status} (h : st.fatal = true) :
    s.raiseLatched st = { s with w := s.w.withFault st.code, response := some ⟨st, []⟩ } := by
  have hlatch : s.w.latch st = s.w.withFault st.code := by rw [Writer.latch, if_pos h, Writer.withFault]
  rw [State.raiseLatched, hlatch]
  rfl

/-- Settles O30: a failure comes from a test; the admission's two are not latched, all others are fatal. -/
theorem writerFailuresAreLatched : Obligations.WriterFailuresAreLatched := by
  intro i s hi
  refine ⟨fun t st data ht hst hne => ?_, fun hb hf => ?_⟩
  · obtain ⟨hraised, hdata, rfl⟩ := exec_writer_raised hi ht hst hne
    refine ⟨hdata, ?_⟩
    obtain hrefused | ⟨-, hfatal⟩ := writerTests_refused_or_fatal hraised
    · exact .inr ⟨hrefused, s.raiseLatched_of_refusal hrefused⟩
    · exact .inl ⟨Status.fatal_iff.mp hfatal, s.raiseLatched_of_fatal hfatal⟩
  · rw [exec_writer hi, guarded_some (writerTests_faulted i hb hf), s.raiseLatched_of_refusal (by simp)]

/-! ## What clears the latch -/

/-- The writer stays bound or unbound, and a latch that is set stays as it is. -/
def LatchKept (s t : State) : Prop := t.w.bound = s.w.bound ∧ (s.w.fault ≠ 0 → t.w.fault = s.w.fault)

theorem LatchKept.of_writer_eq {s t : State} (h : t.w = s.w) : LatchKept s t :=
  ⟨congrArg Writer.bound h, fun _ => congrArg Writer.fault h⟩

/-- A writer command never clears the latch: it raises a fatal status only while the latch is clear
(60_exceptions.md R189). -/
theorem exec_writer_latchKept {i : Instr} (hi : i.isWriterCommand = true) {s t : State} (ht : exec i s = .next t) :
    LatchKept s t := by
  rw [exec_writer hi] at ht
  obtain ⟨st, hraised, rfl⟩ | ⟨-, he⟩ := guarded_next ht
  · obtain hrefused | ⟨hclear, -⟩ := writerTests_refused_or_fatal hraised
    · exact .of_writer_eq (by rw [s.raiseLatched_of_refusal hrefused])
    · exact ⟨rfl, fun hset => absurd hclear hset⟩
  · obtain ⟨u, hu, rfl⟩ := finishWrite_next he
    have hframe := writerRun_frame hu
    exact ⟨hframe.bound, fun _ => hframe.fault⟩

/-- Only a `W_NEW` that answers `OK` binds the writer or clears its latch (10_state.md R26, 60_exceptions.md R191). -/
theorem exec_latchKept {i : Instr} {s t : State} (ht : exec i s = .next t) :
    LatchKept s t ∨ ∃ base cap, i = .wNew base cap ∧ t.status = some .ok := by
  cases i with
  | cPopcnt =>
    cases ht
    exact .inl (.of_writer_eq rfl)
  | cBitsreq =>
    obtain ⟨st, -, rfl⟩ | ⟨-, he⟩ := guarded_next ht
    · exact .inl (.of_writer_eq rfl)
    · cases he
      exact .inl (.of_writer_eq rfl)
  | rNew => exact .inl (.of_writer_eq (rNew_ignores_writer ht).1.1)
  | wNew base cap =>
    obtain ⟨st, -, rfl⟩ | ⟨-, he⟩ := guarded_next ht
    · exact .inl (.of_writer_eq rfl)
    · cases he
      exact .inr ⟨base, cap, rfl, rfl⟩
  | wBits | wFlush | wAlign | wBytes | wInt => exact .inl (exec_writer_latchKept rfl ht)
  | rBits | rAlign | rBytes | rInt => exact .inl (.of_writer_eq (reader_ignores_writer rfl ht).1.1)

/-- The same of a step, where a reset is the other event (60_exceptions.md R191). -/
theorem step_latchKept {s t : State} (h : step s = .next t) :
    LatchKept s t ∨ (∃ base cap n, offer s.inbox = .command (.wNew base cap) n ∧ t.status = some .ok) ∨
      offer s.inbox = .reset := by
  obtain ⟨-, rfl⟩ | ⟨i, n, hoffer, ht⟩ | ⟨-, rfl⟩ | ⟨a, b, -, -, rfl⟩ | ⟨j, v, -, -, rfl⟩ | ⟨hoffer, -⟩ := step_next h
  · exact .inl (.of_writer_eq rfl)
  · obtain hkept | ⟨base, cap, rfl, hok⟩ := exec_latchKept ht
    · exact .inl hkept
    · exact .inr (.inl ⟨base, cap, n, hoffer, hok⟩)
  · exact .inl (.of_writer_eq rfl)
  · exact .inl (.of_writer_eq rfl)
  · exact .inl (.of_writer_eq rfl)
  · exact .inr (.inr hoffer)

/-- Settles O34: every other step keeps the latch and the bound bit. -/
theorem onlyNewAndResetClearTheLatch : Obligations.OnlyNewAndResetClearTheLatch := by
  intro s t h
  obtain ⟨hbound, hfault⟩ | hevent := step_latchKept h
  · exact ⟨fun hset hchanged => absurd (hfault hset) hchanged, fun hchanged => absurd hbound hchanged⟩
  · exact ⟨fun _ _ => hevent, fun _ => hevent⟩

/-! ## Failures of the reader -/

/-- The statuses with which a reader command is refused; `InvalidCapacity` is that of `R_NEW` (42_bitreader.md R151,
60_exceptions.md R185). -/
def readerRefusals : List Status :=
  [.overflow, .misaligned, .bitsRange, .rangeContract, .bufferBounds, .notBound, .invalidCapacity]

theorem readerTests_refusal (i : Instr) (r : Reader) : ∀ p ∈ i.readerTests r, p.2 ∈ readerRefusals := by
  cases i with
  | rBits | rAlign | rBytes | rInt =>
    simp [Instr.readerTests, Reader.bitsTests, Reader.alignTests, Reader.bytesTests, Reader.intTests, Reader.radmit,
      readerRefusals]
  | cPopcnt | cBitsreq | wNew | wBits | wFlush | wAlign | wBytes | wInt | rNew =>
    simp [Instr.readerTests, Reader.radmit, readerRefusals]

theorem newTests_refusal (base cap : Word) (memWords : Nat) :
    ∀ p ∈ newTests base cap memWords, p.2 ∈ readerRefusals := by
  simp [newTests, readerRefusals]

/-- The run of a reader command answers `OK`, or `PaddingNonZero` when it is that of an `R_ALIGN` (42_bitreader.md
R154). -/
theorem readerRun_status {i : Instr} {s t : State} {p : Response} (h : i.readerRun s = some (p, t)) :
    p.status = .ok ∨ p.status = .paddingNonZero := by
  cases i with
  | rBits | rBytes | rInt =>
    obtain ⟨⟨out, u⟩, -, he⟩ := Option.map_eq_some_iff.mp h
    cases he
    exact .inl rfl
  | rAlign =>
    rw [Instr.readerRun] at h
    split at h
    · cases h
      exact .inl rfl
    · obtain ⟨⟨out, u⟩, -, he⟩ := Option.map_eq_some_iff.mp h
      cases he
      exact ite_eq_or_eq (out = 0) _ _
  | cPopcnt | cBitsreq | wNew | wBits | wFlush | wAlign | wBytes | wInt | rNew => cases h

/-- What a command whose tests raise with `raise` did when it answers a refusal: the response is all that changed. -/
theorem guarded_raise_refused {tests : List (Bool × Status)} {effect : Result} {s t : State} {st : Status}
    {data : List Word} (ht : guarded tests (fun st => s.raise st) effect = .next t) (hst : t.Answered st data)
    (hrefusal : ∀ p ∈ tests, p.2 ∈ readerRefusals) (heffect : effect ≠ .next t) :
    st ∈ readerRefusals ∧ t = { s with response := some ⟨st, []⟩ } := by
  obtain ⟨st', hraised, rfl⟩ | ⟨-, he⟩ := guarded_next ht
  · obtain ⟨rfl, -⟩ : st' = st ∧ [] = data := by simpa [State.Answered] using hst
    exact ⟨hrefusal _ (firstRaise_mem hraised), rfl⟩
  · exact absurd he heffect

/-- Settles O45: a refusal comes from a test, and a raised status changes the response only. -/
theorem readerFailuresChangeNothing : Obligations.ReaderFailuresChangeNothing := by
  rintro i s t st data (hi | ⟨base, cap, rfl⟩) ht hst hok hpad
  · rw [exec_reader hi] at ht
    refine guarded_raise_refused ht hst (readerTests_refusal i s.r) fun he => ?_
    obtain ⟨p, u, hu, rfl⟩ := finishRead_next he
    obtain rfl : p = ⟨st, data⟩ := Option.some.inj hst
    exact (readerRun_status hu).elim hok hpad
  · refine guarded_raise_refused ht hst (newTests_refusal base cap s.memWords) fun he => ?_
    cases he
    obtain ⟨rfl, -⟩ : .ok = st ∧ [] = data := by simpa [State.Answered] using hst
    exact hok rfl

/-! ## The matrix of statuses -/

/-- The status of the priority list is in the command's row of the matrix (60_exceptions.md R182, R188). -/
theorem commandStatus_mem_mayAnswer (i : Instr) (s : State) : commandStatus i s ∈ i.mayAnswer := by
  cases i with
  | cPopcnt => exact List.mem_singleton_self _
  | cBitsreq | wNew | rNew | wBits | wFlush | wAlign | wBytes | wInt | rBits | rAlign | rBytes | rInt =>
    simp only [commandStatus, Instr.mayAnswer]
    split_ifs <;> simp

/-- Settles O56: the command answers the status of the priority list, which is in its row. -/
theorem statusMatrixHolds : Obligations.StatusMatrixHolds := by
  intro i s t h ht
  obtain ⟨t', ht', hstatus⟩ := everyCommandCompletesWithItsStatus i s h
  obtain rfl : t' = t := Host.Outcome.next.inj (ht'.symm.trans ht)
  exact ⟨_, commandStatus_mem_mayAnswer i s, hstatus⟩

/-! ## Errors of the host -/

/-- The header of a command selects a row and tells the command's length (30_encoding.md R95). -/
theorem header_of_encode {i : Instr} (hw : i.wellFormed = true) {h : Word} {args : List Word}
    (he : encode i = h :: args) : rowOf h ≠ none ∧ commandWords h = (encode i).length := by
  have hwhole : decode (h :: args) = .ok (i, []) := by rw [← he, ← decode_encode_append hw [], List.append_nil]
  have hrow : rowOf h ≠ none := fun hnone => nomatch (decode_of_rowOf_none hnone args).symm.trans hwhole
  obtain ⟨j, hj, -, -, hlen⟩ | ⟨-, hnone⟩ | ⟨herr, -⟩ := decoderTakesTheHeadersLength h args
  · obtain ⟨rfl, -⟩ := Prod.mk.inj (Except.ok.inj (hj.symm.trans hwhole))
    exact ⟨hrow, hlen.symm⟩
  · exact absurd hnone hrow
  · exact nomatch herr.symm.trans hwhole

/-- The decoder on a command cut short after its header or an operand word (log 5). -/
theorem decode_encode_take {i : Instr} (hw : i.wellFormed = true) {k : Nat} (hpos : 0 < k)
    (hk : k < (encode i).length) : decode ((encode i).take k) = .error .incompleteCommand := by
  obtain ⟨h, args, he⟩ := List.exists_cons_of_length_pos (Nat.zero_lt_of_lt hk)
  obtain ⟨n, rfl⟩ := Nat.exists_eq_add_one.mpr hpos
  obtain ⟨hrow, hlen⟩ := header_of_encode hw he
  rw [he, List.take_succ_cons]
  obtain ⟨-, -, -, hwhole, -⟩ | ⟨-, hnone⟩ | ⟨herr, -⟩ := decoderTakesTheHeadersLength h (args.take n)
  · rw [hlen, List.length_take] at hwhole
    omega
  · exact absurd hnone hrow
  · exact herr

/-- The port offers nothing to execute while its words end inside a command (30_encoding.md R98; log 5). -/
theorem offer_incomplete {inbox : List HostMove} (h : decode (pendingWords inbox) = .error .incompleteCommand) :
    offer inbox = .incomplete := by
  match inbox with
  | [] => simp [decode] at h
  | .word w :: more => simp only [offer, h]
  | .storeByte _ _ :: _ => simp [pendingWords, decode] at h
  | .storeWord _ _ :: _ => simp [pendingWords, decode] at h
  | .reset :: _ => simp [pendingWords, decode] at h

theorem hostStoreByte_refused {a : Nat} {s : State} (h : 4 * s.memWords ≤ a) (b : Byte) :
    hostStoreByte a b s = .refused .hostStoreOutsideMem := if_neg (Nat.not_lt.mpr h)

theorem hostStoreWord_refused {i : Nat} {s : State} (h : s.memWords ≤ i) (v : Word) :
    hostStoreWord i v s = .refused .hostStoreOutsideMem := by
  have hnone : s.storeWord i v = none := if_neg (Nat.not_lt.mpr h)
  simp only [hostStoreWord, hnone]

/-- Settles O11, by what the port offers in each case. -/
theorem hostErrorsAreRefusedByName : Obligations.HostErrorsAreRefusedByName := by
  intro s
  refine ⟨fun hs => ?idle, fun i k hw hpos hk hs => ?cut, fun a b more hs hout => ?byte, fun i v more hs hout => ?word⟩
  case idle => simp only [step, hs, offer_nil]
  case cut =>
    have hwords : pendingWords s.inbox = (encode i).take k := by
      rw [hs, ← List.append_nil (wordMoves _), pendingWords_wordMoves_append, pendingWords_nil, List.append_nil]
    have hoffer : offer s.inbox = .incomplete := offer_incomplete (hwords ▸ decode_encode_take hw hpos hk)
    simp only [step, hoffer]
  case byte =>
    have hrefused := hostStoreByte_refused (s := s.take 1) hout b
    simpa only [step, hs, offer_storeByte] using hrefused
  case word =>
    have hrefused := hostStoreWord_refused (s := s.take 1) hout v
    simpa only [step, hs, offer_storeWord] using hrefused

end Sys2Proof.Machine
end

section
/-! PROOFS. O32: the end of a session (70_reset_and_hazards.md R215). A `W_FLUSH` with staged bits moves the word slot
past the bit count, and a writer out of sync fails the third test of every command that accepts bits. -/

namespace Sys2Proof.Machine

theorem isWriterCommand_of_acceptsBits {i : Instr} (hi : i.acceptsBits = true) : i.isWriterCommand = true := by
  cases i with
  | wBits | wAlign | wBytes | wInt => rfl
  | cPopcnt | cBitsreq | wNew | wFlush | rNew | rBits | rAlign | rBytes | rInt => cases hi

/-- The third test of every command that accepts bits is the sync of the cursor (41_bitwriter.md R130). -/
theorem writerTests_desync {i : Instr} (hi : i.acceptsBits = true) {w : Writer} (hb : w.bound = true)
    (hf : w.fault = 0) (hs : w.sync = false) : firstRaise (i.writerTests w) = some .desync := by
  have haccept : firstRaise w.waccept = some .desync := by
    rw [Writer.waccept, Writer.wadmit, hb, hf, hs]
    rfl
  cases i with
  | wBits | wAlign | wBytes | wInt => exact firstRaise_append_of_some haccept _
  | cPopcnt | cBitsreq | wNew | wFlush | rNew | rBits | rAlign | rBytes | rInt => cases hi

/-- A writer out of sync refuses every command that accepts bits and latches the status (10_state.md R29,
60_exceptions.md R184). -/
theorem exec_desync {i : Instr} (hi : i.acceptsBits = true) {s : State} (hb : s.w.bound = true) (hf : s.w.fault = 0)
    (hs : s.w.sync = false) :
    exec i s = .next { s with w := s.w.withFault 12, response := some ⟨.desync, []⟩ } := by
  rw [exec_writer (isWriterCommand_of_acceptsBits hi), guarded_some (writerTests_desync hi hb hf hs),
    s.raiseLatched_of_fatal rfl]
  rfl

/-- At a word boundary a bound writer has nothing staged: staged bits are those beyond whole words (10_state.md R29). -/
theorem State.Inv.scratchBits_eq_zero_of_boundary {s : State} (h : s.Inv) (hb : s.w.bound = true)
    (hboundary : s.w.bitsWritten.toNat % 32 = 0) : s.w.scratchBits = 0 := by
  by_contra hs
  have hcursor := (h.writerReady_of_staged hb hs).cursor
  have hpos : s.w.scratchBits.toNat ≠ 0 := fun h0 => hs (BitVec.eq_of_toNat_eq h0)
  omega

/-- The cursor a partial flush leaves counts more bits than were accepted: the word slot moved and the bit count did not
(41_bitwriter.md R133, 10_state.md R29). -/
theorem State.WriterReady.sync_closed {s : State} (h : s.WriterReady) :
    (s.w.withCursor 0 0 (s.w.wordIndex.toNat + 1) s.w.bitsWritten.toNat).sync = false := by
  have hcursor := h.cursor
  have hwritten := s.w.bitsWritten.isLt
  have hindex : (BitVec.ofNat 32 (s.w.wordIndex.toNat + 1)).toNat = s.w.wordIndex.toNat + 1 :=
    Nat.mod_eq_of_lt (by omega)
  simp only [Writer.sync, Writer.withCursor, decide_eq_false_iff_not, hindex, BitVec.ofNat_toNat, BitVec.setWidth_eq,
    BitVec.toNat_zero]
  omega

/-- Settles O32: a partial flush is the one of O26, and it leaves the writer out of sync; at a word boundary nothing is
staged. -/
theorem partialFlushEndsTheSession : Obligations.PartialFlushEndsTheSession := by
  intro s t h hb hf ht
  refine ⟨fun hs => ?partialWord, fun hboundary => ?boundary⟩
  case partialWord =>
    obtain ⟨t', ht', hstate, -⟩ := (wFlushStoresThePartialWord s h hb hf).2 hs
    obtain rfl : t' = t := Host.Outcome.next.inj (ht'.symm.trans ht)
    have hw : t'.w = s.w.withCursor 0 0 (s.w.wordIndex.toNat + 1) s.w.bitsWritten.toNat := congrArg State.w hstate
    have hsync : t'.w.sync = false := hw ▸ (h.writerReady_of_staged hb hs).sync_closed
    have hbound : t'.w.bound = true := (congrArg Writer.bound hw).trans hb
    have hfault : t'.w.fault = 0 := (congrArg Writer.fault hw).trans hf
    refine ⟨?_, of_decide_eq_false hsync, fun i hi => exec_desync hi hbound hfault hsync⟩
    rw [hw, Writer.withCursor, BitVec.ofNat_toNat, BitVec.setWidth_eq]
  case boundary =>
    have hempty := h.scratchBits_eq_zero_of_boundary hb hboundary
    obtain rfl : s.respond .ok [] = t := Host.Outcome.next.inj ((exec_wFlush_of_empty hb hf hempty).symm.trans ht)
    exact ⟨s.respond_w _ _, s.respond_mem _ _⟩

end Sys2Proof.Machine
end
